-- ==== Sys2Proof/Word.lean ====
section
/-! DEFINITION. The two word types of the block: bytes of the buffer and 32-bit registers. -/

namespace Sys2Proof

/-- One byte of the buffer: unsigned, 0 to 255 (00_scope.md R6). -/
abbrev Byte := BitVec 8

/-- The value of a host-visible register: REG_W = 32 bits (00_scope.md R5). -/
abbrev Word := BitVec 32

end Sys2Proof
end

