-- ==== Sys2Proof/Syntax.lean ====
section
/-! DEFINITION. The six commands, one constructor per row of spec/opcode_table.json. A command word has no operand
field: operands come from registers, and the word is op (3:0) and rsv (31:4) (30_encoding.md R70). -/

namespace Sys2Proof

/-- A command of the block (30_encoding.md R70). -/
inductive Instr where
  /-- DECODE: decode and size the header in HDR_IN (40_header_decode.md R98). -/
  | decode
  /-- FSIZE: size the operands in FS_IN (41_frame_size.md R113). -/
  | fsize
  /-- SEEK: the first sync position (43_scan_walk.md R142). -/
  | seek
  /-- WALK: the manual walk (43_scan_walk.md R151). -/
  | walk
  /-- STORED: the stored frame count (42_metadata_shortcut.md R127). -/
  | stored
  /-- AUTO: the shortcut, then the walk on any failure (44_two_tier.md R171). -/
  | auto
  deriving DecidableEq, Repr

end Sys2Proof
end

