-- ==== Sys2Proof/Decode.lean ====
section
/-! DEFINITION. The command word: decoding, total on every 32-bit word and rejecting by name, and the encoder
(30_encoding.md R70, R71). A command word is a number, not bytes: a register access transfers that number
(20_memory.md R46), so no byte order enters (log 17). -/

namespace Sys2Proof

/-- Why a word is no command (30_encoding.md R71). -/
inductive DecodeError where
  /-- rsv, bits 31:4, is not 0, with any op. -/
  | reservedBits
  /-- op is 0 or 7 to 15. -/
  | illegalOpcode (op : BitVec 4)
  deriving DecidableEq, Repr

/-- Field op, bits 3:0 (30_encoding.md R70). -/
def opField (w : Word) : BitVec 4 := w.extractLsb' 0 4

/-- Field rsv, bits 31:4 (30_encoding.md R70). -/
def rsvField (w : Word) : BitVec 28 := w.extractLsb' 4 28

/-- The command an opcode stands for; none for the reserved opcodes 0 and 7 to 15 (30_encoding.md R70, R71). -/
def decodeOp (op : BitVec 4) : Option Instr :=
  match op.toNat with
  | 1 => some .decode
  | 2 => some .fsize
  | 3 => some .seek
  | 4 => some .walk
  | 5 => some .stored
  | 6 => some .auto
  | _ => none

/-- The decoder of command words, total on every word (30_encoding.md R70, R71). -/
def decodeWord (w : Word) : Except DecodeError Instr :=
  if rsvField w ≠ 0 then .error .reservedBits
  else
    match decodeOp (opField w) with
    | some i => .ok i
    | none => .error (.illegalOpcode (opField w))

/-- The opcode of a command (30_encoding.md R70). -/
def encodeOp : Instr → BitVec 4
  | .decode => 1
  | .fsize => 2
  | .seek => 3
  | .walk => 4
  | .stored => 5
  | .auto => 6

/-- The encoder: op in bits 3:0, bits 31:4 zero (30_encoding.md R70). -/
def encode (i : Instr) : Word := (0 : BitVec 28) ++ encodeOp i

/-- The command the decoder reads from a table row's bits: `w` in `nbits` bits, the bits above `nbits` zero.
A command is one 32-bit word, so more bits than that are refused (log 17). -/
def decodeTableWord (nbits w : Nat) : Option Instr :=
  if nbits ≤ 32 then
    if w < 2 ^ nbits then
      match decodeWord (BitVec.ofNat 32 w) with
      | .ok i => some i
      | .error _ => none
    else none
  else none

end Sys2Proof
end

