-- ==== Sys2Proof/Config.lean ====
section
/-! DEFINITION. What the spec leaves open and no rule fixes: the parameters marked OPEN and the unspecified values.
None has a body, so nothing can be proved about a particular value. -/

namespace Sys2Proof

/-- REG_BASE, the base of the register window in the host's address space: OPEN, a model argument
(00_scope.md R5; 93_implementation_defined.md U15). No rule depends on it (log 14). -/
opaque Config.regBase : Nat

/-- The unspecified value the `n`-th read of a result register draws while BUSY = 1: "a model draws any value"
(20_memory.md R59; 93_implementation_defined.md U4). DESIGN CHOICE of the form only (log 3); safe. -/
opaque Config.busyRead : Nat → Word

end Sys2Proof
end

