-- ==== Sys2Proof/Machine/Input.lean ====
section
/-! DEFINITION. The sixteen registers by name, and what can reach the block from outside: the host's steps, the
platform's events and the block's own turns (20_memory.md R56, R58; 70_reset_and_hazards.md R200). -/

namespace Sys2Proof.Machine

/-- The registers of the window, in the order of their offsets (10_state.md R10). -/
inductive Reg where
  | cmd | status | ctrl | bufLen | hdrIn | fsIn | hdrFlags | bitrate | srate | fsize | cursor | syncPos | hdrCount
  | count | markPos | id
  deriving DecidableEq, Repr

/-- One thing that happens next (DESIGN CHOICE, log 1): the order of these in State is the order of the run. -/
inductive Input where
  /-- HostRead of `bits` bits at byte offset `off` of the window (20_memory.md R48, R56). -/
  | hostRead (off bits : Nat)
  /-- HostWrite of `bits` bits at byte offset `off` of the window (20_memory.md R48, R56). -/
  | hostWrite (off bits : Nat) (v : Word)
  /-- A write of one byte to a buffer offset, by whatever platform means (20_memory.md R56). -/
  | bufWrite (a : Nat) (b : Byte)
  /-- A turn of the block: it completes its command if it has one (20_memory.md R58). -/
  | block
  /-- The platform's reset (70_reset_and_hazards.md R200). -/
  | reset
  /-- A reset that coincides with a host access (93_implementation_defined.md U10). -/
  | resetWithAccess
  deriving DecidableEq, Repr

end Sys2Proof.Machine
end

