-- ==== Sys2Proof/Machine/State.lean ====
section
/-! DEFINITION. The state of the block, as plain data, and its value after reset (10_state.md; the table of R32).
Registers are stored with exactly the bits that exist; Flags.lean and Operands.lean pack them into the 32-bit numbers
the host reads (DESIGN CHOICE, log 10; safe). -/

namespace Sys2Proof.Machine

/-- Why the machine stops with a fault. The BLOCK never faults (60_exceptions.md R180, R190). -/
inductive Fault where
  /-- Raised by a buffer write from outside at an offset that is not 31 bits long: no such buffer offset exists
  (20_memory.md R41). Safe: the machine stops (log 9). -/
  | bufferOffsetOutsideSpace (a : Nat)
  deriving DecidableEq, Repr

/-- Why a run has no meaning. Every one but the first is a run the spec itself tells a model to refuse; none is raised
by a command. All are safe: the machine stops. -/
inductive Refusal where
  /-- Raised by an arm of Dispatch.lean whose command has no meaning yet. Safe. -/
  | notModelled (mnemonic : String)
  /-- Raised by a host access that is not 32 bits wide (20_memory.md R48; U5). Safe. -/
  | accessWidth (bits : Nat)
  /-- Raised by a host access at an offset that is no multiple of 4 (20_memory.md R48; U5). Safe. -/
  | accessMisaligned (off : Nat)
  /-- Raised by a host access at offset 0x40 or above (20_memory.md R42, R48; U5). Safe. -/
  | accessOutsideWindow (off : Nat)
  /-- Raised by a write to a buffer offset below BUF_LEN while BUSY = 1: a broken launch premise
  (20_memory.md R53; 70_reset_and_hazards.md R204; U3). Safe. -/
  | bufferWriteWhileBusy (a : Nat)
  /-- Raised by a reset that coincides with a host access (93_implementation_defined.md U10). Safe. -/
  | resetCoincidesWithAccess
  deriving DecidableEq, Repr

/-- The result codes of STATUS.RESULT; the codes 8 to 15 are reserved and never produced (60_exceptions.md R181). -/
inductive ResultCode where
  | none | ok | notFound | noCountStored | invalidHeader | degenerateSize | illegalCmd | noSync
  deriving DecidableEq, Repr

/-- The stop causes of STATUS.STOP (43_scan_walk.md R145). -/
inductive StopCause where
  | notEntered | invalidHeader | incompleteWindow | degenerateSize
  deriving DecidableEq, Repr

/-- The outcomes of STATUS.META (10_state.md R12). -/
inductive MetaOutcome where
  | notAttempted | countRead | notFound | noCountStored
  deriving DecidableEq, Repr

/-- The four marker strings in priority order (10_state.md R28). -/
inductive Marker where
  | xing | info | vbri | vbrii
  deriving DecidableEq, Repr

/-- The first-sync predicates selected by CTRL.SYNC_MODE (10_state.md R13; 43_scan_walk.md R140). -/
inductive SyncMode where
  | strict | general
  deriving DecidableEq, Repr

/-- STATUS, the fields of 10_state.md R12. The bits R12 marks zero are not stored. -/
structure Status where
  busy : Bool
  done : Bool
  result : ResultCode
  syncFound : Bool
  markFound : Bool
  markId : Marker
  src : Bool
  trunc : Bool
  stop : StopCause
  haz : Bool
  metaOut : MetaOutcome
  deriving DecidableEq, Repr

/-- CTRL, the fields of 10_state.md R13. -/
structure Ctrl where
  syncMode : SyncMode
  noMeta : Bool
  deriving DecidableEq, Repr

/-- FS_IN, the fields of 10_state.md R16. -/
structure FsIn where
  srHz : BitVec 16
  brKbps : BitVec 10
  pad : Bool
  deriving DecidableEq, Repr

/-- HDR_FLAGS, the fields of 10_state.md R17. -/
structure HdrFlags where
  valid : Bool
  pad : Bool
  srIdx : BitVec 2
  brIdx : BitVec 4
  prot : Bool
  deriving DecidableEq, Repr

/-- The nine result registers (10_state.md R17 to R25), cleared together at acceptance (R30). -/
structure Results where
  hdrFlags : HdrFlags
  bitrate : Word
  srate : Word
  fsize : Word
  cursor : Word
  syncPos : Word
  hdrCount : Word
  count : Word
  markPos : Word
  deriving DecidableEq, Repr

/-- The buffer: bytes by offset, strictly rising, none equal to what an unlisted offset reads as (20_memory.md R41;
the form is Memory.wf of Ops.lean). -/
abbrev Memory := List Host.Cell

/-- One answered host read: the register and the 32-bit number HostRead returned (20_memory.md R48). -/
structure ReadResult where
  reg : Reg
  value : Word
  deriving DecidableEq, Repr

/-- Everything the spec gives the machine, and three fields of the model's own (INVENTORY.md, State). -/
structure State where
  /-- STATUS (10_state.md R12). -/
  status : Status
  /-- CTRL (10_state.md R13). -/
  ctrl : Ctrl
  /-- BUF_LEN, bits 30:0; bit 31 is hardwired 0 (10_state.md R14). -/
  bufLen : BitVec 31
  /-- HDR_IN (10_state.md R15). -/
  hdrIn : Word
  /-- FS_IN (10_state.md R16). -/
  fsIn : FsIn
  /-- The result registers (10_state.md R17 to R25). -/
  res : Results
  /-- The hidden latch OP (10_state.md R29); what it holds while BUSY = 0 is the model's choice (log 21). -/
  op : BitVec 4
  /-- The hidden latch BAD (10_state.md R29); what it holds while BUSY = 0 is the model's choice (log 21). -/
  bad : Bool
  /-- The buffer's contents (20_memory.md R41). -/
  buffer : Memory
  /-- MODEL'S OWN: what happens next, oldest first (DESIGN CHOICE, log 1). -/
  inputs : List Input
  /-- MODEL'S OWN: what the host's reads have answered, oldest first (DESIGN CHOICE, log 2). -/
  reads : List ReadResult
  /-- MODEL'S OWN: how many unspecified values have been drawn (DESIGN CHOICE, log 3). -/
  draws : Nat
  deriving DecidableEq, Repr

/-- HDR_FLAGS = 0 (10_state.md R17, R30, R32). -/
def HdrFlags.zero : HdrFlags := ⟨false, false, 0, 0, false⟩

/-- Every result register 0 (10_state.md R30, R32). -/
def Results.zero : Results := ⟨HdrFlags.zero, 0, 0, 0, 0, 0, 0, 0, 0⟩

/-- STATUS = 0x00000000 (10_state.md R32). -/
def Status.zero : Status :=
  ⟨false, false, .none, false, false, .xing, false, false, .notEntered, false, .notAttempted⟩

/-- The machine right after reset: every register at the value of 10_state.md R32. The buffer lists nothing (log 4);
the model's own fields are empty (DESIGN CHOICE, log 1, 2, 3). -/
def State.reset : State where
  status := Status.zero
  ctrl := ⟨.strict, false⟩
  bufLen := 0
  hdrIn := 0
  fsIn := ⟨0, 0, false⟩
  res := Results.zero
  op := 0
  bad := false
  buffer := []
  inputs := []
  reads := []
  draws := 0

end Sys2Proof.Machine
end

