-- ==== Sys2Proof/Machine/Flags.lean ====
section
/-! DEFINITION. The codes of the status fields and the packing of STATUS and HDR_FLAGS (10_state.md R12, R17;
60_exceptions.md R181; 43_scan_walk.md R145). -/

namespace Sys2Proof.Machine

/-- STATUS.RESULT, bits 7:4 (60_exceptions.md R181). -/
def ResultCode.code : ResultCode → BitVec 4
  | .none => 0
  | .ok => 1
  | .notFound => 2
  | .noCountStored => 3
  | .invalidHeader => 4
  | .degenerateSize => 5
  | .illegalCmd => 6
  | .noSync => 7

/-- STATUS.STOP, bits 15:14 (43_scan_walk.md R145). -/
def StopCause.code : StopCause → BitVec 2
  | .notEntered => 0
  | .invalidHeader => 1
  | .incompleteWindow => 2
  | .degenerateSize => 3

/-- STATUS.META, bits 18:17 (10_state.md R12). -/
def MetaOutcome.code : MetaOutcome → BitVec 2
  | .notAttempted => 0
  | .countRead => 1
  | .notFound => 2
  | .noCountStored => 3

/-- STATUS.MARK_ID, bits 11:10 (10_state.md R12; 30_encoding.md R68). -/
def Marker.code : Marker → BitVec 2
  | .xing => 0
  | .info => 1
  | .vbri => 2
  | .vbrii => 3

/-- One bit of a packed register. -/
def flagBit (b : Bool) : BitVec 1 := BitVec.ofBool b

/-- The 32-bit number a read of STATUS returns (10_state.md R12). -/
def Status.word (t : Status) : Word :=
  (0 : BitVec 13) ++ t.metaOut.code ++ flagBit t.haz ++ t.stop.code ++ flagBit t.trunc ++ flagBit t.src ++
    t.markId.code ++ flagBit t.markFound ++ flagBit t.syncFound ++ t.result.code ++ (0 : BitVec 2) ++
    flagBit t.done ++ flagBit t.busy

/-- The 32-bit number a read of HDR_FLAGS returns (10_state.md R17). -/
def HdrFlags.word (f : HdrFlags) : Word :=
  (0 : BitVec 23) ++ flagBit f.prot ++ f.brIdx ++ f.srIdx ++ flagBit f.pad ++ flagBit f.valid

/-- STATUS with every result field cleared: BUSY, DONE and HAZ stay (10_state.md R30). -/
def Status.cleared (t : Status) : Status :=
  { Status.zero with busy := t.busy, done := t.done, haz := t.haz }

end Sys2Proof.Machine
end

