-- ==== Sys2Proof/Machine/Constants.lean ====
section
/-! DEFINITION. The block's constants: tables, masks, marker strings, offsets (00_scope.md R5; 10_state.md R10, R26
to R28). They are not state: nothing reads them from or writes them to a register or memory. -/

namespace Sys2Proof.Machine

/-- BR_TABLE, kbps, 14 entries (10_state.md R27). -/
def brTable : List Nat := [32, 40, 48, 56, 64, 80, 96, 112, 128, 160, 192, 224, 256, 320]

/-- SR_TABLE, Hz, 3 entries (10_state.md R27). -/
def srTable : List Nat := [44100, 48000, 32000]

/-- FS_COEFF (00_scope.md R5; 41_frame_size.md R110). -/
def fsCoeff : Nat := 144000

/-- SYNC_MASK on the first 16 bits of a header (00_scope.md R5; 40_header_decode.md R91). -/
def syncMask : BitVec 16 := 0xFFE0

/-- WINDOW, the header window's length in bytes (00_scope.md R5). -/
def windowLen : Nat := 4

/-- FLAGS_OFF, the flags byte's offset from the marker's start (00_scope.md R5). -/
def flagsOff : Nat := 7

/-- COUNT_OFF, the count field's offset from the marker's start (00_scope.md R5). -/
def countOff : Nat := 8

/-- ID_VALUE, the constant contents of ID (10_state.md R26). -/
def idValue : Word := 0x46485441

/-- The bytes of a marker string (30_encoding.md R68). -/
def Marker.bytes : Marker → List Byte
  | .xing => [0x58, 0x69, 0x6E, 0x67]
  | .info => [0x49, 0x6E, 0x66, 0x6F]
  | .vbri => [0x56, 0x42, 0x52, 0x49]
  | .vbrii => [0x56, 0x42, 0x52, 0x49, 0x49]

/-- MARKERS, in priority order (10_state.md R28). -/
def markers : List Marker := [.xing, .info, .vbri, .vbrii]

/-- A register's byte offset in the window (10_state.md R10). -/
def Reg.offset : Reg → Nat
  | .cmd => 0x00
  | .status => 0x04
  | .ctrl => 0x08
  | .bufLen => 0x0C
  | .hdrIn => 0x10
  | .fsIn => 0x14
  | .hdrFlags => 0x18
  | .bitrate => 0x1C
  | .srate => 0x20
  | .fsize => 0x24
  | .cursor => 0x28
  | .syncPos => 0x2C
  | .hdrCount => 0x30
  | .count => 0x34
  | .markPos => 0x38
  | .id => 0x3C

/-- The registers in the order of their offsets (10_state.md R10). -/
def regs : List Reg :=
  [.cmd, .status, .ctrl, .bufLen, .hdrIn, .fsIn, .hdrFlags, .bitrate, .srate, .fsize, .cursor, .syncPos, .hdrCount,
    .count, .markPos, .id]

/-- The register at a byte offset of the window, if there is one (10_state.md R10; 20_memory.md R42, R48). -/
def Reg.at? (off : Nat) : Option Reg := regs.find? fun r => r.offset == off

/-- The nine result registers, whose read while BUSY = 1 is unspecified (20_memory.md R59). -/
def Reg.isResult : Reg → Bool
  | .hdrFlags | .bitrate | .srate | .fsize | .cursor | .syncPos | .hdrCount | .count | .markPos => true
  | .cmd | .status | .ctrl | .bufLen | .hdrIn | .fsIn | .id => false

/-- A register's address in the host's address space: REG_BASE is OPEN (20_memory.md R42; log 14). -/
def Reg.hostAddress (r : Reg) : Nat := Config.regBase + r.offset

end Sys2Proof.Machine
end

