-- ==== Sys2Proof/Machine/Operands.lean ====
section
/-! DEFINITION. The operand forms: the packings of CTRL, BUF_LEN and FS_IN, and the fields of a 4-byte header window
(10_state.md R13 to R16; 30_encoding.md R60, R65, R72). Every field is unsigned and used as it stands. -/

namespace Sys2Proof.Machine

/-- CTRL.SYNC_MODE as its bit (10_state.md R13). -/
def SyncMode.bit : SyncMode → BitVec 1
  | .strict => 0
  | .general => 1

/-- The 32-bit number a read of CTRL returns (10_state.md R13). -/
def Ctrl.word (c : Ctrl) : Word := (0 : BitVec 30) ++ BitVec.ofBool c.noMeta ++ c.syncMode.bit

/-- CTRL after a write of `v`: bits 31:2 are ignored (10_state.md R13, R33). -/
def Ctrl.ofWord (v : Word) : Ctrl where
  syncMode := if v.getLsbD 0 then .general else .strict
  noMeta := v.getLsbD 1

/-- The 32-bit number a read of BUF_LEN returns: bit 31 reads 0 (10_state.md R14). -/
def bufLenWord (n : BitVec 31) : Word := (0 : BitVec 1) ++ n

/-- BUF_LEN after a write of `v`: bit 31 is ignored (10_state.md R14). -/
def bufLenOfWord (v : Word) : BitVec 31 := v.extractLsb' 0 31

/-- The 32-bit number a read of FS_IN returns: bits 30:26 read 0 (10_state.md R16). -/
def FsIn.word (f : FsIn) : Word := BitVec.ofBool f.pad ++ (0 : BitVec 5) ++ f.brKbps ++ f.srHz

/-- FS_IN after a write of `v`: bits 30:26 are ignored (10_state.md R16). -/
def FsIn.ofWord (v : Word) : FsIn where
  srHz := v.extractLsb' 0 16
  brKbps := v.extractLsb' 16 10
  pad := v.getLsbD 31

/-- b0, the first byte of a window (40_header_decode.md R90; 10_state.md R15). -/
def windowB0 (w : Word) : Byte := w.extractLsb' 24 8

/-- b1, the second byte of a window. -/
def windowB1 (w : Word) : Byte := w.extractLsb' 16 8

/-- b2, the third byte of a window. -/
def windowB2 (w : Word) : Byte := w.extractLsb' 8 8

/-- BR_IDX = b2[7:4] (30_encoding.md R65). -/
def brIdx (w : Word) : BitVec 4 := (windowB2 w).extractLsb' 4 4

/-- SR_IDX = b2[3:2] (30_encoding.md R65). -/
def srIdx (w : Word) : BitVec 2 := (windowB2 w).extractLsb' 2 2

/-- PAD = b2[1] (30_encoding.md R65). -/
def padBit (w : Word) : Bool := (windowB2 w).getLsbD 1

/-- PROT = b1[0] (30_encoding.md R65). -/
def protBit (w : Word) : Bool := (windowB1 w).getLsbD 0

end Sys2Proof.Machine
end

