-- ==== Sys2Proof/Machine/Ops.lean ====
section
/-! DEFINITION. The shared operations: the buffer, the register window, command acceptance and completion, reset, and
the host's steps (20_memory.md; 60_exceptions.md R181; 70_reset_and_hazards.md R200). The block has no exception entry
and no return from one (60_exceptions.md R180, R186): `finish` with `complete` is what stands in their place. -/

namespace Sys2Proof.Machine

/-! ## The buffer -/

/-- What an unlisted buffer offset reads as. The spec leaves the contents open until the host writes them
(10_state.md R32; D27). DESIGN CHOICE 0x00 (log 4); unsafe. -/
def Memory.unlisted : Byte := 0x00

/-- The first offset that is no buffer offset: offsets are 31-bit (20_memory.md R41). -/
def bufSpace : Nat := 2 ^ 31

/-- Buf[a]: the byte at an offset. The entries before it are skipped, an entry after it ends the search. -/
def Memory.read : Memory → Nat → Byte
  | [], _ => Memory.unlisted
  | (k, v) :: rest, a => if a < k then Memory.unlisted else if a = k then v else Memory.read rest a

/-- The list with `b` at offset `a` before `rest`, unless that is what an unlisted offset reads as. -/
def Memory.cons (a : Nat) (b : Byte) (rest : Memory) : Memory :=
  if b = Memory.unlisted then rest else (a, b) :: rest

/-- A write of one byte from outside (20_memory.md R56), keeping the canonical form. -/
def Memory.write : Memory → Nat → Byte → Memory
  | [], a, b => Memory.cons a b []
  | (k, v) :: rest, a, b =>
    if a < k then Memory.cons a b ((k, v) :: rest)
    else if a = k then Memory.cons a b rest
    else (k, v) :: Memory.write rest a b

/-- The canonical form from offset `lo` up: rising offsets inside the space, no byte an unlisted offset reads as. -/
def Memory.wfFrom : Nat → Memory → Bool
  | _, [] => true
  | lo, (k, v) :: rest =>
    decide (lo ≤ k) && decide (k < bufSpace) && v != Memory.unlisted && Memory.wfFrom (k + 1) rest

/-- The canonical form of a buffer. -/
def Memory.wf (m : Memory) : Bool := Memory.wfFrom 0 m

/-- MemRead(a, 2): big-endian (00_scope.md R7; 20_memory.md R46). -/
def memRead2 (m : Memory) (a : Nat) : BitVec 16 := m.read a ++ m.read (a + 1)

/-- MemRead(a, 4): big-endian (00_scope.md R7; 20_memory.md R46). -/
def memRead4 (m : Memory) (a : Nat) : Word := m.read a ++ m.read (a + 1) ++ m.read (a + 2) ++ m.read (a + 3)

/-- The lowest of the `n` offsets from `i` up that satisfies `p`: the searches of 43_scan_walk.md R141 and
42_metadata_shortcut.md R120. -/
def firstOffset (p : Nat → Bool) : Nat → Nat → Option Nat
  | 0, _ => none
  | n + 1, i => if p i then some i else firstOffset p n (i + 1)

/-- BUF_LEN as a number of bytes (10_state.md R14). -/
def State.len (s : State) : Nat := s.bufLen.toNat

/-! ## Command acceptance and completion -/

/-- BAD: rsv is not 0, or op is 0, or op is 7 or more (20_memory.md R57; 30_encoding.md R71). -/
def badWord (w : Word) : Bool :=
  rsvField w != 0 || (opField w).toNat == 0 || decide (7 ≤ (opField w).toNat)

/-- Command acceptance, one indivisible step (20_memory.md R57): latch OP and BAD, clear every result register and
result field (10_state.md R30), DONE <- 0, BUSY <- 1. -/
def accept (w : Word) (s : State) : State :=
  { s with
    op := opField w
    bad := badWord w
    res := Results.zero
    status := { s.status.cleared with done := false, busy := true } }

/-- finish(code): STATUS.RESULT <- code (60_exceptions.md R181). -/
def finish (code : ResultCode) (s : State) : State :=
  { s with status := { s.status with result := code } }

/-- The end of command completion: BUSY <- 0, DONE <- 1 (20_memory.md R58). DESIGN CHOICE (log 21): the latches OP and
BAD keep their values, which mean nothing until the next acceptance writes them; unsafe. -/
def complete (s : State) : State :=
  { s with status := { s.status with busy := false, done := true } }

/-- The command the latches hold; none for an illegal one. OP is 1 to 6 whenever BAD = 0 was latched (log 6). -/
def latched (s : State) : Option Instr := if s.bad then none else decodeOp s.op

/-- Completion of an illegal command: RESULT and nothing else (30_encoding.md R71; 20_memory.md R58). -/
def completeIllegal (s : State) : State := complete (finish .illegalCmd s)

/-! ## The register window -/

/-- A register's current value as the 32-bit number HostRead returns (10_state.md R10 to R26). -/
def regValue (s : State) : Reg → Word
  | .cmd => 0
  | .status => s.status.word
  | .ctrl => s.ctrl.word
  | .bufLen => bufLenWord s.bufLen
  | .hdrIn => s.hdrIn
  | .fsIn => s.fsIn.word
  | .hdrFlags => s.res.hdrFlags.word
  | .bitrate => s.res.bitrate
  | .srate => s.res.srate
  | .fsize => s.res.fsize
  | .cursor => s.res.cursor
  | .syncPos => s.res.syncPos
  | .hdrCount => s.res.hdrCount
  | .count => s.res.count
  | .markPos => s.res.markPos
  | .id => idValue

/-- The answer to a host read joins what the host has read (DESIGN CHOICE, log 2). -/
def recordRead (r : Reg) (v : Word) (s : State) : State := { s with reads := s.reads ++ [⟨r, v⟩] }

/-- A fresh unspecified value: the free value Config.busyRead at the counter, which moves on (log 3). -/
def drawRead (r : Reg) (s : State) : State :=
  { recordRead r (Config.busyRead s.draws) s with draws := s.draws + 1 }

/-- HostRead of a register: its value, but an unspecified one for a result register while BUSY = 1
(20_memory.md R56, R59). -/
def readReg (r : Reg) (s : State) : State :=
  if s.status.busy && r.isResult then drawRead r s else recordRead r (regValue s r) s

/-- STATUS.HAZ <- 1 (20_memory.md R59). -/
def raiseHaz (s : State) : State := { s with status := { s.status with haz := true } }

/-- A write of STATUS while idle changes only HAZ: written bit 16 clears it (10_state.md R12). -/
def writeStatus (v : Word) (s : State) : State :=
  { s with status := { s.status with haz := s.status.haz && !v.getLsbD 16 } }

/-- HostWrite while BUSY = 0 (20_memory.md R56, R57; 10_state.md R12 to R16); a read-only register ignores it
(10_state.md R33). -/
def writeIdle (r : Reg) (v : Word) (s : State) : State :=
  match r with
  | .cmd => accept v s
  | .status => writeStatus v s
  | .ctrl => { s with ctrl := Ctrl.ofWord v }
  | .bufLen => { s with bufLen := bufLenOfWord v }
  | .hdrIn => { s with hdrIn := v }
  | .fsIn => { s with fsIn := FsIn.ofWord v }
  | .hdrFlags => s
  | .bitrate => s
  | .srate => s
  | .fsize => s
  | .cursor => s
  | .syncPos => s
  | .hdrCount => s
  | .count => s
  | .markPos => s
  | .id => s

/-- HostWrite of a register: while BUSY = 1 it is ignored and sets HAZ (20_memory.md R59). -/
def writeReg (r : Reg) (v : Word) (s : State) : State :=
  if s.status.busy then raiseHaz s else writeIdle r v s

/-- The register a host access reaches, or why the access is outside the spec (20_memory.md R42, R48; U5). Which of
several reasons is named first is the model's (DESIGN CHOICE, log 13). -/
def accessReg (off bits : Nat) : Except Refusal Reg :=
  if bits ≠ 32 then .error (.accessWidth bits)
  else if off % 4 ≠ 0 then .error (.accessMisaligned off)
  else
    match Reg.at? off with
    | some r => .ok r
    | none => .error (.accessOutsideWindow off)

/-- A host step HostRead(off) (20_memory.md R56). -/
def hostRead (off bits : Nat) (s : State) : Host.Outcome State Fault Refusal :=
  match accessReg off bits with
  | .ok r => .next (readReg r s)
  | .error e => .refused e

/-- A host step HostWrite(off, v) (20_memory.md R56). -/
def hostWrite (off bits : Nat) (v : Word) (s : State) : Host.Outcome State Fault Refusal :=
  match accessReg off bits with
  | .ok r => .next (writeReg r v s)
  | .error e => .refused e

/-- A write of one byte to a buffer offset (20_memory.md R56): refused below BUF_LEN while BUSY = 1 (R53, R204; log 5),
a fault outside the space of 31-bit offsets (R41; log 9). -/
def bufWrite (a : Nat) (b : Byte) (s : State) : Host.Outcome State Fault Refusal :=
  if a < bufSpace then
    if s.status.busy && decide (a < s.len) then .refused (.bufferWriteWhileBusy a)
    else .next { s with buffer := Memory.write s.buffer a b }
  else .fault (.bufferOffsetOutsideSpace a)

/-- Reset: every register at its reset value, the command in progress abandoned; the buffer is untouched
(70_reset_and_hazards.md R200), and so are the model's own fields (log 11). -/
def resetEvent (s : State) : State :=
  { State.reset with buffer := s.buffer, inputs := s.inputs, reads := s.reads, draws := s.draws }

end Sys2Proof.Machine
end

