-- ==== Sys2Proof/Machine/FrameSize.lean ====
section
/-! DEFINITION. The frame-size arithmetic and the FSIZE command (41_frame_size.md). -/

namespace Sys2Proof.Machine

/-- frame_size(br, sr, pad): multiply first, one floor division, then the padding; size 0 for a zero divisor
(41_frame_size.md R110). Exact natural numbers: nothing wraps (R114). -/
def frameSize (br sr : Nat) (pad : Bool) : Nat :=
  if sr = 0 then 0 else fsCoeff * br / sr + pad.toNat

/-- The size of the operands in FS_IN (41_frame_size.md R113). -/
def fsInSize (f : FsIn) : Nat := frameSize f.brKbps.toNat f.srHz.toNat f.pad

/-- FSIZE <- s (10_state.md R20). -/
def writeFsize (n : Nat) (s : State) : State := { s with res := { s.res with fsize := BitVec.ofNat 32 n } }

/-- FSIZE (41_frame_size.md R113). -/
def execFsize (s : State) : Host.Outcome State Fault Refusal :=
  let n := fsInSize s.fsIn
  .next (complete (finish (if n < 1 then .degenerateSize else .ok) (writeFsize n s)))

end Sys2Proof.Machine
end

