-- ==== Sys2Proof/Machine/Header.lean ====
section
/-! DEFINITION. The header validator and decoder and the DECODE command (40_header_decode.md). -/

namespace Sys2Proof.Machine

/-- The decoded header, a value and not state (10_state.md R34). -/
structure Header where
  bitRateKbps : BitVec 9
  samplingRateHz : BitVec 16
  padding : Bool
  deriving DecidableEq, Repr

/-- The sync check on the first 16 bits (40_header_decode.md R91). -/
def syncCheck (w : Word) : Bool := (windowB0 w ++ windowB1 w) &&& syncMask == syncMask

/-- The version and layer check: the second byte is 0xFB or 0xFA (40_header_decode.md R92). -/
def versionLayerCheck (w : Word) : Bool := windowB1 w == 0xFB || windowB1 w == 0xFA

/-- BR_TABLE[BR_IDX - 1]; none for the reserved indices 0 and 15 (40_header_decode.md R93). -/
def bitRate? (i : BitVec 4) : Option Nat :=
  if i = 0 ∨ i = 15 then none else brTable[i.toNat - 1]?

/-- SR_TABLE[SR_IDX]; none for the reserved index 3 (40_header_decode.md R94). -/
def samplingRate? (i : BitVec 2) : Option Nat :=
  if i = 3 then none else srTable[i.toNat]?

/-- decode_header(w), total on every window (40_header_decode.md R90). The fourth byte and b2[0] are not examined. -/
def decodeHeader (w : Word) : Option Header :=
  if !syncCheck w then none
  else if !versionLayerCheck w then none
  else
    match bitRate? (brIdx w), samplingRate? (srIdx w) with
    | some br, some sr => some ⟨BitVec.ofNat 9 br, BitVec.ofNat 16 sr, padBit w⟩
    | _, _ => none

/-- The frame size of a decoded header (30_encoding.md R69). -/
def Header.size (h : Header) : Nat := frameSize h.bitRateKbps.toNat h.samplingRateHz.toNat h.padding

/-- The three outcomes of header_step (40_header_decode.md R99). -/
inductive HeaderStep where
  | invalid
  | degenerate
  | valid (h : Header) (size : Nat)
  deriving DecidableEq, Repr

/-- header_step(w): the decoder, the frame-size unit and the positivity guard (40_header_decode.md R99;
41_frame_size.md R112). -/
def headerStep (w : Word) : HeaderStep :=
  match decodeHeader w with
  | none => .invalid
  | some h => if h.size < 1 then .degenerate else .valid h h.size

/-- HDR_FLAGS of a valid window (40_header_decode.md R98; 10_state.md R17). -/
def headerFlags (w : Word) : HdrFlags := ⟨true, padBit w, srIdx w, brIdx w, protBit w⟩

/-- The registers DECODE writes for a valid header (40_header_decode.md R98). -/
def writeHeader (w : Word) (h : Header) (size : Nat) (s : State) : State :=
  { s with
    res :=
      { s.res with
        hdrFlags := headerFlags w
        bitrate := h.bitRateKbps.setWidth 32
        srate := h.samplingRateHz.setWidth 32
        fsize := BitVec.ofNat 32 size } }

/-- DECODE (40_header_decode.md R98). -/
def execDecode (s : State) : Host.Outcome State Fault Refusal :=
  match headerStep s.hdrIn with
  | .valid h size => .next (complete (finish .ok (writeHeader s.hdrIn h size s)))
  | .invalid => .next (complete (finish .invalidHeader s))
  | .degenerate => .next (complete (finish .degenerateSize s))

end Sys2Proof.Machine
end

