-- ==== Sys2Proof/Machine/Metadata.lean ====
section
/-! DEFINITION. The metadata shortcut and the STORED command (42_metadata_shortcut.md). -/

namespace Sys2Proof.Machine

/-- The bytes from offset `p` on are the given ones (42_metadata_shortcut.md R120). -/
def bytesAt (m : Memory) (p : Nat) : List Byte → Bool
  | [] => true
  | b :: rest => m.read p == b && bytesAt m (p + 1) rest

/-- A marker occurs at offset `p`: the bound is checked before any byte (42_metadata_shortcut.md R120). -/
def occurs (m : Memory) (len : Nat) (k : Marker) (p : Nat) : Bool :=
  decide (p + k.bytes.length ≤ len) && bytesAt m p k.bytes

/-- first(m): the lowest offset at which a marker occurs (42_metadata_shortcut.md R120). -/
def firstMarker (m : Memory) (len : Nat) (k : Marker) : Option Nat :=
  firstOffset (occurs m len k) (len + 1 - k.bytes.length) 0

/-- The search marker by marker, over the markers given (42_metadata_shortcut.md R121; D10). -/
def findMarkerIn (m : Memory) (len : Nat) : List Marker → Option (Marker × Nat)
  | [] => none
  | k :: rest =>
    match firstMarker m len k with
    | some p => some (k, p)
    | none => findMarkerIn m len rest

/-- find_marker() (42_metadata_shortcut.md R121). -/
def findMarker (m : Memory) (len : Nat) : Option (Marker × Nat) := findMarkerIn m len markers

/-- The outcomes of stored_frame_count, with the winning marker and its offset (42_metadata_shortcut.md R124). -/
inductive StoredOutcome where
  | ok (k : Marker) (p : Nat) (count : Word)
  | noCountStored (k : Marker) (p : Nat) (trunc : Bool)
  | notFound
  deriving DecidableEq, Repr

/-- The record of the marker `k` at `p`: the flags byte's bound, its bit 0, then the count field's bound
(42_metadata_shortcut.md R123 to R126). -/
def readRecord (m : Memory) (len : Nat) (k : Marker) (p : Nat) : StoredOutcome :=
  if len ≤ p + flagsOff then .noCountStored k p true
  else if !(m.read (p + flagsOff)).getLsbD 0 then .noCountStored k p false
  else if len < p + countOff + 4 then .noCountStored k p true
  else .ok k p (memRead4 m (p + countOff))

/-- stored_frame_count() (42_metadata_shortcut.md R124). Only the winning marker is examined. -/
def storedFrameCount (m : Memory) (len : Nat) : StoredOutcome :=
  match findMarker m len with
  | none => .notFound
  | some (k, p) => readRecord m len k p

/-- MARK_FOUND, MARK_ID, MARK_POS, TRUNC for a marker found (42_metadata_shortcut.md R124). -/
def writeMark (k : Marker) (p : Nat) (trunc : Bool) (s : State) : State :=
  { s with
    res := { s.res with markPos := BitVec.ofNat 32 p }
    status := { s.status with markFound := true, markId := k, trunc := trunc } }

/-- META (10_state.md R12). -/
def writeMeta (o : MetaOutcome) (s : State) : State := { s with status := { s.status with metaOut := o } }

/-- SRC: true when COUNT was read from metadata (10_state.md R12). -/
def writeSrc (b : Bool) (s : State) : State := { s with status := { s.status with src := b } }

/-- COUNT (10_state.md R24). -/
def writeCount (c : Word) (s : State) : State := { s with res := { s.res with count := c } }

/-- What an attempt of the shortcut writes, COUNT and SRC apart (42_metadata_shortcut.md R124, R127;
44_two_tier.md R170): the marker fields and META. -/
def writeStored (o : StoredOutcome) (s : State) : State :=
  match o with
  | .ok k p _ => writeMeta .countRead (writeMark k p false s)
  | .noCountStored k p trunc => writeMeta .noCountStored (writeMark k p trunc s)
  | .notFound => writeMeta .notFound s

/-- STORED (42_metadata_shortcut.md R127). CTRL is not read. -/
def execStored (s : State) : Host.Outcome State Fault Refusal :=
  let o := storedFrameCount s.buffer s.len
  let t := writeStored o s
  match o with
  | .ok _ _ c => .next (complete (finish .ok (writeSrc true (writeCount c t))))
  | .noCountStored _ _ _ => .next (complete (finish .noCountStored t))
  | .notFound => .next (complete (finish .notFound t))

end Sys2Proof.Machine
end

