-- ==== Sys2Proof/Machine/Scan.lean ====
section
/-! DEFINITION. The sync search, the manual walk, and the SEEK and WALK commands (43_scan_walk.md). -/

namespace Sys2Proof.Machine

/-- is_sync(i), in the form CTRL.SYNC_MODE selects (43_scan_walk.md R140). -/
def isSync (mode : SyncMode) (m : Memory) (i : Nat) : Bool :=
  match mode with
  | .strict => m.read i == 0xFF && m.read (i + 1) == 0xFB
  | .general => m.read i == 0xFF && m.read (i + 1) &&& 0xE0 == 0xE0

/-- seek(): the lowest i with i + 1 < BUF_LEN and is_sync(i) (43_scan_walk.md R141). -/
def seek (mode : SyncMode) (m : Memory) (len : Nat) : Option Nat := firstOffset (isSync mode m) (len - 1) 0

/-- What one iteration of the walk does (43_scan_walk.md R143). -/
inductive WalkStep where
  | stop (cause : StopCause)
  | advance (size : Nat)
  deriving DecidableEq, Repr

/-- walk_step() at cursor `c`: window bound, then header validity, then size positivity (43_scan_walk.md R143). -/
def walkStep (m : Memory) (len c : Nat) : WalkStep :=
  if len < c + windowLen then .stop .incompleteWindow
  else
    match headerStep (memRead4 m c) with
    | .invalid => .stop .invalidHeader
    | .degenerate => .stop .degenerateSize
    | .valid _ size => .advance size

/-- Where a walk ended: CURSOR, HDR_COUNT and STOP (43_scan_walk.md R144). -/
structure WalkEnd where
  cursor : Nat
  headers : Nat
  stop : StopCause
  deriving DecidableEq, Repr

/-- walk: repeat walk_step until it stops (43_scan_walk.md R144), for at most `fuel` iterations. BUF_LEN + 1 of them
are always enough (R153), so the last line is never reached from countFrames (log 18). -/
def walk (m : Memory) (len : Nat) : Nat → Nat → Nat → WalkEnd
  | 0, c, n => ⟨c, n, .incompleteWindow⟩
  | fuel + 1, c, n =>
    match walkStep m len c with
    | .stop cause => ⟨c, n, cause⟩
    | .advance size => walk m len fuel (c + size) (n + 1)

/-- max(n - 1, 0) (43_scan_walk.md R149): subtraction on natural numbers stops at 0. -/
def frameCount (n : Nat) : Nat := n - 1

/-- SYNC_FOUND and SYNC_POS for a candidate found (43_scan_walk.md R142, R150). -/
def writeSync (i : Nat) (s : State) : State :=
  { s with
    res := { s.res with syncPos := BitVec.ofNat 32 i }
    status := { s.status with syncFound := true } }

/-- CURSOR (10_state.md R22). -/
def writeCursor (c : Nat) (s : State) : State := { s with res := { s.res with cursor := BitVec.ofNat 32 c } }

/-- CURSOR, HDR_COUNT and STOP at the end of a walk (43_scan_walk.md R144). -/
def writeWalkEnd (e : WalkEnd) (s : State) : State :=
  { s with
    res := { s.res with cursor := BitVec.ofNat 32 e.cursor, hdrCount := BitVec.ofNat 32 e.headers }
    status := { s.status with stop := e.stop } }

/-- count_frames(): the registers it writes and the count it returns (43_scan_walk.md R150). -/
def countFrames (s : State) : State × Nat :=
  match seek s.ctrl.syncMode s.buffer s.len with
  | none => (s, frameCount 0)
  | some i =>
    let e := walk s.buffer s.len (s.len + 1) i 0
    (writeWalkEnd e (writeSync i s), frameCount e.headers)

/-- SEEK (43_scan_walk.md R142). -/
def execSeek (s : State) : Host.Outcome State Fault Refusal :=
  match seek s.ctrl.syncMode s.buffer s.len with
  | some i => .next (complete (finish .ok (writeCursor i (writeSync i s))))
  | none => .next (complete (finish .noSync s))

/-- WALK (43_scan_walk.md R151). It never fails. -/
def execWalk (s : State) : Host.Outcome State Fault Refusal :=
  let r := countFrames s
  .next (complete (finish .ok (writeCount (BitVec.ofNat 32 r.2) r.1)))

end Sys2Proof.Machine
end

