-- ==== Sys2Proof/Machine/TwoTier.lean ====
section
/-! DEFINITION. The two-tier frame count and the AUTO command (44_two_tier.md). -/

namespace Sys2Proof.Machine

/-- The walk path: SRC <- 0, then count_frames() (44_two_tier.md R170). -/
def walkPath (s : State) : State × Word :=
  let r := countFrames (writeSrc false s)
  (r.1, BitVec.ofNat 32 r.2)

/-- frame_count_two_tier(): the shortcut unless NO_META, the walk on any failure of it (44_two_tier.md R170). -/
def frameCountTwoTier (s : State) : State × Word :=
  if s.ctrl.noMeta then walkPath s
  else
    let o := storedFrameCount s.buffer s.len
    let t := writeStored o s
    match o with
    | .ok _ _ c => (writeSrc true t, c)
    | .noCountStored _ _ _ => walkPath t
    | .notFound => walkPath t

/-- AUTO (44_two_tier.md R171). It never fails. -/
def execAuto (s : State) : Host.Outcome State Fault Refusal :=
  let r := frameCountTwoTier s
  .next (complete (finish .ok (writeCount r.2 r.1)))

end Sys2Proof.Machine
end

