-- ==== Sys2Proof/Machine/Dispatch.lean ====
section
/-! DEFINITION. One arm per command (20_memory.md R58). -/

namespace Sys2Proof.Machine

def exec (i : Instr) (s : State) : Host.Outcome State Fault Refusal :=
  match i with
  | .decode => Sys2Proof.Machine.execDecode s
  | .fsize => Sys2Proof.Machine.execFsize s
  | .seek => Sys2Proof.Machine.execSeek s
  | .walk => Sys2Proof.Machine.execWalk s
  | .stored => Sys2Proof.Machine.execStored s
  | .auto => Sys2Proof.Machine.execAuto s

end Sys2Proof.Machine
end

