-- ==== Sys2Proof/Machine/Step.lean ====
section
/-! DEFINITION. One step of the machine: the next input, or the block's own step when nothing is left to come in
(20_memory.md R56 to R58; DESIGN CHOICE of the schedule as data, log 1). -/

namespace Sys2Proof.Machine

/-- The block's only step, enabled exactly when BUSY = 1: it performs the whole command (20_memory.md R58). -/
def blockStep (s : State) : Host.Outcome State Fault Refusal :=
  match latched s with
  | some i => exec i s
  | none => .next (completeIllegal s)

/-- A turn of the block: an idle block holds its registers (60_exceptions.md R188). -/
def blockTurn (s : State) : Host.Outcome State Fault Refusal :=
  if s.status.busy then blockStep s else .next s

/-- One step: the oldest input is taken and acted on; with none left, the block has the turn, so that a busy block
always completes (20_memory.md R58, weak fairness). -/
def step (s : State) : Host.Outcome State Fault Refusal :=
  match s.inputs with
  | [] => blockTurn s
  | .hostRead off bits :: rest => hostRead off bits { s with inputs := rest }
  | .hostWrite off bits v :: rest => hostWrite off bits v { s with inputs := rest }
  | .bufWrite a b :: rest => bufWrite a b { s with inputs := rest }
  | .block :: rest => blockTurn { s with inputs := rest }
  | .reset :: rest => .next (resetEvent { s with inputs := rest })
  | .resetWithAccess :: _ => .refused .resetCoincidesWithAccess

/-- `s` with the command word `w` accepted (20_memory.md R57) and the block's turn next, so that the very next step
performs that command: the block fetches nothing, and a command reaches it by a write of CMD (log 7). -/
def State.withFetchWord (s : State) (nbits w : Nat) : State :=
  { accept (BitVec.ofNat 32 (w % 2 ^ min nbits 32)) s with inputs := .block :: s.inputs }

end Sys2Proof.Machine
end

