-- ==== Sys2Proof/Machine/Fine.lean ====
section
/-! DEFINITION. The split machine of 43_scan_walk.md R154: a command of the scanner as finer block steps, one per offset
examined by seek() or first(m), one per walk_step, and a final one that computes COUNT, calls finish and clears BUSY. The
normative machine is the atomic one of Step.lean (20_memory.md R58; D26), which uses nothing of this file; the statements
say that a host cannot tell the two apart (log 15, log 22). -/

namespace Sys2Proof.Machine

/-- Where the final step takes COUNT from. -/
inductive CountSource where
  /-- The command writes no COUNT. -/
  | none
  /-- max(n - 1, 0) of the headers counted (43_scan_walk.md R149). -/
  | headers (n : Nat)
  /-- The count field of the marker at `p` (42_metadata_shortcut.md R124, R126). -/
  | field (p : Nat)
  deriving DecidableEq, Repr

/-- Where a command in progress stands: the search index of 10_state.md R29 (c), or the pair of 43_scan_walk.md R143. The
window scratch of R29 (b) is local to one walk_step. -/
inductive Fine where
  /-- find_marker examines offset `p` next, for the first of the markers left (42_metadata_shortcut.md R120, R121). -/
  | marker (left : List Marker) (p : Nat)
  /-- seek() examines offset `j` next (43_scan_walk.md R141). -/
  | sync (j : Nat)
  /-- The walk at CURSOR = `c` with HDR_COUNT = `n` (43_scan_walk.md R143). -/
  | walk (c n : Nat)
  /-- The final step is next (43_scan_walk.md R154). -/
  | last (code : ResultCode) (count : CountSource)
  /-- The whole command is one step: DECODE and FSIZE, which R154 does not split. -/
  | whole
  /-- The command has completed. -/
  | done
  deriving DecidableEq, Repr

/-! ## The steps of one command, on its working copy of STATUS and the result registers -/

/-- CURSOR and HDR_COUNT (43_scan_walk.md R143). -/
def writePair (c n : Nat) (s : State) : State :=
  { s with res := { s.res with cursor := BitVec.ofNat 32 c, hdrCount := BitVec.ofNat 32 n } }

/-- STATUS.STOP (43_scan_walk.md R145). -/
def writeStop (cause : StopCause) (s : State) : State := { s with status := { s.status with stop := cause } }

/-- COUNT from its source (43_scan_walk.md R149; 42_metadata_shortcut.md R124). -/
def CountSource.write (source : CountSource) (s : State) : State :=
  match source with
  | .none => s
  | .headers n => writeCount (BitVec.ofNat 32 (frameCount n)) s
  | .field p => writeCount (memRead4 s.buffer (p + countOff)) s

/-- seek() from offset `j`: no step is taken where no offset is left to examine (43_scan_walk.md R141, R142, R150). -/
def syncFrom (i : Instr) (j : Nat) (s : State) : State × Fine :=
  if j + 1 < s.len then (s, .sync j)
  else if i = .seek then (s, .last .noSync .none)
  else (s, .last .ok (.headers 0))

/-- The walk path (44_two_tier.md R170): SRC <- 0, then the search for the first candidate. -/
def fineWalkPath (i : Instr) (s : State) : State × Fine := syncFrom i 0 (writeSrc false s)

/-- What follows an attempt of the shortcut: STORED ends with it, AUTO walks on a failure (42_metadata_shortcut.md R127;
44_two_tier.md R170). -/
def fineStored (i : Instr) (o : StoredOutcome) (s : State) : State × Fine :=
  let t := writeStored o s
  match o with
  | .ok _ p _ => (writeSrc true t, .last .ok (.field p))
  | .noCountStored _ _ _ => if i = .auto then fineWalkPath i t else (t, .last .noCountStored .none)
  | .notFound => if i = .auto then fineWalkPath i t else (t, .last .notFound .none)

/-- find_marker from the start of the buffer with these markers left: no step is taken for a marker that no offset has
room for (42_metadata_shortcut.md R120, R121). -/
def markersFrom (i : Instr) (s : State) : List Marker → State × Fine
  | [] => fineStored i .notFound s
  | k :: left => if k.bytes.length ≤ s.len then (s, .marker (k :: left) 0) else markersFrom i s left

/-- Where a command starts. -/
def fineStart (i : Instr) (s : State) : State × Fine :=
  match i with
  | .decode => (s, .whole)
  | .fsize => (s, .whole)
  | .seek => syncFrom .seek 0 s
  | .walk => syncFrom .walk 0 s
  | .stored => markersFrom .stored s markers
  | .auto => if s.ctrl.noMeta then fineWalkPath .auto s else markersFrom .auto s markers

/-- One finer step (43_scan_walk.md R154). -/
def fineStep (i : Instr) (s : State) : Fine → State × Fine
  | .marker [] _ => fineStored i .notFound s
  | .marker (k :: left) p =>
    if occurs s.buffer s.len k p then fineStored i (readRecord s.buffer s.len k p) s
    else if p + 1 + k.bytes.length ≤ s.len then (s, .marker (k :: left) (p + 1))
    else markersFrom i s left
  | .sync j =>
    if decide (j + 1 < s.len) && isSync s.ctrl.syncMode s.buffer j then
      if i = .seek then (writeCursor j (writeSync j s), .last .ok .none)
      else (writePair j 0 (writeSync j s), .walk j 0)
    else syncFrom i (j + 1) s
  | .walk c n =>
    match walkStep s.buffer s.len c with
    | .stop cause => (writeStop cause s, .last .ok (.headers n))
    | .advance size => (writePair (c + size) (n + 1) s, .walk (c + size) (n + 1))
  | .last code source => (complete (finish code (source.write s)), .done)
  | .whole =>
    match exec i s with
    | .next t => (t, .done)
    | .fault _ => (s, .whole)
    | .refused _ => (s, .whole)
  | .done => (s, .done)

/-- `k` finer steps with nothing in between. -/
def fineRun (i : Instr) : Nat → State × Fine → State × Fine
  | 0, x => x
  | k + 1, x => fineRun i k (fineStep i x.1 x.2)

/-! ## The split machine: the host's steps between the finer ones -/

/-- A command in progress: its working copy of STATUS and the result registers, which no host access reaches, and where it
stands. STATUS itself keeps its result fields at 0 while BUSY = 1 (20_memory.md R59; log 22). -/
structure Job where
  status : Status
  res : Results
  stage : Fine
  deriving DecidableEq, Repr

/-- The split machine: the block as the host sees it, and the command in progress, which is none while the block is idle
or has not begun the command. -/
structure Split where
  host : State
  job : Option Job
  deriving DecidableEq, Repr

/-- The state the finer step works on: the working copy in place of STATUS, but for HAZ, which the host's writes set, and
of the result registers. -/
def Job.on (j : Job) (s : State) : State := { s with status := { j.status with haz := s.status.haz }, res := j.res }

/-- What a finer step leaves of a state: its working copy and where the command stands. -/
def Job.of (x : State × Fine) : Job := ⟨x.1.status, x.1.res, x.2⟩

/-- The state and stage a command in progress goes on from; a command not begun starts here. -/
def Split.work (i : Instr) (p : Split) : State × Fine :=
  match p.job with
  | none => fineStart i p.host
  | some j => (j.on p.host, j.stage)

/-- A turn of the split block: one finer step. The final one, and it alone, changes what the host sees. -/
def splitTurn (p : Split) : Split :=
  if p.host.status.busy then
    match latched p.host with
    | none => ⟨completeIllegal p.host, none⟩
    | some i =>
      let x := fineStep i (p.work i).1 (p.work i).2
      if x.2 = .done then ⟨x.1, none⟩ else ⟨p.host, some (Job.of x)⟩
  else ⟨p.host, none⟩

/-- A step of the host or the platform: the atomic machine's own, beside the command in progress, which a reset
abandons (20_memory.md R56, R59; 70_reset_and_hazards.md R200). -/
def splitHost (p : Split) : Host.Outcome Split Fault Refusal :=
  match step p.host with
  | .next t => .next ⟨t, if t.status.busy && p.host.status.busy then p.job else none⟩
  | .fault e => .fault e
  | .refused e => .refused e

/-- One step of the split machine; the inputs are those of the atomic one, with a turn for each finer step (log 1). -/
def splitStep (p : Split) : Host.Outcome Split Fault Refusal :=
  match p.host.inputs with
  | [] => .next (splitTurn p)
  | .block :: rest => .next (splitTurn { p with host := { p.host with inputs := rest } })
  | .hostRead _ _ :: _ => splitHost p
  | .hostWrite _ _ _ :: _ => splitHost p
  | .bufWrite _ _ :: _ => splitHost p
  | .reset :: _ => splitHost p
  | .resetWithAccess :: _ => splitHost p

/-- The split machine, in the form of Host/Core.lean, so that a run of it is a run. -/
def splitCore : Host.Core :=
  { State := Split, Fault := Fault, Refusal := Refusal, step := splitStep, reset := ⟨State.reset, none⟩ }

/-- The inputs without the block's turns: what the host and the platform do. -/
def withoutTurns (inputs : List Input) : List Input := inputs.filter fun x => decide (x ≠ .block)

end Sys2Proof.Machine
end

