-- ==== Sys2Proof/Machine/Script.lean ====
section
/-! DEFINITION. The host-script notation: each line as the inputs it stands for (30_encoding.md R73). -/

namespace Sys2Proof.Machine

/-- A line of a host script (30_encoding.md R73); comments are not kept. -/
inductive ScriptLine where
  /-- BUF a: xx xx ... -/
  | buf (a : Nat) (bytes : List Byte)
  /-- BUF a: xx * k. -/
  | bufFill (a : Nat) (b : Byte) (k : Nat)
  /-- WR REG, v. -/
  | wr (r : Reg) (v : Word)
  /-- CMD MNEMONIC. -/
  | cmd (i : Instr)
  /-- WAIT, with the number of its reads of STATUS that still see BUSY = 1 (DESIGN CHOICE, log 19). -/
  | wait (polls : Nat)
  /-- RD REG. -/
  | rd (r : Reg)
  deriving DecidableEq, Repr

/-- One 32-bit read of a register. -/
def rdInput (r : Reg) : Input := .hostRead r.offset 32

/-- One 32-bit write of a register. -/
def wrInput (r : Reg) (v : Word) : Input := .hostWrite r.offset 32 v

/-- Writes of the listed bytes at `a`, `a + 1`, ... -/
def bufInputs : Nat → List Byte → List Input
  | _, [] => []
  | a, b :: rest => .bufWrite a b :: bufInputs (a + 1) rest

/-- The expansion of a line (30_encoding.md R73): CMD is WR CMD, op; WAIT repeats RD STATUS until bit 0 reads 0. -/
def ScriptLine.inputs : ScriptLine → List Input
  | .buf a bytes => bufInputs a bytes
  | .bufFill a b k => bufInputs a (List.replicate k b)
  | .wr r v => [wrInput r v]
  | .cmd i => [wrInput .cmd (encode i)]
  | .wait polls => List.replicate polls (rdInput .status) ++ [.block, rdInput .status]
  | .rd r => [rdInput r]

/-- The inputs of a whole script, in order. -/
def scriptInputs (lines : List ScriptLine) : List Input := lines.flatMap ScriptLine.inputs

end Sys2Proof.Machine
end

