-- ==== Sys2Proof/WellFormed.lean ====
section
/-! DEFINITION. Well-formedness. A command is an opcode and nothing else (30_encoding.md R70), so what can be ill
formed is a command WORD (R71), a host access (20_memory.md R48) or a buffer offset (20_memory.md R41). -/

namespace Sys2Proof

/-- A command's word has the one format C: an opcode from 1 to 6 and 28 zero bits (30_encoding.md R70, R71). -/
def wordWellFormed (w : Word) : Bool :=
  rsvField w == 0 && decide (1 ≤ (opField w).toNat) && decide ((opField w).toNat ≤ 6)

/-- A command is well formed when its word is (it has no operand to check: operands are in registers). -/
def Instr.wellFormed (i : Instr) : Bool := wordWellFormed (encode i)

/-- HostRead and HostWrite are defined for 32-bit accesses at the multiples of 4 from 0x00 to 0x3C
(20_memory.md R48; the launch premise LP_WORD_ACCESS of 70_reset_and_hazards.md R201). -/
def accessWellFormed (off bits : Nat) : Bool := bits == 32 && off % 4 == 0 && decide (off < 0x40)

/-- Buffer offsets are 31-bit (20_memory.md R41; 10_state.md R14). -/
def bufOffsetWellFormed (a : Nat) : Bool := decide (a < 2 ^ 31)

/-- The inputs the spec gives a meaning in every state, the busy buffer write apart (20_memory.md R48, R53;
93_implementation_defined.md U10). -/
def Machine.Input.wellFormed : Machine.Input → Bool
  | .hostRead off bits => accessWellFormed off bits
  | .hostWrite off bits _ => accessWellFormed off bits
  | .bufWrite a _ => bufOffsetWellFormed a
  | .block => true
  | .reset => true
  | .resetWithAccess => false

end Sys2Proof
end

