-- ==== Sys2Proof/Safety.lean ====
section
/-! DEFINITION. The terms claims are stated in: the launch premises of 70_reset_and_hazards.md R201, the steps the
spec gives a meaning, the spec's conditions in the words of its rules, and the machine's invariant. -/

namespace Sys2Proof.Machine

/-! ## Launch premises (70_reset_and_hazards.md R201) -/

/-- LP_IDLE_AT_ISSUE: the CMD write is made while BUSY = 0. -/
def LP_IDLE_AT_ISSUE (s : State) : Prop := s.status.busy = false

/-- LP_WORD_ACCESS: every access among the inputs is a 32-bit access at an offset of the window. -/
def LP_WORD_ACCESS (inputs : List Input) : Prop :=
  ∀ off bits, (Input.hostRead off bits ∈ inputs ∨ ∃ v, Input.hostWrite off bits v ∈ inputs) →
    accessWellFormed off bits = true

/-- LP_BUFFER_STABLE: no byte below `len` is written by these inputs. -/
def LP_BUFFER_STABLE (len : Nat) (inputs : List Input) : Prop :=
  ∀ a b, Input.bufWrite a b ∈ inputs → len ≤ a

/-- LP_BUFFER_GIVEN: two states give the same byte at every offset below BUF_LEN (D27). -/
def LP_BUFFER_GIVEN (s t : State) : Prop :=
  s.bufLen = t.bufLen ∧ ∀ a, a < s.len → s.buffer.read a = t.buffer.read a

/-- LP_FAIR_COMPLETION for a list of inputs: the block gets a turn among them. With no input left at all it needs no
premise, because a busy block then takes its step (log 1). -/
def LP_FAIR_COMPLETION (inputs : List Input) : Prop := Input.block ∈ inputs

/-- What R201 leaves unsaid of the inputs of a run: none abandons the command (70_reset_and_hazards.md R200), and a byte
is written to offsets that exist only (20_memory.md R41; log 9). -/
def Undisturbed (inputs : List Input) : Prop :=
  Input.reset ∉ inputs ∧ Input.resetWithAccess ∉ inputs ∧ ∀ a b, Input.bufWrite a b ∈ inputs → a < 2 ^ 31

/-- The launch of a command, as the claims about whole runs share it: its CMD write is the oldest input, `ins` are the
inputs from there to its completion, which hold the block's turn, and `rest` is what comes later. LP_BUFFER_GIVEN
compares two launches and stands in sameOperands. -/
structure Launch (i : Instr) (s : State) (ins rest : List Input) : Prop where
  /-- The buffer is in canonical form, as every step keeps it (log 4). -/
  canonical : s.buffer.wf = true
  idle : LP_IDLE_AT_ISSUE s
  issue : s.inputs = .hostWrite 0x00 32 (encode i) :: (ins ++ rest)
  word : LP_WORD_ACCESS ins
  stable : LP_BUFFER_STABLE s.len ins
  undisturbed : Undisturbed ins
  fair : LP_FAIR_COMPLETION ins

/-- The run of the command whose CMD write is the oldest input of `s` ends in `t`: the first state after acceptance in
which BUSY = 0 (70_reset_and_hazards.md R203). -/
def RunEnds (s t : State) : Prop :=
  ∃ j, Host.Core.run core (j + 1) s = .next t ∧ t.status.busy = false ∧
    ∀ k, k < j → ∃ u, Host.Core.run core (k + 1) s = .next u ∧ u.status.busy = true

/-- An input that may arrive while a command is in progress without breaking a premise: a 32-bit register access, or a
byte written at or above BUF_LEN (20_memory.md R59; 70_reset_and_hazards.md R204). It is the check for the premises above
on inputs without a turn of the block (harmless_iff of Laws/Premises.lean). -/
def Input.harmless (len : Nat) : Input → Bool
  | .hostRead off bits => accessWellFormed off bits
  | .hostWrite off bits _ => accessWellFormed off bits
  | .bufWrite a _ => bufOffsetWellFormed a && decide (len ≤ a)
  | .block => false
  | .reset => false
  | .resetWithAccess => false

/-- The step the spec gives a meaning: a well-formed input, and no buffer write below BUF_LEN while BUSY = 1
(20_memory.md R48, R53; U10). -/
def State.safeStep (s : State) : Bool :=
  match s.inputs with
  | [] => true
  | .bufWrite a b :: _ => (Input.bufWrite a b).wellFormed && !(s.status.busy && decide (a < s.len))
  | i :: _ => i.wellFormed

/-! ## The spec's own conditions, in the words of statements -/

/-- The command step's end as a state: the given status and result registers, BUSY = 0 and DONE = 1; everything else
as it was (20_memory.md R58; 60_exceptions.md R185). That OP and BAD are as they were is the model's choice (log 21). -/
def State.ended (s : State) (t : Status) (r : Results) : State :=
  { s with status := { t with busy := false, done := true }, res := r }

/-- Offset `i` satisfies the first-sync predicate and both its bytes are in bounds (43_scan_walk.md R140). -/
def SyncAt (s : State) (i : Nat) : Prop :=
  i + 1 < s.len ∧ s.buffer.read i = 0xFF ∧
    (s.ctrl.syncMode = .strict → s.buffer.read (i + 1) = 0xFB) ∧
    (s.ctrl.syncMode = .general → s.buffer.read (i + 1) &&& 0xE0 = 0xE0)

/-- `i` is the first candidate sync position (43_scan_walk.md R141). -/
def FirstSync (s : State) (i : Nat) : Prop := SyncAt s i ∧ ∀ j, j < i → ¬SyncAt s j

/-- A marker occurs at `p`: the whole string is in bounds and every byte matches (42_metadata_shortcut.md R120). -/
def OccursAt (s : State) (k : Marker) (p : Nat) : Prop :=
  p + k.bytes.length ≤ s.len ∧ ∀ j, j < k.bytes.length → k.bytes[j]? = some (s.buffer.read (p + j))

/-- The marker `k` at `p` wins: its first occurrence, and no marker of higher priority occurs anywhere
(42_metadata_shortcut.md R121). -/
def WinningMarker (s : State) (k : Marker) (p : Nat) : Prop :=
  OccursAt s k p ∧ (∀ q, q < p → ¬OccursAt s k q) ∧ ∀ l q, l.code < k.code → ¬OccursAt s l q

/-- The walk of 43_scan_walk.md R144 from cursor `c` with `n` headers counted ends in the given end: each iteration is
one walk_step of R143, in its order of tests, with no bound on the number of iterations. -/
inductive WalkRun (m : Memory) (len : Nat) : Nat → Nat → WalkEnd → Prop where
  | incomplete (c n : Nat) (h : len < c + 4) : WalkRun m len c n ⟨c, n, .incompleteWindow⟩
  | invalid (c n : Nat) (h : c + 4 ≤ len) (hd : decodeHeader (memRead4 m c) = none) :
      WalkRun m len c n ⟨c, n, .invalidHeader⟩
  | degenerate (c n : Nat) (hdr : Header) (h : c + 4 ≤ len) (hd : decodeHeader (memRead4 m c) = some hdr)
      (hs : hdr.size = 0) : WalkRun m len c n ⟨c, n, .degenerateSize⟩
  | advance (c n : Nat) (hdr : Header) (e : WalkEnd) (h : c + 4 ≤ len)
      (hd : decodeHeader (memRead4 m c) = some hdr) (hs : 0 < hdr.size)
      (rest : WalkRun m len (c + hdr.size) (n + 1) e) : WalkRun m len c n e

/-- The operands a command reads agree in two states: the column "operands read" of 30_encoding.md R70. Of the buffer
only the bytes below BUF_LEN count (20_memory.md R44). -/
def sameOperands (i : Instr) (s t : State) : Prop :=
  match i with
  | .decode => s.hdrIn = t.hdrIn
  | .fsize => s.fsIn = t.fsIn
  | .seek => LP_BUFFER_GIVEN s t ∧ s.ctrl.syncMode = t.ctrl.syncMode
  | .walk => LP_BUFFER_GIVEN s t ∧ s.ctrl.syncMode = t.ctrl.syncMode
  | .stored => LP_BUFFER_GIVEN s t
  | .auto => LP_BUFFER_GIVEN s t ∧ s.ctrl = t.ctrl

/-! ## The invariant -/

/-- What every reachable state satisfies. -/
structure State.Inv (s : State) : Prop where
  /-- The buffer keeps its canonical form, inside the space of 31-bit offsets (20_memory.md R41). -/
  buffer : s.buffer.wf = true
  /-- While a command is in progress DONE is 0, and every result register and field is 0 (20_memory.md R57;
  10_state.md R30). -/
  busy : s.status.busy = true →
    s.res = Results.zero ∧ s.status = { Status.zero with busy := true, haz := s.status.haz }
  /-- A busy block that holds no illegal word holds a command (20_memory.md R57). -/
  latch : s.status.busy = true → s.bad = false → (decodeOp s.op).isSome = true
  /-- RESULT is NONE exactly when no command has completed since reset or acceptance (60_exceptions.md R181). -/
  result : s.status.done = true ↔ s.status.result ≠ .none
  /-- An invalid header leaves HDR_FLAGS, BITRATE and SRATE 0 (10_state.md R17 to R19). -/
  headerInvalid : s.res.hdrFlags.valid = false →
    s.res.hdrFlags = HdrFlags.zero ∧ s.res.bitrate = 0 ∧ s.res.srate = 0
  /-- A valid header has table values and a size from 96 to 1441 (10_state.md R18 to R20; 41_frame_size.md R115). -/
  headerValid : s.res.hdrFlags.valid = true →
    s.res.bitrate.toNat ∈ brTable ∧ s.res.srate.toNat ∈ srTable ∧
      96 ≤ s.res.fsize.toNat ∧ s.res.fsize.toNat ≤ 1441
  /-- FSIZE is at most 147312001 (10_state.md R20). -/
  fsize : s.res.fsize.toNat ≤ 147312001
  /-- MARK_ID is never 3 (42_metadata_shortcut.md R122). -/
  markId : s.status.markId ≠ .vbrii
  /-- With no marker found the marker fields are 0 (10_state.md R25). -/
  noMark : s.status.markFound = false →
    s.status.markId = .xing ∧ s.status.trunc = false ∧ s.res.markPos = 0
  /-- With no candidate found the walk fields are 0 (10_state.md R21, R22). -/
  noSync : s.status.syncFound = false →
    s.res.syncPos = 0 ∧ s.res.cursor = 0 ∧ s.res.hdrCount = 0 ∧ s.status.stop = .notEntered
  /-- The cursor never moves back behind the candidate and never wraps (10_state.md R22; 43_scan_walk.md R152). -/
  cursor : s.res.syncPos.toNat ≤ s.res.cursor.toNat ∧ s.res.cursor.toNat ≤ 2 ^ 31 + 1436
  /-- HDR_COUNT is below 2^25 (10_state.md R23). -/
  hdrCount : s.res.hdrCount.toNat < 2 ^ 25
  /-- A count that was not read from metadata is the walked one less 1, floored at 0 (43_scan_walk.md R149). -/
  count : s.status.src = false → s.res.count.toNat = s.res.hdrCount.toNat - 1
  /-- A count read from metadata comes with its marker and META = 1, and no walk ran (44_two_tier.md R170). -/
  stored : s.status.src = true →
    s.status.metaOut = .countRead ∧ s.status.markFound = true ∧ s.status.syncFound = false
  /-- A degenerate frame size never stops a walk (41_frame_size.md R115; 43_scan_walk.md R145). -/
  stop : s.status.stop ≠ .degenerateSize

end Sys2Proof.Machine
end

