-- ==== Sys2Proof/Certificates/Slice0/Obligations.lean ====
section
/-! DEFINITION. The statements for the provers, in the order of the spec's files. None rests on what an unwritten buffer
byte reads as (log 4) or on the value of a free one (log 3); those that rest on another choice of the model say so. -/

open Sys2Proof Sys2Proof.Machine

/-! ## Reset, the register window, the host's steps -/

/-- Every register reads its reset value, the latches are 0 and the block is idle (the table of 10_state.md section 8,
rule R32, the spec's own decision D14). -/
def Obligations.ResetRegistersReadZero : Prop :=
  (∀ r, regValue State.reset r = if r = .id then 0x46485441 else 0) ∧
    State.reset.op = 0 ∧ State.reset.bad = false ∧ State.reset.status.busy = false

/-- Reset in any state gives every register its reset value, abandons the command in progress and leaves the buffer
(70_reset_and_hazards.md section 1, rule R200, the spec's own decision D14). That the inputs, the answers and the draw
counter stay is the model's choice (log 11). -/
def Obligations.ResetAbandonsCommandKeepsBuffer : Prop :=
  ∀ (s : State) (rest : List Input), s.inputs = .reset :: rest →
    ∃ t, step s = .next t ∧ (∀ r, regValue t r = if r = .id then 0x46485441 else 0) ∧
      t.op = 0 ∧ t.bad = false ∧ t.buffer = s.buffer ∧
      t.inputs = rest ∧ t.reads = s.reads ∧ t.draws = s.draws

/-- The window holds sixteen registers at the offsets 0x00 to 0x3C and nothing else: an access reaches the register of
its offset when it is 32 bits wide at a multiple of 4 below 0x40, and is refused otherwise, in every state
(20_memory.md section 5 and 10_state.md section 1, rules R48 and R10, decisions D2 and D20). -/
def Obligations.AccessReachesWindowOrIsRefused : Prop :=
  ∀ (s : State) (off bits : Nat) (v : Word) (rest : List Input),
    ((bits = 32 ∧ off % 4 = 0 ∧ off < 0x40) →
      ∃ r : Reg, r.offset = off ∧
        (s.inputs = .hostRead off bits :: rest → step s = .next (readReg r { s with inputs := rest })) ∧
        (s.inputs = .hostWrite off bits v :: rest → step s = .next (writeReg r v { s with inputs := rest }))) ∧
    (¬(bits = 32 ∧ off % 4 = 0 ∧ off < 0x40) →
      (s.inputs = .hostRead off bits :: rest → ∃ e, step s = .refused e) ∧
      (s.inputs = .hostWrite off bits v :: rest → ∃ e, step s = .refused e))

/-- Each field of STATUS stands at its bits, and the bits marked zero read 0 (10_state.md section 2, rule R12, decisions
D2, D12, D24, D28). -/
def Obligations.StatusFieldsAtTheirBits : Prop :=
  ∀ t : Status,
    t.word.getLsbD 0 = t.busy ∧ t.word.getLsbD 1 = t.done ∧ t.word.extractLsb' 2 2 = 0 ∧
    t.word.extractLsb' 4 4 = t.result.code ∧ t.word.getLsbD 8 = t.syncFound ∧ t.word.getLsbD 9 = t.markFound ∧
    t.word.extractLsb' 10 2 = t.markId.code ∧ t.word.getLsbD 12 = t.src ∧ t.word.getLsbD 13 = t.trunc ∧
    t.word.extractLsb' 14 2 = t.stop.code ∧ t.word.getLsbD 16 = t.haz ∧ t.word.extractLsb' 17 2 = t.metaOut.code ∧
    t.word.extractLsb' 19 13 = 0

/-- A read of a register while idle, or of STATUS, CMD, ID, CTRL, BUF_LEN, HDR_IN or FS_IN at any time, answers the
register's value and changes no state of the block; the value of each of the sixteen registers is the state it stands for
(CMD 0, ID 0x46485441) (20_memory.md section 7a, rules R56 and R59, and 10_state.md rules R10 to R26). That the answer is appended to `reads` is the model's choice (log 2). -/
def Obligations.ReadAnswersRegisterWithoutSideEffect : Prop :=
  ∀ (s : State) (r : Reg) (rest : List Input), s.inputs = .hostRead r.offset 32 :: rest →
    (s.status.busy = false ∨ r ∈ [Reg.status, .cmd, .id, .ctrl, .bufLen, .hdrIn, .fsIn]) →
    step s = .next { s with inputs := rest, reads := s.reads ++ [⟨r, regValue s r⟩] } ∧
      regValue s .cmd = 0 ∧ regValue s .status = s.status.word ∧ regValue s .ctrl = s.ctrl.word ∧
      (regValue s .bufLen).toNat = s.bufLen.toNat ∧ regValue s .hdrIn = s.hdrIn ∧ regValue s .fsIn = s.fsIn.word ∧
      regValue s .hdrFlags = s.res.hdrFlags.word ∧ regValue s .bitrate = s.res.bitrate ∧
      regValue s .srate = s.res.srate ∧ regValue s .fsize = s.res.fsize ∧ regValue s .cursor = s.res.cursor ∧
      regValue s .syncPos = s.res.syncPos ∧ regValue s .hdrCount = s.res.hdrCount ∧ regValue s .count = s.res.count ∧
      regValue s .markPos = s.res.markPos ∧ regValue s .id = 0x46485441

/-- A read of a result register while BUSY = 1 has no side effect on any register, latch or the buffer and answers one
value, about which nothing is said: it is the free value at the draw counter, which moves on (20_memory.md section 7a,
rule R59; 93_implementation_defined.md U4; the form is the model's, log 3). -/
def Obligations.BusyReadOfResultIsADraw : Prop :=
  ∀ (s : State) (r : Reg) (rest : List Input), s.inputs = .hostRead r.offset 32 :: rest → s.status.busy = true →
    r ∈ [Reg.hdrFlags, .bitrate, .srate, .fsize, .cursor, .syncPos, .hdrCount, .count, .markPos] →
    step s = .next { s with
      inputs := rest
      reads := s.reads ++ [⟨r, Config.busyRead s.draws⟩]
      draws := s.draws + 1 }

/-- A write of any register while BUSY = 1 changes nothing but HAZ, which is set (20_memory.md section 7a, rule R59,
decision D16). -/
def Obligations.BusyWriteOnlySetsHaz : Prop :=
  ∀ (s : State) (r : Reg) (v : Word) (rest : List Input), s.inputs = .hostWrite r.offset 32 v :: rest →
    s.status.busy = true →
    step s = .next { s with inputs := rest, status := { s.status with haz := true } }

/-- Command acceptance: a write of CMD while idle latches op and BAD, clears every result register and result field, sets
BUSY, clears DONE and leaves HAZ, CTRL, BUF_LEN, HDR_IN, FS_IN and the buffer (20_memory.md section 7a, rule R57, and
10_state.md rule R30, decisions D4, D5, D23; the premise is LP_IDLE_AT_ISSUE of 70_reset_and_hazards.md R201). -/
def Obligations.CmdWriteAcceptsCommand : Prop :=
  ∀ (s : State) (w : Word) (rest : List Input), s.inputs = .hostWrite 0x00 32 w :: rest → LP_IDLE_AT_ISSUE s →
    ∃ t, step s = .next t ∧
      t.op = w.extractLsb' 0 4 ∧
      (t.bad = true ↔
        w.extractLsb' 4 28 ≠ 0 ∨ w.extractLsb' 0 4 = 0 ∨ 7 ≤ (w.extractLsb' 0 4).toNat) ∧
      (∀ r, r.isResult = true → regValue t r = 0) ∧
      t.status.word = (if s.status.haz then 0x00010001 else 0x00000001) ∧
      t.ctrl = s.ctrl ∧ t.bufLen = s.bufLen ∧ t.hdrIn = s.hdrIn ∧ t.fsIn = s.fsIn ∧ t.buffer = s.buffer ∧
      t.inputs = rest ∧ t.reads = s.reads ∧ t.draws = s.draws

/-- After a write of CTRL, BUF_LEN, HDR_IN or FS_IN while idle, a read of that register gives the written bits that
exist, and 0 at the bits marked zero; and each field holds its own bits of the written word (10_state.md sections 2 and
3, rules R13 to R16 and R33). -/
def Obligations.WritableRegistersKeepTheirBits : Prop :=
  ∀ (s : State) (v : Word), s.status.busy = false →
    regValue (writeReg .ctrl v s) .ctrl = v &&& 0x00000003 ∧
    regValue (writeReg .bufLen v s) .bufLen = v &&& 0x7FFFFFFF ∧
    regValue (writeReg .hdrIn v s) .hdrIn = v ∧
    regValue (writeReg .fsIn v s) .fsIn = v &&& 0x83FFFFFF ∧
    ((writeReg .ctrl v s).ctrl.syncMode = .general ↔ v.getLsbD 0 = true) ∧
    (writeReg .ctrl v s).ctrl.noMeta = v.getLsbD 1 ∧
    (writeReg .bufLen v s).len = v.toNat % 2 ^ 31 ∧
    (writeReg .fsIn v s).fsIn.srHz = v.extractLsb' 0 16 ∧
    (writeReg .fsIn v s).fsIn.brKbps = v.extractLsb' 16 10 ∧
    (writeReg .fsIn v s).fsIn.pad = v.getLsbD 31

/-- A write of an operand or configuration register while idle changes that register alone; a write of STATUS changes HAZ
alone, clearing it when bit 16 is written 1; a write of a read-only register changes nothing and does not set HAZ
(20_memory.md section 7a, rule R56, and 10_state.md rules R12 and R33, decision D21). -/
def Obligations.IdleWriteChangesItsRegisterAlone : Prop :=
  ∀ (s : State) (r : Reg) (v : Word) (rest : List Input), s.inputs = .hostWrite r.offset 32 v :: rest →
    s.status.busy = false → r ≠ .cmd →
    ∃ t, step s = .next t ∧
      (∀ q, q ≠ r → q ≠ .status → regValue t q = regValue s q) ∧
      (r = .status → t.status = { s.status with haz := if v.getLsbD 16 then false else s.status.haz }) ∧
      (r ≠ .status → t.status = s.status) ∧
      (r.isResult = true ∨ r = .id → regValue t r = regValue s r) ∧
      t.res = s.res ∧ t.op = s.op ∧ t.bad = s.bad ∧ t.buffer = s.buffer ∧
      t.inputs = rest ∧ t.reads = s.reads ∧ t.draws = s.draws

/-! ## The buffer -/

/-- A byte written to a buffer offset while idle, or at or above BUF_LEN while busy, is stored there: that offset reads
the byte, every other offset reads as before, and no register changes (20_memory.md section 7a, rule R56). That a write
at or above BUF_LEN is performed while busy is the model's reading (log 5). -/
def Obligations.BufferWriteStoresOneByte : Prop :=
  ∀ (s : State) (a : Nat) (b : Byte) (rest : List Input), s.buffer.wf = true →
    s.inputs = .bufWrite a b :: rest → a < 2 ^ 31 → (s.status.busy = false ∨ s.len ≤ a) →
    ∃ t, step s = .next t ∧ t.buffer.read a = b ∧ (∀ c, c ≠ a → t.buffer.read c = s.buffer.read c) ∧
      t.buffer.wf = true ∧ t = { s with inputs := rest, buffer := t.buffer }

/-- Two buffers in canonical form that read the same everywhere are the same data (derived from the form itself, which is
the model's: log 4, log 10). -/
def Obligations.EqualReadsGiveEqualBuffers : Prop :=
  ∀ m n : Memory, m.wf = true → n.wf = true → (∀ a, m.read a = n.read a) → m = n

/-- Multi-byte reads are big-endian (20_memory.md R46), for every buffer and offset, and the 4-byte window has its first
byte in bits 31:24. -/
def Obligations.MultiByteReadsAreBigEndian : Prop :=
  ∀ (m : Memory) (c : Nat),
    (memRead2 m c).toNat = (m.read c).toNat * 256 + (m.read (c + 1)).toNat ∧
    (memRead4 m c).toNat =
      (m.read c).toNat * 2 ^ 24 + (m.read (c + 1)).toNat * 2 ^ 16 + (m.read (c + 2)).toNat * 2 ^ 8 +
        (m.read (c + 3)).toNat ∧
    windowB0 (memRead4 m c) = m.read c ∧ windowB1 (memRead4 m c) = m.read (c + 1) ∧
    windowB2 (memRead4 m c) = m.read (c + 2)

/-- The block never writes the buffer (20_memory.md R43): after any command, and after an illegal one, every byte of
the buffer reads as before. -/
def Obligations.BlockNeverWritesBuffer : Prop :=
  (∀ (i : Instr) (s t : State), exec i s = .next t → ∀ a, t.buffer.read a = s.buffer.read a) ∧
    ∀ s t : State, blockStep s = .next t → ∀ a, t.buffer.read a = s.buffer.read a

/-! ## Encodings -/

/-- The command words of 30_encoding.md R70, written out from the table, decode to their commands; of the illegal words of
R71, those with op 0 and with op 7 to 15 beside zero reserved bits decode to none, each listed, and so does the sample
0x00000014, a reserved bit set beside a legal op. Every other word is WordDecodesExactlyToItsCommand's. -/
def Obligations.TableWordsDecode : Prop :=
  decodeWord 0x00000001 = .ok .decode ∧ decodeWord 0x00000002 = .ok .fsize ∧ decodeWord 0x00000003 = .ok .seek ∧
    decodeWord 0x00000004 = .ok .walk ∧ decodeWord 0x00000005 = .ok .stored ∧ decodeWord 0x00000006 = .ok .auto ∧
    decodeWord 0x00000000 = .error (.illegalOpcode 0) ∧ decodeWord 0x00000007 = .error (.illegalOpcode 7) ∧
    decodeWord 0x00000008 = .error (.illegalOpcode 8) ∧ decodeWord 0x00000009 = .error (.illegalOpcode 9) ∧
    decodeWord 0x0000000A = .error (.illegalOpcode 10) ∧ decodeWord 0x0000000B = .error (.illegalOpcode 11) ∧
    decodeWord 0x0000000C = .error (.illegalOpcode 12) ∧ decodeWord 0x0000000D = .error (.illegalOpcode 13) ∧
    decodeWord 0x0000000E = .error (.illegalOpcode 14) ∧ decodeWord 0x0000000F = .error (.illegalOpcode 15) ∧
    decodeWord 0x00000014 = .error .reservedBits

/-- Decode and encode agree on all 2^32 words: a word decodes to a command exactly when it is that command's word; every
other word is rejected, and those are the words acceptance marks BAD (30_encoding.md section 5, rules R70 and R71). -/
def Obligations.WordDecodesExactlyToItsCommand : Prop :=
  ∀ (w : Word), (∀ i : Instr, decodeWord w = .ok i ↔ w = encode i) ∧
    ((∃ e, decodeWord w = .error e) ↔ badWord w = true) ∧
    (badWord w = true ↔ w.toNat = 0 ∨ 7 ≤ w.toNat)

/-! ## The header decoder -/

/-- The sync check (40_header_decode.md R91), for every window: it passes exactly on eleven ones, a window that fails it
is rejected, and the rule's corner cases. -/
def Obligations.SyncCheckIsElevenOnes : Prop :=
  (∀ w : Word,
    (syncCheck w = true ↔ w.extractLsb' 16 16 &&& 0xFFE0 = 0xFFE0) ∧
    (syncCheck w = true ↔ w.extractLsb' 24 8 = 0xFF ∧ w.extractLsb' 21 3 = 0b111) ∧
    (syncCheck w = false → decodeHeader w = none) ∧
    (w.extractLsb' 16 16 = 0xFEFB → syncCheck w = false) ∧
    (w.extractLsb' 16 16 = 0xFFDF → syncCheck w = false) ∧
    (w.extractLsb' 16 16 = 0xFFE0 → syncCheck w = true ∧ decodeHeader w = none))

/-- The version and layer check (40_header_decode.md R92), for every window: b1 is 0xFA or 0xFB; b1[0] changes nothing in
the result or the size and is reported in HDR_FLAGS.PROT only. -/
def Obligations.VersionLayerCheckIgnoresProtection : Prop :=
  ∀ w : Word,
    (versionLayerCheck w = true ↔ w.extractLsb' 16 8 &&& 0xFE = 0xFA) ∧
    (syncCheck w = true → (versionLayerCheck w = true ↔ w.extractLsb' 17 4 = 0b1101)) ∧
    (versionLayerCheck w = false → decodeHeader w = none) ∧
    (w.extractLsb' 16 8 ∈ ([0xF3, 0xE3, 0xFD, 0xFF] : List Byte) → decodeHeader w = none) ∧
    decodeHeader (w ^^^ 0x00010000) = decodeHeader w ∧ headerStep (w ^^^ 0x00010000) = headerStep w ∧
    (∀ s t : State, s.hdrIn = w → exec .decode s = .next t → (decodeHeader w).isSome = true →
      t.res.hdrFlags.prot = w.getLsbD 16) ∧
    ∀ (i : Instr) (s t : State), i ≠ .decode → exec i s = .next t → t.res.hdrFlags = s.res.hdrFlags

/-- The bit-rate index (40_header_decode.md R93 and 30_encoding.md R62): 0 and 15 reject, the others index the 14-entry
table by index - 1. -/
def Obligations.BitRateIndexSelectsTableEntry : Prop :=
  ∀ w : Word,
    (w.extractLsb' 12 4 = 0 ∨ w.extractLsb' 12 4 = 15 → decodeHeader w = none) ∧
    ∀ h, decodeHeader w = some h →
      ([32, 40, 48, 56, 64, 80, 96, 112, 128, 160, 192, 224, 256, 320] : List Nat)[(w.extractLsb' 12 4).toNat - 1]? =
        some h.bitRateKbps.toNat

/-- The sampling-rate index (40_header_decode.md R94 and 30_encoding.md R63): 3 rejects, 0, 1, 2 give 44100, 48000,
32000 Hz. -/
def Obligations.SamplingRateIndexSelectsTableEntry : Prop :=
  ∀ w : Word,
    (w.extractLsb' 10 2 = 3 → decodeHeader w = none) ∧
    ∀ h, decodeHeader w = some h →
      (w.extractLsb' 10 2 = 0 → h.samplingRateHz.toNat = 44100) ∧
      (w.extractLsb' 10 2 = 1 → h.samplingRateHz.toNat = 48000) ∧
      (w.extractLsb' 10 2 = 2 → h.samplingRateHz.toNat = 32000)

/-- The padding bit (40_header_decode.md R95): it is b2[1], it never causes rejection, and setting it adds exactly one
byte to the frame. -/
def Obligations.PaddingBitAddsOneByte : Prop :=
  ∀ w : Word,
    (decodeHeader (w ^^^ 0x00000200)).isSome = (decodeHeader w).isSome ∧
    ∀ h, decodeHeader w = some h → h.padding = w.getLsbD 9 ∧
      (h.padding = false →
        ∃ g, decodeHeader (w ^^^ 0x00000200) = some g ∧ g.padding = true ∧ g.size = h.size + 1)

/-- A window is a valid header exactly under the conditions of 30_encoding.md section 1 (rule R61, which the spec derives
from R91 and R92, with the indices of R93 and R94). -/
def Obligations.ValidHeaderExactly : Prop :=
  ∀ w : Word, (decodeHeader w).isSome = true ↔
    w &&& 0xFFFE0000 = 0xFFFA0000 ∧ w.extractLsb' 12 4 ≠ 0 ∧ w.extractLsb' 12 4 ≠ 15 ∧ w.extractLsb' 10 2 ≠ 3

/-- The decoder ignores b2[0] and all of b3 (40_header_decode.md section 1, rule R96, a consequence the spec derives). -/
def Obligations.DecoderIgnoresLowNineBits : Prop :=
  ∀ w : Word, decodeHeader w = decodeHeader (w &&& 0xFFFFFE00)

/-! ## Frame sizes -/

/-- frame_size (41_frame_size.md section 1): 0 for a zero divisor (the spec's own choice, decision D18, as R112 says), else
the floor of the exact rational 144000 * br / sr, plus the padding (R110); the source's second form of the formula; the rule's two worked examples; and
it is the distance from one header to the next. -/
def Obligations.FrameSizeIsExactFloorPlusPadding : Prop :=
  (∀ (br sr : Nat) (pad : Bool),
    (sr = 0 → frameSize br sr pad = 0) ∧
    (0 < sr → (∃ q, frameSize br sr pad = q + (if pad then 1 else 0) ∧
      q * sr ≤ 144000 * br ∧ 144000 * br < (q + 1) * sr) ∧
      frameSize br sr pad = 1152 / 8 * (br * 1000) / sr + (if pad then 1 else 0))) ∧
  frameSize 128 44100 false = 417 ∧ frameSize 128 44100 true = 418 ∧
  ∀ (m : Memory) (len c : Nat) (h : Header), c + 4 ≤ len → decodeHeader (memRead4 m c) = some h →
    walkStep m len c = .advance (frameSize h.bitRateKbps.toNat h.samplingRateHz.toNat h.padding)

/-- The operands of FS_IN give size 0 exactly when the sampling rate is 0, or the bit rate is 0 without padding, and never
more than 147312001 (41_frame_size.md sections 1 and 2, rules R112 and R114, which the spec derives). -/
def Obligations.FsInSizeZeroExactly : Prop :=
  ∀ f : FsIn,
    (fsInSize f = 0 ↔ f.srHz = 0 ∨ (f.brKbps = 0 ∧ f.pad = false)) ∧ fsInSize f ≤ 147312001

/-- The 42 sizes of the table of 41_frame_size.md section 2 (rule R111, computed by the spec from R110). -/
def Obligations.FrameSizeTable : Prop :=
  brTable.map (fun br => srTable.map fun sr => frameSize br sr false) =
    [[104, 96, 144], [130, 120, 180], [156, 144, 216], [182, 168, 252], [208, 192, 288], [261, 240, 360],
      [313, 288, 432], [365, 336, 504], [417, 384, 576], [522, 480, 720], [626, 576, 864], [731, 672, 1008],
      [835, 768, 1152], [1044, 960, 1440]]

/-- Every decoded header has a size from 96 to 1441, so the degenerate outcome is never reached (41_frame_size.md
section 2 and 40_header_decode.md section 2, rules R115 and R99, which the spec derives). -/
def Obligations.DecodedSizeBounds : Prop :=
  ∀ w : Word,
    (∀ h, decodeHeader w = some h → 96 ≤ h.size ∧ h.size ≤ 1441 ∧ headerStep w = .valid h h.size) ∧
    headerStep w ≠ .degenerate

/-! ## The commands -/

/-- DECODE (40_header_decode.md section 3, rule R98, decision D25): a valid HDR_IN gives HDR_FLAGS, BITRATE, SRATE, FSIZE
and OK; an invalid one gives INVALID_HEADER and writes nothing else. Every state; everything not named is
unchanged, OP and BAD among it (the model's choice, log 21). -/
def Obligations.DecodeCommandReportsHeader : Prop :=
  ∀ s : State,
    (∀ h, decodeHeader s.hdrIn = some h →
      ∃ f : HdrFlags,
        f.word = (s.hdrIn.extractLsb' 16 1 ++ s.hdrIn.extractLsb' 12 4 ++ s.hdrIn.extractLsb' 10 2 ++
          s.hdrIn.extractLsb' 9 1 ++ (1 : BitVec 1)).setWidth 32 ∧
        exec .decode s = .next (s.ended { s.status with result := .ok }
          { s.res with
            hdrFlags := f
            bitrate := h.bitRateKbps.setWidth 32
            srate := h.samplingRateHz.setWidth 32
            fsize := BitVec.ofNat 32 h.size })) ∧
    (decodeHeader s.hdrIn = none → exec .decode s = .next (s.ended { s.status with result := .invalidHeader } s.res))

/-- FSIZE (41_frame_size.md section 3, rule R113, decision D18): the FSIZE register holds the size of the FS_IN operands
as an exact number, and RESULT tells size 0. Every state; everything not named is
unchanged, OP and BAD among it (the model's choice, log 21). -/
def Obligations.FsizeCommandSizesOperands : Prop :=
  ∀ s : State, ∃ n : Word,
    n.toNat = frameSize s.fsIn.brKbps.toNat s.fsIn.srHz.toNat s.fsIn.pad ∧
    exec .fsize s = .next (s.ended
      { s.status with result := if n = 0 then .degenerateSize else .ok } { s.res with fsize := n })

/-- SEEK (43_scan_walk.md section 1, rules R140 to R142, decisions D4, D6, D7, D8): SYNC_POS and CURSOR hold the lowest
candidate, in either mode; with none, NO_SYNC. Every state; everything not named is
unchanged, OP and BAD among it (the model's choice, log 21). -/
def Obligations.SeekCommandFindsLowestCandidate : Prop :=
  ∀ s : State,
    (∀ i, FirstSync s i → ∃ p : Word, p.toNat = i ∧
      exec .seek s = .next (s.ended { s.status with result := .ok, syncFound := true }
        { s.res with syncPos := p, cursor := p })) ∧
    ((∀ i, ¬SyncAt s i) → exec .seek s = .next (s.ended { s.status with result := .noSync } s.res))

/-- WALK (43_scan_walk.md sections 2 to 5, rules R143 to R151, decisions D9, D24): from the first candidate the walk of
R144 ends, and CURSOR, HDR_COUNT, STOP and COUNT = max(n - 1, 0) are its end's; with no candidate COUNT is 0. RESULT is
OK always. Every state; everything not named is
unchanged, OP and BAD among it (the model's choice, log 21). -/
def Obligations.WalkCommandReportsWalkEnd : Prop :=
  ∀ s : State,
    (∀ i, FirstSync s i →
      ∃ (e : WalkEnd) (p c n k : Word), WalkRun s.buffer s.len i 0 e ∧
        p.toNat = i ∧ c.toNat = e.cursor ∧ n.toNat = e.headers ∧ k.toNat = e.headers - 1 ∧
        exec .walk s = .next (s.ended { s.status with result := .ok, syncFound := true, stop := e.stop }
          { s.res with syncPos := p, cursor := c, hdrCount := n, count := k })) ∧
    ((∀ i, ¬SyncAt s i) →
      exec .walk s = .next (s.ended { s.status with result := .ok } { s.res with count := 0 }))

/-- A walk has one end (43_scan_walk.md sections 2 and 3, rules R144 and R153, which the spec derives): from every cursor
it ends, and two ends of one walk are the same. -/
def Obligations.WalkEndsInOneWay : Prop :=
  ∀ (m : Memory) (len c n : Nat),
    (∃ e, WalkRun m len c n e) ∧ ∀ e f, WalkRun m len c n e → WalkRun m len c n f → e = f

/-- Bounds of a walk from any candidate (43_scan_walk.md section 3, rules R152 and R153, and 10_state.md rule R23, which
the spec derives): at most floor((BUF_LEN - 4 - start) / 96) + 1 headers when start + 4 <= BUF_LEN and none otherwise;
each header moves the cursor on by 96 to 1441 bytes; the cursor is at most BUF_LEN + 1437; and the stop cause is never
"degenerate". -/
def Obligations.WalkIsBounded : Prop :=
  ∀ (m : Memory) (len start : Nat) (e : WalkEnd), WalkRun m len start 0 e →
    (start + 4 ≤ len → e.headers ≤ (len - 4 - start) / 96 + 1) ∧
    (len < start + 4 → e.headers = 0 ∧ e.cursor = start ∧ e.stop = .incompleteWindow) ∧
    start + 96 * e.headers ≤ e.cursor ∧ e.cursor ≤ start + 1441 * e.headers ∧
    (start + 4 ≤ len → e.cursor ≤ len - 4 + 1441) ∧ e.stop ≠ .degenerateSize

/-- STORED when no marker occurs (42_metadata_shortcut.md sections 1 and 3, rules R120, R121, R124, R127): NOT_FOUND with
META = 2 and nothing else written. Every state; OP and BAD stay (the model's choice, log 21). -/
def Obligations.StoredCommandWithoutMarker : Prop :=
  ∀ s : State, (∀ k p, ¬OccursAt s k p) →
    exec .stored s = .next (s.ended { s.status with result := .notFound, metaOut := .notFound } s.res)

/-- STORED on the winning marker's record (42_metadata_shortcut.md sections 2 and 3, rules R123 to R127, decisions D10,
D11): the flags byte's bound, its bit 0 and the count field's bound are tested in that order, and the count is the four
bytes from p + 8, big-endian, unvalidated. Every state; everything not named is
unchanged, OP and BAD among it (the model's choice, log 21). -/
def Obligations.StoredCommandReadsRecord : Prop :=
  ∀ (s : State) (k : Marker) (p : Nat), WinningMarker s k p → ∃ mp : Word, mp.toNat = p ∧
    (s.len ≤ p + 7 → exec .stored s = .next (s.ended
      { s.status with
        result := .noCountStored, markFound := true, markId := k, trunc := true, metaOut := .noCountStored }
      { s.res with markPos := mp })) ∧
    (p + 7 < s.len → (s.buffer.read (p + 7)).getLsbD 0 = false → exec .stored s = .next (s.ended
      { s.status with
        result := .noCountStored, markFound := true, markId := k, trunc := false, metaOut := .noCountStored }
      { s.res with markPos := mp })) ∧
    (p + 7 < s.len → (s.buffer.read (p + 7)).getLsbD 0 = true → s.len < p + 12 → exec .stored s = .next (s.ended
      { s.status with
        result := .noCountStored, markFound := true, markId := k, trunc := true, metaOut := .noCountStored }
      { s.res with markPos := mp })) ∧
    (p + 12 ≤ s.len → (s.buffer.read (p + 7)).getLsbD 0 = true → exec .stored s = .next (s.ended
      { s.status with
        result := .ok, markFound := true, markId := k, trunc := false, src := true, metaOut := .countRead }
      { s.res with
        markPos := mp
        count := s.buffer.read (p + 8) ++ s.buffer.read (p + 9) ++ s.buffer.read (p + 10) ++ s.buffer.read (p + 11) }))

/-- "VBRII" never wins (42_metadata_shortcut.md section 1, rule R122, which the spec derives): the marker found is one of
the other three, and dropping "VBRII" from the table changes no search. -/
def Obligations.VbriiNeverWins : Prop :=
  ∀ (m : Memory) (len : Nat), (∀ p, findMarker m len ≠ some (.vbrii, p)) ∧
    findMarkerIn m len [.xing, .info, .vbri] = findMarker m len

/-- AUTO (44_two_tier.md sections 1 and 2, rules R170 and R171, decision D12). With NO_META = 1 it is WALK with SRC
cleared; otherwise a stored count is returned without a walk, and on any failure of the shortcut it is WALK after the
marker fields and META have been written. Every state; OP and BAD stay (the model's choice, log 21). -/
def Obligations.AutoCommandTriesShortcutThenWalks : Prop :=
  ∀ s : State,
    (s.ctrl.noMeta = true → exec .auto s = exec .walk { s with status := { s.status with src := false } }) ∧
    (s.ctrl.noMeta = false → (∀ k p, ¬OccursAt s k p) →
      exec .auto s = exec .walk { s with status := { s.status with src := false, metaOut := .notFound } }) ∧
    (s.ctrl.noMeta = false → ∀ k p, WinningMarker s k p → ∃ mp : Word, mp.toNat = p ∧
      (p + 12 ≤ s.len → (s.buffer.read (p + 7)).getLsbD 0 = true → exec .auto s = .next (s.ended
        { s.status with
          result := .ok, markFound := true, markId := k, trunc := false, src := true, metaOut := .countRead }
        { s.res with
          markPos := mp
          count :=
            s.buffer.read (p + 8) ++ s.buffer.read (p + 9) ++ s.buffer.read (p + 10) ++ s.buffer.read (p + 11) })) ∧
      (p + 7 < s.len → (s.buffer.read (p + 7)).getLsbD 0 = false → exec .auto s = exec .walk { s with
        res := { s.res with markPos := mp }
        status := { s.status with
          markFound := true, markId := k, trunc := false, src := false, metaOut := .noCountStored } }) ∧
      (s.len ≤ p + 7 ∨ ((s.buffer.read (p + 7)).getLsbD 0 = true ∧ s.len < p + 12) →
        exec .auto s = exec .walk { s with
          res := { s.res with markPos := mp }
          status := { s.status with
            markFound := true, markId := k, trunc := true, src := false, metaOut := .noCountStored } }))

/-- Every command completes in every state, with BUSY = 0, DONE = 1 and a result code that the command produces
(60_exceptions.md section 1, rules R180, R181 and R190): none of them stops, faults or refuses. -/
def Obligations.EveryCommandCompletes : Prop :=
  ∀ (i : Instr) (s : State), ∃ t, exec i s = .next t ∧ t.status.busy = false ∧ t.status.done = true ∧
    (match i with
      | .decode => t.status.result = .ok ∨ t.status.result = .invalidHeader
      | .fsize => t.status.result = .ok ∨ t.status.result = .degenerateSize
      | .seek => t.status.result = .ok ∨ t.status.result = .noSync
      | .walk => t.status.result = .ok
      | .stored => t.status.result = .ok ∨ t.status.result = .notFound ∨ t.status.result = .noCountStored
      | .auto => t.status.result = .ok)

/-- The frame of the commands (10_state.md section 6, rule R31, and 60_exceptions.md section 4, rule R185). No command
changes CTRL, BUF_LEN, HDR_IN, FS_IN, HAZ, OP, BAD, or any byte of the buffer, and each leaves every result register and
field outside its column of the table as it was. That OP and BAD stay after completion is the model's choice (log 21);
the inputs, the answers and the draw counter (the model's own fields) stay as well. -/
def Obligations.CommandsWriteOnlyTheirColumn : Prop :=
  ∀ (i : Instr) (s t : State), exec i s = .next t →
    (t.ctrl = s.ctrl ∧ t.bufLen = s.bufLen ∧ t.hdrIn = s.hdrIn ∧ t.fsIn = s.fsIn ∧ t.status.haz = s.status.haz ∧
      t.op = s.op ∧ t.bad = s.bad ∧ (∀ a, t.buffer.read a = s.buffer.read a) ∧
      t.inputs = s.inputs ∧ t.reads = s.reads ∧ t.draws = s.draws) ∧
    (i ≠ .decode → t.res.hdrFlags = s.res.hdrFlags ∧ t.res.bitrate = s.res.bitrate ∧ t.res.srate = s.res.srate) ∧
    (i ≠ .decode → i ≠ .fsize → t.res.fsize = s.res.fsize) ∧
    (i = .decode ∨ i = .fsize ∨ i = .stored →
      t.res.cursor = s.res.cursor ∧ t.res.syncPos = s.res.syncPos ∧ t.status.syncFound = s.status.syncFound) ∧
    (i ≠ .walk → i ≠ .auto → t.res.hdrCount = s.res.hdrCount ∧ t.status.stop = s.status.stop) ∧
    (i = .decode ∨ i = .fsize ∨ i = .seek → t.res.count = s.res.count) ∧
    (i ≠ .stored → i ≠ .auto →
      t.res.markPos = s.res.markPos ∧ t.status.markFound = s.status.markFound ∧ t.status.markId = s.status.markId ∧
      t.status.trunc = s.status.trunc ∧ t.status.metaOut = s.status.metaOut ∧ t.status.src = s.status.src)

/-- An illegal command word completes with ILLEGAL_CMD and nothing else written (30_encoding.md section 5 and
20_memory.md section 7a, rules R71 and R58, decision D15). OP and BAD stay (the model's choice, log 21), and the turn is
an input of the model's (log 1). -/
def Obligations.IllegalWordCompletesWithIllegalCmd : Prop :=
  ∀ (s : State) (rest : List Input), s.status.busy = true → s.bad = true →
    (s.inputs = .block :: rest ∨ (s.inputs = [] ∧ rest = [])) →
    step s = .next (({ s with inputs := rest } : State).ended { s.status with result := .illegalCmd } s.res)

/-! ## The step and whole runs -/

/-- A turn of a busy block runs the command its latches decode to: the step is exec of it (20_memory.md section 7a,
rule R58), after the turn has been taken off the inputs; with no input left the block has the turn (log 1). -/
def Obligations.StepRunsLatchedCommand : Prop :=
  ∀ (s : State) (i : Instr), s.status.busy = true → s.bad = false → s.op = (encode i).extractLsb' 0 4 →
    (s.inputs = [] → step s = exec i s) ∧
    ∀ rest, s.inputs = .block :: rest → step s = exec i { s with inputs := rest }

/-- An idle block holds its registers whenever it has the turn (60_exceptions.md section 6, rule R188). -/
def Obligations.IdleBlockHoldsItsState : Prop :=
  ∀ s : State, s.status.busy = false →
    (s.inputs = [] → step s = .next s) ∧ ∀ rest, s.inputs = .block :: rest → step s = .next { s with inputs := rest }

/-- A command's run from its CMD write: a write of the word of a command while idle, and then a turn of the block, is two
steps that end where exec of that command ends from the accepted state (20_memory.md section 7a and 70_reset_and_hazards
section 2, rules R57, R58 and R203). -/
def Obligations.CommandRunsFromItsCmdWrite : Prop :=
  ∀ (s : State) (i : Instr) (rest : List Input), LP_IDLE_AT_ISSUE s →
    s.inputs = .hostWrite 0x00 32 (encode i) :: .block :: rest →
    ∃ t, Host.Core.run core 2 s = .next t ∧ exec i (accept (encode i) { s with inputs := rest }) = .next t ∧
      t.status.busy = false ∧ t.status.done = true ∧ t.inputs = rest

/-- The step stops exactly for the runs the spec tells a model to refuse (an access outside the window's form, a reset
that coincides with an access, a buffer write below BUF_LEN while busy: 20_memory.md sections 5 and 7, rules R48 and R53;
U3, U5, U10) and for a buffer write at an offset of 2^31 or more, which the model takes to be no offset (20_memory.md
section 2, rule R41; log 9). That a write at or above BUF_LEN while busy is performed is the model's reading (20_memory.md
sections 3 and 7; log 5). -/
def Obligations.StepAnswersNextExactlyOnSafeSteps : Prop :=
  ∀ s : State, (∃ t, step s = .next t) ↔ s.safeStep = true

/-- The invariant holds at reset (10_state.md section 8, rule R32). -/
def Obligations.InvariantHoldsAtReset : Prop := State.reset.Inv

/-- Every step from every state that satisfies the invariant keeps it: the whole-machine promises of the spec's prose
(10_state.md sections 2 to 6, 41_frame_size.md rule R115, 42 rule R122, 43 rules R149, R152, R153, 60 rule R181). -/
def Obligations.StepKeepsInvariant : Prop :=
  ∀ s t : State, s.Inv → step s = .next t → t.Inv

/-- The results of a command are a function of the operands the command reads (10_state.md section 6, rule R30, decision
D23; 30_encoding.md rule R70; 20_memory.md rule R44): two states that agree on those, whatever they differ in elsewhere
(earlier results, the other operands, buffer bytes at or above BUF_LEN), end with the same result registers and the same
STATUS but for HAZ. -/
def Obligations.ResultsDependOnOperandsAlone : Prop :=
  ∀ (i : Instr) (s t s' t' : State), sameOperands i s t →
    exec i (accept (encode i) s) = .next s' → exec i (accept (encode i) t) = .next t' →
    s'.res = t'.res ∧ { s'.status with haz := false } = { t'.status with haz := false }

/-- Host accesses that arrive while the block is busy do not disturb the command (20_memory.md section 7a and
70_reset_and_hazards.md section 3, rules R59, R205): after any sequence of them and the block's turn, the result
registers and STATUS are those of the command completed at once, but for HAZ, which is set exactly when it was or when
one of them was a write; the operand and configuration registers are unchanged. The premises are
those of 70_reset_and_hazards.md R201; the one on the buffer is the first clause of the invariant (StepKeepsInvariant). -/
def Obligations.BusyAccessesDoNotDisturbCommand : Prop :=
  ∀ (s u : State) (ins rest : List Input), s.buffer.wf = true → s.status.busy = true →
    s.inputs = ins ++ .block :: rest → Input.block ∉ ins → LP_WORD_ACCESS ins → LP_BUFFER_STABLE s.len ins →
    Undisturbed ins → blockStep s = .next u →
    ∃ t, Host.Core.run core (ins.length + 1) s = .next t ∧ t.inputs = rest ∧
      t.res = u.res ∧ t.status = { u.status with haz := t.status.haz } ∧
      (t.status.haz = true ↔ s.status.haz = true ∨ ∃ off bits v, Input.hostWrite off bits v ∈ ins) ∧
      t.ctrl = s.ctrl ∧ t.bufLen = s.bufLen ∧ t.hdrIn = s.hdrIn ∧ t.fsIn = s.fsIn ∧
      ∀ a, a < s.len → t.buffer.read a = s.buffer.read a

/-- A busy block completes: within as many steps as there are inputs when one of them is its turn (LP_FAIR_COMPLETION of
70_reset_and_hazards.md R201), and in one step more when no input is left (20_memory.md section 7a, rule R58, weak
fairness; the order of the inputs is the model's, log 1). What comes after its turn is not restricted. -/
def Obligations.BusyBlockCompletes : Prop :=
  ∀ (s : State) (ins rest : List Input), s.status.busy = true → s.inputs = ins ++ rest →
    LP_WORD_ACCESS ins → LP_BUFFER_STABLE s.len ins → Undisturbed ins → (LP_FAIR_COMPLETION ins ∨ rest = []) →
    ∃ k t, k ≤ ins.length + 1 ∧ (LP_FAIR_COMPLETION ins → k ≤ ins.length) ∧
      Host.Core.run core k s = .next t ∧ t.status.busy = false ∧ t.status.done = true

/-- AUTO is the host's own sequence of the two strategies (44_two_tier.md section 2, rule R172, which the spec derives):
for the same buffer, BUF_LEN and SYNC_MODE with NO_META = 0, AUTO ends with the COUNT of STORED when that succeeds and
otherwise with that of the WALK issued after it, with STORED's marker fields, and with WALK's walk fields when the walk
ran. -/
def Obligations.AutoEqualsStoredThenWalk : Prop :=
  ∀ s a b c : State, s.ctrl.noMeta = false →
    exec .auto (accept (encode .auto) s) = .next a →
    exec .stored (accept (encode .stored) s) = .next b →
    exec .walk (accept (encode .walk) b) = .next c →
    (b.status.result = .ok → a.res.count = b.res.count) ∧
    (b.status.result ≠ .ok → a.res.count = c.res.count ∧
      a.status.syncFound = c.status.syncFound ∧ a.res.syncPos = c.res.syncPos ∧ a.res.cursor = c.res.cursor ∧
      a.res.hdrCount = c.res.hdrCount ∧ a.status.stop = c.status.stop) ∧
    a.status.markFound = b.status.markFound ∧ a.status.markId = b.status.markId ∧ a.res.markPos = b.res.markPos ∧
    a.status.trunc = b.status.trunc ∧ a.status.metaOut = b.status.metaOut ∧
    (a.status.src = true ↔ b.status.result = .ok)

/-- A buffer of K consecutive complete frames and nothing else is walked to its end: HDR_COUNT = K, COUNT = K - 1,
CURSOR = BUF_LEN, STOP = 2 (95_test_vectors.md E6 and 43_scan_walk.md section 4, rule R149, decision D9). -/
def Obligations.WalkCountsConsecutiveFrames : Prop :=
  ∀ (s : State) (K : Nat) (pos : Nat → Nat), 1 ≤ K → pos 0 = 0 → pos K = s.len → SyncAt s 0 →
    (∀ j, j < K → ∃ h, decodeHeader (memRead4 s.buffer (pos j)) = some h ∧ pos (j + 1) = pos j + h.size) →
    ∃ t, exec .walk s = .next t ∧ t.res.hdrCount.toNat = K ∧ t.res.count.toNat = K - 1 ∧
      t.res.cursor.toNat = s.len ∧ t.res.syncPos = 0 ∧ t.status.syncFound = true ∧
      t.status.stop = .incompleteWindow ∧ t.status.result = .ok

/-- The finer steps of a command, with nothing in between, end where its atomic step ends (43_scan_walk.md section 6, rule
R154, decision D26): from every state a command that is performed one examined offset and one walk_step at a time on its
working copy ends, within a number of steps linear in BUF_LEN, in exactly the state in which the one step of its meaning
ends, and BUSY stays as it was until then. What the host sees meanwhile is SplitHostSeesTheAtomicMachine. -/
def Obligations.FineStepsEndWhereAtomicStepEnds : Prop :=
  ∀ (i : Instr) (s : State),
    ∃ (n : Nat) (t : State), n ≤ 6 * s.len + 16 ∧ fineRun i n (fineStart i s) = (t, .done) ∧ exec i s = .next t ∧
      ∀ k, (fineRun i k (fineStart i s)).2 ≠ .done → (fineRun i k (fineStart i s)).1.status.busy = s.status.busy

/-! ## The codes of STATUS, and the launch premises -/

/-- The numbers of the result codes, the stop causes, the metadata outcomes and the markers (60_exceptions.md section 1,
rule R181, 43_scan_walk.md section 3, rule R145, and 10_state.md section 2, rule R12, decisions D2, D12, D15, D24). -/
def Obligations.StatusCodesAreTheirNumbers : Prop :=
  ResultCode.none.code = 0 ∧ ResultCode.ok.code = 1 ∧ ResultCode.notFound.code = 2 ∧
    ResultCode.noCountStored.code = 3 ∧ ResultCode.invalidHeader.code = 4 ∧ ResultCode.degenerateSize.code = 5 ∧
    ResultCode.illegalCmd.code = 6 ∧ ResultCode.noSync.code = 7 ∧
    StopCause.notEntered.code = 0 ∧ StopCause.invalidHeader.code = 1 ∧ StopCause.incompleteWindow.code = 2 ∧
    StopCause.degenerateSize.code = 3 ∧
    MetaOutcome.notAttempted.code = 0 ∧ MetaOutcome.countRead.code = 1 ∧ MetaOutcome.notFound.code = 2 ∧
    MetaOutcome.noCountStored.code = 3 ∧
    Marker.xing.code = 0 ∧ Marker.info.code = 1 ∧ Marker.vbri.code = 2 ∧ Marker.vbrii.code = 3

/-- What becomes of a run that breaks a launch premise (70_reset_and_hazards.md section 2, rule R201, decisions D16, D20):
a CMD write while busy is ignored and sets HAZ, an access that is no word access is refused, and so is a buffer write
below BUF_LEN while busy. -/
def Obligations.BrokenLaunchPremisesAreIgnoredOrRefused : Prop :=
  ∀ (s : State) (x : Input) (rest : List Input), s.inputs = x :: rest →
    (∀ w, x = .hostWrite 0x00 32 w → ¬LP_IDLE_AT_ISSUE s →
      step s = .next { s with inputs := rest, status := { s.status with haz := true } }) ∧
    (¬LP_WORD_ACCESS [x] → ∃ e, step s = .refused e) ∧
    (s.status.busy = true → ¬LP_BUFFER_STABLE s.len [x] →
      ∃ a, a < s.len ∧ step s = .refused (.bufferWriteWhileBusy a))

/-- Whole runs under the five launch premises (70_reset_and_hazards.md section 2, rules R201 and R203, decision D5): a
launched command's run ends, with DONE = 1 and with the result registers and STATUS (HAZ apart) that the meaning of the
command gives from the accepted state; and the runs of two launches whose operands agree (LP_BUFFER_GIVEN in
sameOperands) end with the same ones, whatever accesses arrived meanwhile and wherever the block's turn stood (log 1). -/
def Obligations.LaunchedRunsEndWithTheCommandsResults : Prop :=
  ∀ (i : Instr) (s t : State) (insS restS insT restT : List Input),
    Launch i s insS restS → Launch i t insT restT → sameOperands i s t →
    ∃ s' t' u : State, RunEnds s s' ∧ RunEnds t t' ∧ exec i (accept (encode i) s) = .next u ∧
      s'.status.done = true ∧ t'.status.done = true ∧ s'.res = u.res ∧ t'.res = u.res ∧
      { s'.status with haz := false } = { u.status with haz := false } ∧
      { t'.status with haz := false } = { u.status with haz := false }

/-! ## The split machine -/

/-- A step of the host or the platform, and every step while idle, is the atomic machine's in the split machine
(43_scan_walk.md section 6, rule R154, and 20_memory.md section 7a, rules R56, R59, decisions D5, D26): the same next state
of the block, the same stop; and no command stays in progress in an idle block, a reset one among them. -/
def Obligations.SplitHostStepsAreAtomicOnes : Prop :=
  ∀ p : Split, (p.host.status.busy = false ∨ ∃ x rest, p.host.inputs = x :: rest ∧ x ≠ .block) →
    (∀ t, step p.host = .next t →
      splitStep p = .next ⟨t, if t.status.busy && p.host.status.busy then p.job else none⟩) ∧
    (∀ e, step p.host = .fault e → splitStep p = .fault e) ∧
    ∀ e, step p.host = .refused e → splitStep p = .refused e

/-- A command left alone in the split machine (43_scan_walk.md section 6, rule R154): within a number of turns linear in
BUF_LEN it ends in the state of the atomic step, illegal words among it, and until then nothing the host can see has
changed: STATUS keeps BUSY = 1 and its result fields as acceptance left them. That the result registers keep theirs too is
the model's choice (log 22), and the turns after the last input are as well (log 1). -/
def Obligations.SplitCommandEndsLikeTheAtomicStep : Prop :=
  ∀ s : State, s.status.busy = true → s.inputs = [] →
    ∃ n t, 1 ≤ n ∧ n ≤ 6 * s.len + 16 ∧ Host.Core.run splitCore n ⟨s, none⟩ = .next ⟨t, none⟩ ∧ step s = .next t ∧
      t.status.busy = false ∧
      ∀ k, k < n → ∃ j, Host.Core.run splitCore k ⟨s, none⟩ = .next ⟨s, j⟩

/-- The split and the atomic machine have the same host-visible behaviour as long as the buffer does not change during
the command (43_scan_walk.md section 6, rule R154, decision D26; the premises are those of 70_reset_and_hazards.md R201).
The host's accesses and the finer turns stand in any order. While the command is in progress the block is, in every field,
where the atomic machine is after the same accesses and no turn, so every answer and STATUS are the same (that the result
registers are as well, and the draws of log 3, is the model's choice, log 22); it completes
when it has had the turns it needs, at the latest the last of the given number; and then the block is in every field where
the atomic machine is that had its one turn at that place. -/
def Obligations.SplitHostSeesTheAtomicMachine : Prop :=
  ∀ (s : State) (ins rest : List Input), s.buffer.wf = true → s.status.busy = true → s.inputs = ins ++ rest →
    LP_WORD_ACCESS ins → LP_BUFFER_STABLE s.len ins → Undisturbed ins →
    (∃ p : Split, Host.Core.run splitCore ins.length ⟨s, none⟩ = .next p ∧ p.host.status.busy = true ∧
      ins.count Input.block < 6 * s.len + 16 ∧
      Host.Core.run core (withoutTurns ins).length { s with inputs := withoutTurns ins ++ rest } = .next p.host) ∨
    ∃ (before after : List Input) (t : State), ins = before ++ .block :: after ∧
      (before ++ [Input.block]).count Input.block ≤ 6 * s.len + 16 ∧
      Host.Core.run splitCore (before.length + 1) ⟨s, none⟩ = .next ⟨t, none⟩ ∧ t.status.busy = false ∧
      Host.Core.run core ((withoutTurns before).length + 1)
        { s with inputs := withoutTurns before ++ .block :: (after ++ rest) } = .next t
end

