-- ==== Sys2Proof/Laws/Bits.lean ====
section
/-! SUPPORT. Packed registers as numbers: the laws that turn a packing into sums and a field into a quotient, so that
omega closes what is left. -/

namespace Sys2Proof.Machine

theorem toNat_append_add {m n : Nat} (x : BitVec m) (y : BitVec n) : (x ++ y).toNat = x.toNat * 2 ^ n + y.toNat := by
  rw [BitVec.toNat_append, ← Nat.shiftLeft_add_eq_or_of_lt y.isLt, Nat.shiftLeft_eq]

theorem extractLsb'_toNat_div {n : Nat} (x : BitVec n) (i l : Nat) :
    (x.extractLsb' i l).toNat = x.toNat / 2 ^ i % 2 ^ l := by
  rw [BitVec.extractLsb'_toNat, Nat.shiftRight_eq_div_pow]

theorem getLsbD_toNat_div {n : Nat} (x : BitVec n) (i : Nat) : (x.getLsbD i).toNat = x.toNat / 2 ^ i % 2 := by
  rw [BitVec.getLsbD, Nat.testBit_eq_decide_div_mod_eq]
  rcases Nat.mod_two_eq_zero_or_one (x.toNat / 2 ^ i) with h | h <;> simp [h]

theorem bool_eq_of_toNat {a b : Bool} (h : a.toNat = b.toNat) : a = b := by cases a <;> cases b <;> simp_all

theorem flagBit_toNat (b : Bool) : (flagBit b).toNat = b.toNat := by cases b <;> rfl

/-- STATUS as a number (10_state.md R12). -/
theorem Status.word_toNat (t : Status) :
    t.word.toNat = t.busy.toNat + 2 * t.done.toNat + 16 * t.result.code.toNat + 256 * t.syncFound.toNat +
      512 * t.markFound.toNat + 1024 * t.markId.code.toNat + 4096 * t.src.toNat + 8192 * t.trunc.toNat +
      16384 * t.stop.code.toNat + 65536 * t.haz.toNat + 131072 * t.metaOut.code.toNat := by
  simp only [Status.word, toNat_append_add, flagBit_toNat]
  simp
  omega

/-- HDR_FLAGS as a number (10_state.md R17). -/
theorem HdrFlags.word_toNat (f : HdrFlags) :
    f.word.toNat = f.valid.toNat + 2 * f.pad.toNat + 4 * f.srIdx.toNat + 16 * f.brIdx.toNat + 256 * f.prot.toNat := by
  simp only [HdrFlags.word, toNat_append_add, flagBit_toNat]
  simp
  omega

/-- CTRL as a number (10_state.md R13). -/
theorem Ctrl.word_toNat (c : Ctrl) : c.word.toNat = c.syncMode.bit.toNat + 2 * c.noMeta.toNat := by
  simp only [Ctrl.word, toNat_append_add, BitVec.toNat_ofBool]
  simp
  omega

/-- BUF_LEN as a number (10_state.md R14). -/
theorem bufLenWord_toNat (n : BitVec 31) : (bufLenWord n).toNat = n.toNat := by
  simp only [bufLenWord, toNat_append_add]
  simp

/-- FS_IN as a number (10_state.md R16). -/
theorem FsIn.word_toNat (f : FsIn) :
    f.word.toNat = f.srHz.toNat + 65536 * f.brKbps.toNat + 2147483648 * f.pad.toNat := by
  simp only [FsIn.word, toNat_append_add, BitVec.toNat_ofBool]
  simp
  omega

end Sys2Proof.Machine
end

