-- ==== Sys2Proof/Laws/Memory.lean ====
section
/-! SUPPORT. The laws of the buffer: a read after a write, and that a write keeps the canonical form. -/

namespace Sys2Proof.Machine

@[simp] theorem Memory.read_nil (a : Nat) : Memory.read [] a = Memory.unlisted := rfl

theorem Memory.read_cons (k : Nat) (v : Byte) (rest : Memory) (a : Nat) :
    Memory.read ((k, v) :: rest) a =
      if a < k then Memory.unlisted else if a = k then v else Memory.read rest a := rfl

/-- Below the lowest entry every offset is unlisted. -/
theorem Memory.read_of_lt {m : Memory} {lo a : Nat} (h : Memory.wfFrom lo m = true) (ha : a < lo) :
    m.read a = Memory.unlisted := by
  cases m with
  | nil => rfl
  | cons c rest =>
    obtain ⟨k, v⟩ := c
    simp only [Memory.wfFrom, Bool.and_eq_true, decide_eq_true_eq] at h
    rw [Memory.read_cons, if_pos (by omega)]

/-- The canonical form of a listed buffer, one entry at a time. -/
theorem Memory.wfFrom_cons (lo k : Nat) (v : Byte) (rest : Memory) :
    Memory.wfFrom lo ((k, v) :: rest) = true ↔
      lo ≤ k ∧ k < bufSpace ∧ v ≠ Memory.unlisted ∧ Memory.wfFrom (k + 1) rest = true := by
  simp [Memory.wfFrom, and_assoc]

theorem Memory.wfFrom_mono {m : Memory} {lo lo' : Nat} (h : Memory.wfFrom lo m = true) (hl : lo' ≤ lo) :
    Memory.wfFrom lo' m = true := by
  cases m with
  | nil => rfl
  | cons c rest =>
    obtain ⟨k, v⟩ := c
    rw [Memory.wfFrom_cons] at h ⊢
    exact ⟨by omega, h.2⟩

theorem Memory.cons_wfFrom {a lo : Nat} {b : Byte} {rest : Memory} (hl : lo ≤ a) (ha : a < bufSpace)
    (h : Memory.wfFrom (a + 1) rest = true) : Memory.wfFrom lo (Memory.cons a b rest) = true := by
  unfold Memory.cons
  split
  · exact Memory.wfFrom_mono h (by omega)
  · exact (Memory.wfFrom_cons ..).2 ⟨hl, ha, ‹_›, h⟩

/-- What the list with one byte put before it reads as. -/
theorem Memory.cons_read {a : Nat} {b : Byte} {rest : Memory} (h : Memory.wfFrom (a + 1) rest = true) (c : Nat) :
    (Memory.cons a b rest).read c = if c = a then b else rest.read c := by
  by_cases hc : c < a + 1
  · have := Memory.read_of_lt h hc
    unfold Memory.cons
    by_cases hb : b = Memory.unlisted
    · rw [if_pos hb, this, hb]; split <;> rfl
    · rw [if_neg hb, Memory.read_cons, this]
      split
      · rw [if_neg (by omega)]
      · rfl
  · unfold Memory.cons
    split
    · rw [if_neg (by omega)]
    · rw [Memory.read_cons, if_neg (by omega)]

theorem Memory.write_wfFrom {m : Memory} {lo a : Nat} {b : Byte} (h : Memory.wfFrom lo m = true) (hl : lo ≤ a)
    (ha : a < bufSpace) : Memory.wfFrom lo (m.write a b) = true := by
  induction m generalizing lo with
  | nil => exact Memory.cons_wfFrom hl ha rfl
  | cons c rest ih =>
    obtain ⟨k, v⟩ := c
    have hw := (Memory.wfFrom_cons ..).1 h
    unfold Memory.write
    split
    · exact Memory.cons_wfFrom hl ha ((Memory.wfFrom_cons ..).2 ⟨by omega, hw.2⟩)
    · split
      · exact Memory.cons_wfFrom hl ha (by subst a; exact hw.2.2.2)
      · exact (Memory.wfFrom_cons ..).2 ⟨hw.1, hw.2.1, hw.2.2.1, ih hw.2.2.2 (by omega)⟩

/-- Every write keeps the canonical form. -/
theorem Memory.write_wf {m : Memory} {a : Nat} {b : Byte} (h : m.wf = true) (ha : a < bufSpace) :
    (m.write a b).wf = true := Memory.write_wfFrom h (Nat.zero_le a) ha

/-- The memory of the reset state is in canonical form. -/
theorem State.reset_buffer_wf : State.reset.buffer.wf = true := rfl

theorem Memory.read_write_from {m : Memory} {lo : Nat} (h : Memory.wfFrom lo m = true) (a : Nat) (b : Byte) (c : Nat) :
    (m.write a b).read c = if c = a then b else m.read c := by
  induction m generalizing lo with
  | nil => exact Memory.cons_read rfl c
  | cons e rest ih =>
    obtain ⟨k, v⟩ := e
    have hw := (Memory.wfFrom_cons ..).1 h
    unfold Memory.write
    split
    · exact Memory.cons_read ((Memory.wfFrom_cons ..).2 ⟨by omega, hw.2⟩) c
    · split
      · subst a
        rw [Memory.cons_read hw.2.2.2, Memory.read_cons]
        by_cases hc : c = k
        · simp [hc]
        · rw [if_neg hc, if_neg hc, if_neg hc]
          split
          · exact Memory.read_of_lt hw.2.2.2 (by omega)
          · rfl
      · rw [Memory.read_cons, ih hw.2.2.2, Memory.read_cons]
        by_cases hc : c < k
        · rw [if_pos hc, if_pos hc, if_neg (by omega)]
        · rw [if_neg hc, if_neg hc]
          by_cases hk : c = k
          · rw [if_pos hk, if_pos hk, if_neg (by omega)]
          · rw [if_neg hk, if_neg hk]

/-- A read after a write: the byte written at its offset, and what was there everywhere else. -/
theorem Memory.read_write {m : Memory} (h : m.wf = true) (a : Nat) (b : Byte) (c : Nat) :
    (m.write a b).read c = if c = a then b else m.read c := Memory.read_write_from h a b c

end Sys2Proof.Machine
end

