-- ==== Sys2Proof/Laws/Ops.lean ====
section
/-! SUPPORT. One lemma per shared operation that says everything it can do, for proofs to cite instead of unfolding it. -/

namespace Sys2Proof.Machine

/-! ## The search -/

/-- The search answers the lowest offset of its range that satisfies the predicate. -/
theorem firstOffset_eq_some (p : Nat → Bool) (n i j : Nat) :
    firstOffset p n i = some j ↔ i ≤ j ∧ j < i + n ∧ p j = true ∧ ∀ k, i ≤ k → k < j → p k = false := by
  induction n generalizing i with
  | zero => simp [firstOffset]; omega
  | succ n ih =>
    unfold firstOffset
    by_cases hp : p i = true
    · rw [if_pos hp]
      constructor
      · intro h
        obtain rfl := Option.some.inj h
        exact ⟨le_refl i, by omega, hp, fun k _ _ => by omega⟩
      · rintro ⟨hij, -, -, hk⟩
        rcases Nat.lt_or_eq_of_le hij with h | h
        · exact absurd hp (by simp [hk i (le_refl i) h])
        · rw [h]
    · rw [if_neg hp, ih]
      constructor
      · rintro ⟨h1, h2, h3, h4⟩
        refine ⟨by omega, by omega, h3, fun k hk1 hk2 => ?_⟩
        rcases Nat.lt_or_eq_of_le hk1 with h | h
        · exact h4 k h hk2
        · rw [← h]; simpa using hp
      · rintro ⟨h1, h2, h3, h4⟩
        have : i ≠ j := fun h => hp (h ▸ h3)
        exact ⟨by omega, by omega, h3, fun k hk1 hk2 => h4 k (by omega) hk2⟩

/-- The search fails exactly when no offset of its range satisfies the predicate. -/
theorem firstOffset_eq_none (p : Nat → Bool) (n i : Nat) :
    firstOffset p n i = none ↔ ∀ k, i ≤ k → k < i + n → p k = false := by
  induction n generalizing i with
  | zero => simp [firstOffset]; omega
  | succ n ih =>
    unfold firstOffset
    by_cases hp : p i = true
    · rw [if_pos hp]
      simp only [reduceCtorEq, false_iff, not_forall]
      exact ⟨i, le_refl i, by omega, by simp [hp]⟩
    · rw [if_neg hp, ih]
      constructor
      · intro h k hk1 hk2
        rcases Nat.lt_or_eq_of_le hk1 with h' | h'
        · exact h k h' (by omega)
        · rw [← h']; simpa using hp
      · exact fun h k hk1 hk2 => h k (by omega) (by omega)

/-! ## The register window -/

/-- Every offset of a register is found again. -/
@[simp] theorem Reg.at?_offset (r : Reg) : Reg.at? r.offset = some r := by cases r <;> rfl

theorem Reg.at?_eq_some {off : Nat} {r : Reg} : Reg.at? off = some r ↔ r.offset = off := by
  constructor
  · intro h
    simpa using List.find?_some h
  · rintro rfl
    exact Reg.at?_offset r

/-- The registers stand at the multiples of 4 below 0x40. -/
theorem Reg.offset_form (r : Reg) : r.offset % 4 = 0 ∧ r.offset < 0x40 := by cases r <;> decide

/-- A register access of 32 bits reaches its register. -/
@[simp] theorem accessReg_offset (r : Reg) : accessReg r.offset 32 = .ok r := by cases r <;> rfl

/-- Everything an access can do: reach the register at its offset with 32 bits, or be refused. -/
theorem accessReg_cases (off bits : Nat) :
    (∃ r, bits = 32 ∧ r.offset = off ∧ accessReg off bits = .ok r) ∨ ∃ e, accessReg off bits = .error e := by
  unfold accessReg
  split
  · exact .inr ⟨_, rfl⟩
  · split
    · exact .inr ⟨_, rfl⟩
    · split
      · rename_i h1 h2 _ r hr
        exact .inl ⟨r, by simpa using h1, Reg.at?_eq_some.1 hr, rfl⟩
      · exact .inr ⟨_, rfl⟩

/-- Registers of different names have different offsets, so REG_BASE gives them different host addresses. -/
theorem Reg.hostAddress_inj {q r : Reg} (h : q.hostAddress = r.hostAddress) : q = r := by
  have : q.offset = r.offset := by unfold Reg.hostAddress at h; omega
  have h2 := Reg.at?_offset q
  rw [this, Reg.at?_offset] at h2
  exact (Option.some.inj h2).symm

/-! ## Completion -/

/-- finish and complete together: the end of a command. -/
theorem complete_finish (c : ResultCode) (s : State) :
    complete (finish c s) = { s with status := { s.status with result := c, busy := false, done := true } } := rfl

/-- What the latches decode to when they hold a legal word. -/
theorem latched_of_op {s : State} {i : Instr} (hb : s.bad = false) (ho : s.op = encodeOp i) : latched s = some i := by
  unfold latched
  rw [hb, ho]
  cases i <;> rfl

/-! ## Operands -/

/-- Bytes at an offset, one by one. -/
theorem bytesAt_iff (m : Memory) (p : Nat) (bs : List Byte) :
    bytesAt m p bs = true ↔ ∀ j, j < bs.length → bs[j]? = some (m.read (p + j)) := by
  induction bs generalizing p with
  | nil => simp [bytesAt]
  | cons b rest ih =>
    simp only [bytesAt, Bool.and_eq_true, beq_iff_eq, ih, List.length_cons]
    constructor
    · rintro ⟨h1, h2⟩ j hj
      cases j with
      | zero => simp [h1]
      | succ j => simpa [Nat.add_assoc, Nat.add_comm 1 j] using h2 j (by omega)
    · intro h
      refine ⟨by simpa using (h 0 (by omega)).symm, fun j hj => ?_⟩
      simpa [Nat.add_assoc, Nat.add_comm 1 j] using h (j + 1) (by omega)

/-- A marker occurs in the machine's sense exactly when it does in the rule's (42_metadata_shortcut.md R120). -/
theorem occurs_iff (s : State) (k : Marker) (p : Nat) : occurs s.buffer s.len k p = true ↔ OccursAt s k p := by
  unfold occurs OccursAt
  rw [Bool.and_eq_true, decide_eq_true_eq, bytesAt_iff]

/-- The sync predicate in the machine's sense, in bounds, is the rule's (43_scan_walk.md R140). -/
theorem isSync_iff (s : State) (i : Nat) :
    i + 1 < s.len ∧ isSync s.ctrl.syncMode s.buffer i = true ↔ SyncAt s i := by
  unfold SyncAt isSync
  cases s.ctrl.syncMode <;> simp

/-- BUF_LEN is below 2^31 in every state, so no offset the block computes wraps (43_scan_walk.md R152). -/
theorem State.len_lt (s : State) : s.len < 2 ^ 31 := s.bufLen.isLt

end Sys2Proof.Machine
end

