-- ==== Sys2Proof/Laws/PerInstr.lean ====
section
/-! SUPPORT. Statements made per command, with one lemma for each. -/

namespace Sys2Proof.Laws

/-- A command's word is well formed and decodes to it, as a word and as the table's row (30_encoding.md R70). -/
def RoundTrip.Statement (i : Instr) : Prop :=
  i.wellFormed = true ∧ decodeWord (encode i) = .ok i ∧ decodeTableWord 32 (encode i).toNat = some i

theorem RoundTrip.decode : RoundTrip.Statement .decode := by unfold RoundTrip.Statement; decide

theorem RoundTrip.fsize : RoundTrip.Statement .fsize := by unfold RoundTrip.Statement; decide

theorem RoundTrip.seek : RoundTrip.Statement .seek := by unfold RoundTrip.Statement; decide

theorem RoundTrip.walk : RoundTrip.Statement .walk := by unfold RoundTrip.Statement; decide

theorem RoundTrip.stored : RoundTrip.Statement .stored := by unfold RoundTrip.Statement; decide

theorem RoundTrip.auto : RoundTrip.Statement .auto := by unfold RoundTrip.Statement; decide

end Sys2Proof.Laws
end

