-- ==== Sys2Proof/Laws/State.lean ====
section
/-! SUPPORT. One lemma per field of State for each update the operations and commands make: what the field is after it.
All hold by definition, so that no proof unfolds a record update. -/

namespace Sys2Proof.Machine

/-! ### accept -/

@[simp] theorem accept_status (w : Word) (s : State) :
    (accept w s).status = { s.status.cleared with done := false, busy := true } := rfl
@[simp] theorem accept_ctrl (w : Word) (s : State) : (accept w s).ctrl = s.ctrl := rfl
@[simp] theorem accept_bufLen (w : Word) (s : State) : (accept w s).bufLen = s.bufLen := rfl
@[simp] theorem accept_hdrIn (w : Word) (s : State) : (accept w s).hdrIn = s.hdrIn := rfl
@[simp] theorem accept_fsIn (w : Word) (s : State) : (accept w s).fsIn = s.fsIn := rfl
@[simp] theorem accept_res (w : Word) (s : State) : (accept w s).res = Results.zero := rfl
@[simp] theorem accept_op (w : Word) (s : State) : (accept w s).op = opField w := rfl
@[simp] theorem accept_bad (w : Word) (s : State) : (accept w s).bad = badWord w := rfl
@[simp] theorem accept_buffer (w : Word) (s : State) : (accept w s).buffer = s.buffer := rfl
@[simp] theorem accept_inputs (w : Word) (s : State) : (accept w s).inputs = s.inputs := rfl
@[simp] theorem accept_reads (w : Word) (s : State) : (accept w s).reads = s.reads := rfl
@[simp] theorem accept_draws (w : Word) (s : State) : (accept w s).draws = s.draws := rfl

/-! ### finish -/

@[simp] theorem finish_status (c : ResultCode) (s : State) :
    (finish c s).status = { s.status with result := c } := rfl
@[simp] theorem finish_ctrl (c : ResultCode) (s : State) : (finish c s).ctrl = s.ctrl := rfl
@[simp] theorem finish_bufLen (c : ResultCode) (s : State) : (finish c s).bufLen = s.bufLen := rfl
@[simp] theorem finish_hdrIn (c : ResultCode) (s : State) : (finish c s).hdrIn = s.hdrIn := rfl
@[simp] theorem finish_fsIn (c : ResultCode) (s : State) : (finish c s).fsIn = s.fsIn := rfl
@[simp] theorem finish_res (c : ResultCode) (s : State) : (finish c s).res = s.res := rfl
@[simp] theorem finish_op (c : ResultCode) (s : State) : (finish c s).op = s.op := rfl
@[simp] theorem finish_bad (c : ResultCode) (s : State) : (finish c s).bad = s.bad := rfl
@[simp] theorem finish_buffer (c : ResultCode) (s : State) : (finish c s).buffer = s.buffer := rfl
@[simp] theorem finish_inputs (c : ResultCode) (s : State) : (finish c s).inputs = s.inputs := rfl
@[simp] theorem finish_reads (c : ResultCode) (s : State) : (finish c s).reads = s.reads := rfl
@[simp] theorem finish_draws (c : ResultCode) (s : State) : (finish c s).draws = s.draws := rfl

/-! ### complete -/

@[simp] theorem complete_status (s : State) :
    (complete s).status = { s.status with busy := false, done := true } := rfl
@[simp] theorem complete_ctrl (s : State) : (complete s).ctrl = s.ctrl := rfl
@[simp] theorem complete_bufLen (s : State) : (complete s).bufLen = s.bufLen := rfl
@[simp] theorem complete_hdrIn (s : State) : (complete s).hdrIn = s.hdrIn := rfl
@[simp] theorem complete_fsIn (s : State) : (complete s).fsIn = s.fsIn := rfl
@[simp] theorem complete_res (s : State) : (complete s).res = s.res := rfl
@[simp] theorem complete_op (s : State) : (complete s).op = s.op := rfl
@[simp] theorem complete_bad (s : State) : (complete s).bad = s.bad := rfl
@[simp] theorem complete_buffer (s : State) : (complete s).buffer = s.buffer := rfl
@[simp] theorem complete_inputs (s : State) : (complete s).inputs = s.inputs := rfl
@[simp] theorem complete_reads (s : State) : (complete s).reads = s.reads := rfl
@[simp] theorem complete_draws (s : State) : (complete s).draws = s.draws := rfl

/-! ### completeIllegal -/

@[simp] theorem completeIllegal_status (s : State) :
    (completeIllegal s).status = { s.status with result := .illegalCmd, busy := false, done := true } := rfl
@[simp] theorem completeIllegal_ctrl (s : State) : (completeIllegal s).ctrl = s.ctrl := rfl
@[simp] theorem completeIllegal_bufLen (s : State) : (completeIllegal s).bufLen = s.bufLen := rfl
@[simp] theorem completeIllegal_hdrIn (s : State) : (completeIllegal s).hdrIn = s.hdrIn := rfl
@[simp] theorem completeIllegal_fsIn (s : State) : (completeIllegal s).fsIn = s.fsIn := rfl
@[simp] theorem completeIllegal_res (s : State) : (completeIllegal s).res = s.res := rfl
@[simp] theorem completeIllegal_op (s : State) : (completeIllegal s).op = s.op := rfl
@[simp] theorem completeIllegal_bad (s : State) : (completeIllegal s).bad = s.bad := rfl
@[simp] theorem completeIllegal_buffer (s : State) : (completeIllegal s).buffer = s.buffer := rfl
@[simp] theorem completeIllegal_inputs (s : State) : (completeIllegal s).inputs = s.inputs := rfl
@[simp] theorem completeIllegal_reads (s : State) : (completeIllegal s).reads = s.reads := rfl
@[simp] theorem completeIllegal_draws (s : State) : (completeIllegal s).draws = s.draws := rfl

/-! ### recordRead -/

@[simp] theorem recordRead_status (r : Reg) (v : Word) (s : State) : (recordRead r v s).status = s.status := rfl
@[simp] theorem recordRead_ctrl (r : Reg) (v : Word) (s : State) : (recordRead r v s).ctrl = s.ctrl := rfl
@[simp] theorem recordRead_bufLen (r : Reg) (v : Word) (s : State) : (recordRead r v s).bufLen = s.bufLen := rfl
@[simp] theorem recordRead_hdrIn (r : Reg) (v : Word) (s : State) : (recordRead r v s).hdrIn = s.hdrIn := rfl
@[simp] theorem recordRead_fsIn (r : Reg) (v : Word) (s : State) : (recordRead r v s).fsIn = s.fsIn := rfl
@[simp] theorem recordRead_res (r : Reg) (v : Word) (s : State) : (recordRead r v s).res = s.res := rfl
@[simp] theorem recordRead_op (r : Reg) (v : Word) (s : State) : (recordRead r v s).op = s.op := rfl
@[simp] theorem recordRead_bad (r : Reg) (v : Word) (s : State) : (recordRead r v s).bad = s.bad := rfl
@[simp] theorem recordRead_buffer (r : Reg) (v : Word) (s : State) : (recordRead r v s).buffer = s.buffer := rfl
@[simp] theorem recordRead_inputs (r : Reg) (v : Word) (s : State) : (recordRead r v s).inputs = s.inputs := rfl
@[simp] theorem recordRead_reads (r : Reg) (v : Word) (s : State) :
    (recordRead r v s).reads = s.reads ++ [⟨r, v⟩] := rfl
@[simp] theorem recordRead_draws (r : Reg) (v : Word) (s : State) : (recordRead r v s).draws = s.draws := rfl

/-! ### drawRead -/

@[simp] theorem drawRead_status (r : Reg) (s : State) : (drawRead r s).status = s.status := rfl
@[simp] theorem drawRead_ctrl (r : Reg) (s : State) : (drawRead r s).ctrl = s.ctrl := rfl
@[simp] theorem drawRead_bufLen (r : Reg) (s : State) : (drawRead r s).bufLen = s.bufLen := rfl
@[simp] theorem drawRead_hdrIn (r : Reg) (s : State) : (drawRead r s).hdrIn = s.hdrIn := rfl
@[simp] theorem drawRead_fsIn (r : Reg) (s : State) : (drawRead r s).fsIn = s.fsIn := rfl
@[simp] theorem drawRead_res (r : Reg) (s : State) : (drawRead r s).res = s.res := rfl
@[simp] theorem drawRead_op (r : Reg) (s : State) : (drawRead r s).op = s.op := rfl
@[simp] theorem drawRead_bad (r : Reg) (s : State) : (drawRead r s).bad = s.bad := rfl
@[simp] theorem drawRead_buffer (r : Reg) (s : State) : (drawRead r s).buffer = s.buffer := rfl
@[simp] theorem drawRead_inputs (r : Reg) (s : State) : (drawRead r s).inputs = s.inputs := rfl
@[simp] theorem drawRead_reads (r : Reg) (s : State) :
    (drawRead r s).reads = s.reads ++ [⟨r, Config.busyRead s.draws⟩] := rfl
@[simp] theorem drawRead_draws (r : Reg) (s : State) : (drawRead r s).draws = s.draws + 1 := rfl

/-! ### raiseHaz -/

@[simp] theorem raiseHaz_status (s : State) : (raiseHaz s).status = { s.status with haz := true } := rfl
@[simp] theorem raiseHaz_ctrl (s : State) : (raiseHaz s).ctrl = s.ctrl := rfl
@[simp] theorem raiseHaz_bufLen (s : State) : (raiseHaz s).bufLen = s.bufLen := rfl
@[simp] theorem raiseHaz_hdrIn (s : State) : (raiseHaz s).hdrIn = s.hdrIn := rfl
@[simp] theorem raiseHaz_fsIn (s : State) : (raiseHaz s).fsIn = s.fsIn := rfl
@[simp] theorem raiseHaz_res (s : State) : (raiseHaz s).res = s.res := rfl
@[simp] theorem raiseHaz_op (s : State) : (raiseHaz s).op = s.op := rfl
@[simp] theorem raiseHaz_bad (s : State) : (raiseHaz s).bad = s.bad := rfl
@[simp] theorem raiseHaz_buffer (s : State) : (raiseHaz s).buffer = s.buffer := rfl
@[simp] theorem raiseHaz_inputs (s : State) : (raiseHaz s).inputs = s.inputs := rfl
@[simp] theorem raiseHaz_reads (s : State) : (raiseHaz s).reads = s.reads := rfl
@[simp] theorem raiseHaz_draws (s : State) : (raiseHaz s).draws = s.draws := rfl

/-! ### writeStatus -/

@[simp] theorem writeStatus_status (v : Word) (s : State) :
    (writeStatus v s).status = { s.status with haz := s.status.haz && !v.getLsbD 16 } := rfl
@[simp] theorem writeStatus_ctrl (v : Word) (s : State) : (writeStatus v s).ctrl = s.ctrl := rfl
@[simp] theorem writeStatus_bufLen (v : Word) (s : State) : (writeStatus v s).bufLen = s.bufLen := rfl
@[simp] theorem writeStatus_hdrIn (v : Word) (s : State) : (writeStatus v s).hdrIn = s.hdrIn := rfl
@[simp] theorem writeStatus_fsIn (v : Word) (s : State) : (writeStatus v s).fsIn = s.fsIn := rfl
@[simp] theorem writeStatus_res (v : Word) (s : State) : (writeStatus v s).res = s.res := rfl
@[simp] theorem writeStatus_op (v : Word) (s : State) : (writeStatus v s).op = s.op := rfl
@[simp] theorem writeStatus_bad (v : Word) (s : State) : (writeStatus v s).bad = s.bad := rfl
@[simp] theorem writeStatus_buffer (v : Word) (s : State) : (writeStatus v s).buffer = s.buffer := rfl
@[simp] theorem writeStatus_inputs (v : Word) (s : State) : (writeStatus v s).inputs = s.inputs := rfl
@[simp] theorem writeStatus_reads (v : Word) (s : State) : (writeStatus v s).reads = s.reads := rfl
@[simp] theorem writeStatus_draws (v : Word) (s : State) : (writeStatus v s).draws = s.draws := rfl

/-! ### resetEvent -/

@[simp] theorem resetEvent_status (s : State) : (resetEvent s).status = Status.zero := rfl
@[simp] theorem resetEvent_ctrl (s : State) : (resetEvent s).ctrl = ⟨.strict, false⟩ := rfl
@[simp] theorem resetEvent_bufLen (s : State) : (resetEvent s).bufLen = 0 := rfl
@[simp] theorem resetEvent_hdrIn (s : State) : (resetEvent s).hdrIn = 0 := rfl
@[simp] theorem resetEvent_fsIn (s : State) : (resetEvent s).fsIn = ⟨0, 0, false⟩ := rfl
@[simp] theorem resetEvent_res (s : State) : (resetEvent s).res = Results.zero := rfl
@[simp] theorem resetEvent_op (s : State) : (resetEvent s).op = 0 := rfl
@[simp] theorem resetEvent_bad (s : State) : (resetEvent s).bad = false := rfl
@[simp] theorem resetEvent_buffer (s : State) : (resetEvent s).buffer = s.buffer := rfl
@[simp] theorem resetEvent_inputs (s : State) : (resetEvent s).inputs = s.inputs := rfl
@[simp] theorem resetEvent_reads (s : State) : (resetEvent s).reads = s.reads := rfl
@[simp] theorem resetEvent_draws (s : State) : (resetEvent s).draws = s.draws := rfl

/-! ### writeFsize -/

@[simp] theorem writeFsize_status (n : Nat) (s : State) : (writeFsize n s).status = s.status := rfl
@[simp] theorem writeFsize_ctrl (n : Nat) (s : State) : (writeFsize n s).ctrl = s.ctrl := rfl
@[simp] theorem writeFsize_bufLen (n : Nat) (s : State) : (writeFsize n s).bufLen = s.bufLen := rfl
@[simp] theorem writeFsize_hdrIn (n : Nat) (s : State) : (writeFsize n s).hdrIn = s.hdrIn := rfl
@[simp] theorem writeFsize_fsIn (n : Nat) (s : State) : (writeFsize n s).fsIn = s.fsIn := rfl
@[simp] theorem writeFsize_res (n : Nat) (s : State) :
    (writeFsize n s).res = { s.res with fsize := BitVec.ofNat 32 n } := rfl
@[simp] theorem writeFsize_op (n : Nat) (s : State) : (writeFsize n s).op = s.op := rfl
@[simp] theorem writeFsize_bad (n : Nat) (s : State) : (writeFsize n s).bad = s.bad := rfl
@[simp] theorem writeFsize_buffer (n : Nat) (s : State) : (writeFsize n s).buffer = s.buffer := rfl
@[simp] theorem writeFsize_inputs (n : Nat) (s : State) : (writeFsize n s).inputs = s.inputs := rfl
@[simp] theorem writeFsize_reads (n : Nat) (s : State) : (writeFsize n s).reads = s.reads := rfl
@[simp] theorem writeFsize_draws (n : Nat) (s : State) : (writeFsize n s).draws = s.draws := rfl

/-! ### writeHeader -/

@[simp] theorem writeHeader_status (w : Word) (h : Header) (n : Nat) (s : State) :
    (writeHeader w h n s).status = s.status := rfl
@[simp] theorem writeHeader_ctrl (w : Word) (h : Header) (n : Nat) (s : State) :
    (writeHeader w h n s).ctrl = s.ctrl := rfl
@[simp] theorem writeHeader_bufLen (w : Word) (h : Header) (n : Nat) (s : State) :
    (writeHeader w h n s).bufLen = s.bufLen := rfl
@[simp] theorem writeHeader_hdrIn (w : Word) (h : Header) (n : Nat) (s : State) :
    (writeHeader w h n s).hdrIn = s.hdrIn := rfl
@[simp] theorem writeHeader_fsIn (w : Word) (h : Header) (n : Nat) (s : State) :
    (writeHeader w h n s).fsIn = s.fsIn := rfl
@[simp] theorem writeHeader_res (w : Word) (h : Header) (n : Nat) (s : State) : (writeHeader w h n s).res = { s.res with
      hdrFlags := headerFlags w
      bitrate := h.bitRateKbps.setWidth 32
      srate := h.samplingRateHz.setWidth 32
      fsize := BitVec.ofNat 32 n } := rfl
@[simp] theorem writeHeader_op (w : Word) (h : Header) (n : Nat) (s : State) : (writeHeader w h n s).op = s.op := rfl
@[simp] theorem writeHeader_bad (w : Word) (h : Header) (n : Nat) (s : State) :
    (writeHeader w h n s).bad = s.bad := rfl
@[simp] theorem writeHeader_buffer (w : Word) (h : Header) (n : Nat) (s : State) :
    (writeHeader w h n s).buffer = s.buffer := rfl
@[simp] theorem writeHeader_inputs (w : Word) (h : Header) (n : Nat) (s : State) :
    (writeHeader w h n s).inputs = s.inputs := rfl
@[simp] theorem writeHeader_reads (w : Word) (h : Header) (n : Nat) (s : State) :
    (writeHeader w h n s).reads = s.reads := rfl
@[simp] theorem writeHeader_draws (w : Word) (h : Header) (n : Nat) (s : State) :
    (writeHeader w h n s).draws = s.draws := rfl

/-! ### writeMark -/

@[simp] theorem writeMark_status (k : Marker) (p : Nat) (t : Bool) (s : State) :
    (writeMark k p t s).status = { s.status with markFound := true, markId := k, trunc := t } := rfl
@[simp] theorem writeMark_ctrl (k : Marker) (p : Nat) (t : Bool) (s : State) :
    (writeMark k p t s).ctrl = s.ctrl := rfl
@[simp] theorem writeMark_bufLen (k : Marker) (p : Nat) (t : Bool) (s : State) :
    (writeMark k p t s).bufLen = s.bufLen := rfl
@[simp] theorem writeMark_hdrIn (k : Marker) (p : Nat) (t : Bool) (s : State) :
    (writeMark k p t s).hdrIn = s.hdrIn := rfl
@[simp] theorem writeMark_fsIn (k : Marker) (p : Nat) (t : Bool) (s : State) :
    (writeMark k p t s).fsIn = s.fsIn := rfl
@[simp] theorem writeMark_res (k : Marker) (p : Nat) (t : Bool) (s : State) :
    (writeMark k p t s).res = { s.res with markPos := BitVec.ofNat 32 p } := rfl
@[simp] theorem writeMark_op (k : Marker) (p : Nat) (t : Bool) (s : State) : (writeMark k p t s).op = s.op := rfl
@[simp] theorem writeMark_bad (k : Marker) (p : Nat) (t : Bool) (s : State) : (writeMark k p t s).bad = s.bad := rfl
@[simp] theorem writeMark_buffer (k : Marker) (p : Nat) (t : Bool) (s : State) :
    (writeMark k p t s).buffer = s.buffer := rfl
@[simp] theorem writeMark_inputs (k : Marker) (p : Nat) (t : Bool) (s : State) :
    (writeMark k p t s).inputs = s.inputs := rfl
@[simp] theorem writeMark_reads (k : Marker) (p : Nat) (t : Bool) (s : State) :
    (writeMark k p t s).reads = s.reads := rfl
@[simp] theorem writeMark_draws (k : Marker) (p : Nat) (t : Bool) (s : State) :
    (writeMark k p t s).draws = s.draws := rfl

/-! ### writeMeta -/

@[simp] theorem writeMeta_status (o : MetaOutcome) (s : State) :
    (writeMeta o s).status = { s.status with metaOut := o } := rfl
@[simp] theorem writeMeta_ctrl (o : MetaOutcome) (s : State) : (writeMeta o s).ctrl = s.ctrl := rfl
@[simp] theorem writeMeta_bufLen (o : MetaOutcome) (s : State) : (writeMeta o s).bufLen = s.bufLen := rfl
@[simp] theorem writeMeta_hdrIn (o : MetaOutcome) (s : State) : (writeMeta o s).hdrIn = s.hdrIn := rfl
@[simp] theorem writeMeta_fsIn (o : MetaOutcome) (s : State) : (writeMeta o s).fsIn = s.fsIn := rfl
@[simp] theorem writeMeta_res (o : MetaOutcome) (s : State) : (writeMeta o s).res = s.res := rfl
@[simp] theorem writeMeta_op (o : MetaOutcome) (s : State) : (writeMeta o s).op = s.op := rfl
@[simp] theorem writeMeta_bad (o : MetaOutcome) (s : State) : (writeMeta o s).bad = s.bad := rfl
@[simp] theorem writeMeta_buffer (o : MetaOutcome) (s : State) : (writeMeta o s).buffer = s.buffer := rfl
@[simp] theorem writeMeta_inputs (o : MetaOutcome) (s : State) : (writeMeta o s).inputs = s.inputs := rfl
@[simp] theorem writeMeta_reads (o : MetaOutcome) (s : State) : (writeMeta o s).reads = s.reads := rfl
@[simp] theorem writeMeta_draws (o : MetaOutcome) (s : State) : (writeMeta o s).draws = s.draws := rfl

/-! ### writeSrc -/

@[simp] theorem writeSrc_status (b : Bool) (s : State) : (writeSrc b s).status = { s.status with src := b } := rfl
@[simp] theorem writeSrc_ctrl (b : Bool) (s : State) : (writeSrc b s).ctrl = s.ctrl := rfl
@[simp] theorem writeSrc_bufLen (b : Bool) (s : State) : (writeSrc b s).bufLen = s.bufLen := rfl
@[simp] theorem writeSrc_hdrIn (b : Bool) (s : State) : (writeSrc b s).hdrIn = s.hdrIn := rfl
@[simp] theorem writeSrc_fsIn (b : Bool) (s : State) : (writeSrc b s).fsIn = s.fsIn := rfl
@[simp] theorem writeSrc_res (b : Bool) (s : State) : (writeSrc b s).res = s.res := rfl
@[simp] theorem writeSrc_op (b : Bool) (s : State) : (writeSrc b s).op = s.op := rfl
@[simp] theorem writeSrc_bad (b : Bool) (s : State) : (writeSrc b s).bad = s.bad := rfl
@[simp] theorem writeSrc_buffer (b : Bool) (s : State) : (writeSrc b s).buffer = s.buffer := rfl
@[simp] theorem writeSrc_inputs (b : Bool) (s : State) : (writeSrc b s).inputs = s.inputs := rfl
@[simp] theorem writeSrc_reads (b : Bool) (s : State) : (writeSrc b s).reads = s.reads := rfl
@[simp] theorem writeSrc_draws (b : Bool) (s : State) : (writeSrc b s).draws = s.draws := rfl

/-! ### writeCount -/

@[simp] theorem writeCount_status (c : Word) (s : State) : (writeCount c s).status = s.status := rfl
@[simp] theorem writeCount_ctrl (c : Word) (s : State) : (writeCount c s).ctrl = s.ctrl := rfl
@[simp] theorem writeCount_bufLen (c : Word) (s : State) : (writeCount c s).bufLen = s.bufLen := rfl
@[simp] theorem writeCount_hdrIn (c : Word) (s : State) : (writeCount c s).hdrIn = s.hdrIn := rfl
@[simp] theorem writeCount_fsIn (c : Word) (s : State) : (writeCount c s).fsIn = s.fsIn := rfl
@[simp] theorem writeCount_res (c : Word) (s : State) : (writeCount c s).res = { s.res with count := c } := rfl
@[simp] theorem writeCount_op (c : Word) (s : State) : (writeCount c s).op = s.op := rfl
@[simp] theorem writeCount_bad (c : Word) (s : State) : (writeCount c s).bad = s.bad := rfl
@[simp] theorem writeCount_buffer (c : Word) (s : State) : (writeCount c s).buffer = s.buffer := rfl
@[simp] theorem writeCount_inputs (c : Word) (s : State) : (writeCount c s).inputs = s.inputs := rfl
@[simp] theorem writeCount_reads (c : Word) (s : State) : (writeCount c s).reads = s.reads := rfl
@[simp] theorem writeCount_draws (c : Word) (s : State) : (writeCount c s).draws = s.draws := rfl

/-! ### writeSync -/

@[simp] theorem writeSync_status (i : Nat) (s : State) :
    (writeSync i s).status = { s.status with syncFound := true } := rfl
@[simp] theorem writeSync_ctrl (i : Nat) (s : State) : (writeSync i s).ctrl = s.ctrl := rfl
@[simp] theorem writeSync_bufLen (i : Nat) (s : State) : (writeSync i s).bufLen = s.bufLen := rfl
@[simp] theorem writeSync_hdrIn (i : Nat) (s : State) : (writeSync i s).hdrIn = s.hdrIn := rfl
@[simp] theorem writeSync_fsIn (i : Nat) (s : State) : (writeSync i s).fsIn = s.fsIn := rfl
@[simp] theorem writeSync_res (i : Nat) (s : State) :
    (writeSync i s).res = { s.res with syncPos := BitVec.ofNat 32 i } := rfl
@[simp] theorem writeSync_op (i : Nat) (s : State) : (writeSync i s).op = s.op := rfl
@[simp] theorem writeSync_bad (i : Nat) (s : State) : (writeSync i s).bad = s.bad := rfl
@[simp] theorem writeSync_buffer (i : Nat) (s : State) : (writeSync i s).buffer = s.buffer := rfl
@[simp] theorem writeSync_inputs (i : Nat) (s : State) : (writeSync i s).inputs = s.inputs := rfl
@[simp] theorem writeSync_reads (i : Nat) (s : State) : (writeSync i s).reads = s.reads := rfl
@[simp] theorem writeSync_draws (i : Nat) (s : State) : (writeSync i s).draws = s.draws := rfl

/-! ### writeCursor -/

@[simp] theorem writeCursor_status (c : Nat) (s : State) : (writeCursor c s).status = s.status := rfl
@[simp] theorem writeCursor_ctrl (c : Nat) (s : State) : (writeCursor c s).ctrl = s.ctrl := rfl
@[simp] theorem writeCursor_bufLen (c : Nat) (s : State) : (writeCursor c s).bufLen = s.bufLen := rfl
@[simp] theorem writeCursor_hdrIn (c : Nat) (s : State) : (writeCursor c s).hdrIn = s.hdrIn := rfl
@[simp] theorem writeCursor_fsIn (c : Nat) (s : State) : (writeCursor c s).fsIn = s.fsIn := rfl
@[simp] theorem writeCursor_res (c : Nat) (s : State) :
    (writeCursor c s).res = { s.res with cursor := BitVec.ofNat 32 c } := rfl
@[simp] theorem writeCursor_op (c : Nat) (s : State) : (writeCursor c s).op = s.op := rfl
@[simp] theorem writeCursor_bad (c : Nat) (s : State) : (writeCursor c s).bad = s.bad := rfl
@[simp] theorem writeCursor_buffer (c : Nat) (s : State) : (writeCursor c s).buffer = s.buffer := rfl
@[simp] theorem writeCursor_inputs (c : Nat) (s : State) : (writeCursor c s).inputs = s.inputs := rfl
@[simp] theorem writeCursor_reads (c : Nat) (s : State) : (writeCursor c s).reads = s.reads := rfl
@[simp] theorem writeCursor_draws (c : Nat) (s : State) : (writeCursor c s).draws = s.draws := rfl

/-! ### writeWalkEnd -/

@[simp] theorem writeWalkEnd_status (e : WalkEnd) (s : State) :
    (writeWalkEnd e s).status = { s.status with stop := e.stop } := rfl
@[simp] theorem writeWalkEnd_ctrl (e : WalkEnd) (s : State) : (writeWalkEnd e s).ctrl = s.ctrl := rfl
@[simp] theorem writeWalkEnd_bufLen (e : WalkEnd) (s : State) : (writeWalkEnd e s).bufLen = s.bufLen := rfl
@[simp] theorem writeWalkEnd_hdrIn (e : WalkEnd) (s : State) : (writeWalkEnd e s).hdrIn = s.hdrIn := rfl
@[simp] theorem writeWalkEnd_fsIn (e : WalkEnd) (s : State) : (writeWalkEnd e s).fsIn = s.fsIn := rfl
@[simp] theorem writeWalkEnd_res (e : WalkEnd) (s : State) :
    (writeWalkEnd e s).res =
      { s.res with cursor := BitVec.ofNat 32 e.cursor, hdrCount := BitVec.ofNat 32 e.headers } := rfl
@[simp] theorem writeWalkEnd_op (e : WalkEnd) (s : State) : (writeWalkEnd e s).op = s.op := rfl
@[simp] theorem writeWalkEnd_bad (e : WalkEnd) (s : State) : (writeWalkEnd e s).bad = s.bad := rfl
@[simp] theorem writeWalkEnd_buffer (e : WalkEnd) (s : State) : (writeWalkEnd e s).buffer = s.buffer := rfl
@[simp] theorem writeWalkEnd_inputs (e : WalkEnd) (s : State) : (writeWalkEnd e s).inputs = s.inputs := rfl
@[simp] theorem writeWalkEnd_reads (e : WalkEnd) (s : State) : (writeWalkEnd e s).reads = s.reads := rfl
@[simp] theorem writeWalkEnd_draws (e : WalkEnd) (s : State) : (writeWalkEnd e s).draws = s.draws := rfl

end Sys2Proof.Machine
end

