-- ==== Sys2Proof/Laws/Step.lean ====
section
/-! SUPPORT. The step by its oldest input, the block's turn, and runs of several steps. -/

namespace Sys2Proof.Machine

theorem step_of_nil {s : State} (h : s.inputs = []) : step s = blockTurn s := by unfold step; rw [h]

theorem step_of_block {s : State} {rest : List Input} (h : s.inputs = .block :: rest) :
    step s = blockTurn { s with inputs := rest } := by unfold step; rw [h]

theorem step_of_hostRead {s : State} {off bits : Nat} {rest : List Input}
    (h : s.inputs = .hostRead off bits :: rest) : step s = hostRead off bits { s with inputs := rest } := by
  unfold step; rw [h]

theorem step_of_hostWrite {s : State} {off bits : Nat} {v : Word} {rest : List Input}
    (h : s.inputs = .hostWrite off bits v :: rest) : step s = hostWrite off bits v { s with inputs := rest } := by
  unfold step; rw [h]

theorem step_of_bufWrite {s : State} {a : Nat} {b : Byte} {rest : List Input}
    (h : s.inputs = .bufWrite a b :: rest) : step s = bufWrite a b { s with inputs := rest } := by
  unfold step; rw [h]

theorem step_of_reset {s : State} {rest : List Input} (h : s.inputs = .reset :: rest) :
    step s = .next (resetEvent { s with inputs := rest }) := by unfold step; rw [h]

theorem step_of_resetWithAccess {s : State} {rest : List Input} (h : s.inputs = .resetWithAccess :: rest) :
    step s = .refused .resetCoincidesWithAccess := by unfold step; rw [h]

/-- Everything a host read can do: answer from one register, or be refused. -/
theorem hostRead_cases (off bits : Nat) (s : State) :
    (∃ r, accessReg off bits = .ok r ∧ hostRead off bits s = .next (readReg r s)) ∨
      ∃ e, accessReg off bits = .error e ∧ hostRead off bits s = .refused e := by
  unfold hostRead
  cases h : accessReg off bits with
  | ok r => exact .inl ⟨r, rfl, rfl⟩
  | error e => exact .inr ⟨e, rfl, rfl⟩

/-- Everything a host write can do: write one register, or be refused. -/
theorem hostWrite_cases (off bits : Nat) (v : Word) (s : State) :
    (∃ r, accessReg off bits = .ok r ∧ hostWrite off bits v s = .next (writeReg r v s)) ∨
      ∃ e, accessReg off bits = .error e ∧ hostWrite off bits v s = .refused e := by
  unfold hostWrite
  cases h : accessReg off bits with
  | ok r => exact .inl ⟨r, rfl, rfl⟩
  | error e => exact .inr ⟨e, rfl, rfl⟩

/-- A read of a register changes the answers and the draw counter only. -/
theorem readReg_eq (r : Reg) (s : State) :
    readReg r s = { s with reads := (readReg r s).reads, draws := (readReg r s).draws } := by
  unfold readReg; split <;> rfl

/-- Everything the block's turn can do: run the latched command, complete an illegal word, or hold. -/
theorem blockTurn_cases (s : State) :
    (s.status.busy = true ∧ ∃ i, latched s = some i ∧ blockTurn s = exec i s) ∨
      (s.status.busy = true ∧ latched s = none ∧ blockTurn s = .next (completeIllegal s)) ∨
      (s.status.busy = false ∧ blockTurn s = .next s) := by
  unfold blockTurn blockStep
  cases hb : s.status.busy with
  | false => exact .inr (.inr ⟨rfl, rfl⟩)
  | true =>
    cases hl : latched s with
    | none => exact .inr (.inl ⟨rfl, rfl, rfl⟩)
    | some i => exact .inl ⟨rfl, i, rfl, rfl⟩

theorem run_zero (s : State) : Host.Core.run core 0 s = .next s := rfl

/-- A run goes on from the next state of its first step. -/
theorem run_succ {s s' : State} (h : step s = .next s') (k : Nat) :
    Host.Core.run core (k + 1) s = Host.Core.run core k s' := by
  have e : core.step s = .next s' := h
  simp only [Host.Core.run, e]

/-- A run of `j + k` steps is a run of `k` steps from where `j` steps ended. -/
theorem run_add {s s' : State} {j : Nat} (h : Host.Core.run core j s = .next s') (k : Nat) :
    Host.Core.run core (j + k) s = Host.Core.run core k s' := by
  induction j generalizing s with
  | zero => rw [run_zero] at h; cases h; rw [Nat.zero_add]
  | succ j ih =>
    cases hs : step s with
    | next t =>
      rw [run_succ hs] at h
      rw [Nat.succ_add, run_succ hs]
      exact ih h
    | fault r => have e : core.step s = .fault r := hs; simp only [Host.Core.run, e] at h; cases h
    | refused r => have e : core.step s = .refused r := hs; simp only [Host.Core.run, e] at h; cases h

end Sys2Proof.Machine
end

