-- ==== Sys2Proof/Laws/Premises.lean ====
section
/-! SUPPORT. The launch premises of 70_reset_and_hazards.md R201, one input at a time, and what one step of a busy block
does under them. -/

namespace Sys2Proof.Machine

/-! ## One input at a time -/

theorem LP_WORD_ACCESS_cons (x : Input) (ins : List Input) :
    LP_WORD_ACCESS (x :: ins) ↔ LP_WORD_ACCESS [x] ∧ LP_WORD_ACCESS ins := by
  simp only [LP_WORD_ACCESS, List.mem_cons, List.not_mem_nil, or_false]
  constructor
  · exact fun h => ⟨fun off bits ha => h off bits (ha.imp .inl fun ⟨v, hv⟩ => ⟨v, .inl hv⟩),
      fun off bits ha => h off bits (ha.imp .inr fun ⟨v, hv⟩ => ⟨v, .inr hv⟩)⟩
  · rintro ⟨h1, h2⟩ off bits ((ha | ha) | ⟨v, ha | ha⟩)
    · exact h1 off bits (.inl ha)
    · exact h2 off bits (.inl ha)
    · exact h1 off bits (.inr ⟨v, ha⟩)
    · exact h2 off bits (.inr ⟨v, ha⟩)

theorem LP_BUFFER_STABLE_cons (len : Nat) (x : Input) (ins : List Input) :
    LP_BUFFER_STABLE len (x :: ins) ↔ LP_BUFFER_STABLE len [x] ∧ LP_BUFFER_STABLE len ins := by
  simp only [LP_BUFFER_STABLE, List.mem_cons, List.not_mem_nil, or_false]
  exact ⟨fun h => ⟨fun a b ha => h a b (.inl ha), fun a b ha => h a b (.inr ha)⟩,
    fun h a b ha => ha.elim (h.1 a b) (h.2 a b)⟩

theorem Undisturbed_cons (x : Input) (ins : List Input) :
    Undisturbed (x :: ins) ↔ Undisturbed [x] ∧ Undisturbed ins := by
  simp only [Undisturbed, List.mem_cons, List.not_mem_nil, or_false, not_or]
  constructor
  · rintro ⟨⟨a, b⟩, ⟨c, d⟩, e⟩
    exact ⟨⟨a, c, fun x y h => e x y (.inl h)⟩, b, d, fun x y h => e x y (.inr h)⟩
  · rintro ⟨⟨a, c, e⟩, b, d, f⟩
    exact ⟨⟨a, b⟩, ⟨c, d⟩, fun x y h => h.elim (e x y) (f x y)⟩

/-- One input meets the premises exactly when it is harmless or the block's turn. -/
theorem harmless_singleton (len : Nat) (x : Input) :
    LP_WORD_ACCESS [x] ∧ LP_BUFFER_STABLE len [x] ∧ Undisturbed [x] ↔ x = .block ∨ x.harmless len = true := by
  cases x <;> simp [LP_WORD_ACCESS, LP_BUFFER_STABLE, Undisturbed, Input.harmless, bufOffsetWellFormed, and_comm]

/-- The check `harmless` is the premises, for inputs without a turn of the block. -/
theorem harmless_iff (len : Nat) (ins : List Input) :
    (∀ x ∈ ins, x.harmless len = true) ↔
      Input.block ∉ ins ∧ LP_WORD_ACCESS ins ∧ LP_BUFFER_STABLE len ins ∧ Undisturbed ins := by
  induction ins with
  | nil => simp [LP_WORD_ACCESS, LP_BUFFER_STABLE, Undisturbed]
  | cons x ins ih =>
    have hx := harmless_singleton len x
    have hb : x.harmless len = true → x ≠ .block := fun h e => by subst e; exact absurd h (by simp [Input.harmless])
    rw [List.forall_mem_cons, ih, LP_WORD_ACCESS_cons, LP_BUFFER_STABLE_cons, Undisturbed_cons, List.mem_cons, not_or]
    constructor
    · rintro ⟨h, h1, h2, h3, h4⟩
      have := hx.2 (.inr h)
      exact ⟨⟨(hb h).symm, h1⟩, ⟨this.1, h2⟩, ⟨this.2.1, h3⟩, this.2.2, h4⟩
    · rintro ⟨⟨h0, h1⟩, ⟨h2, h3⟩, ⟨h4, h5⟩, h6, h7⟩
      exact ⟨(hx.1 ⟨h2, h4, h6⟩).resolve_left (Ne.symm h0), h1, h3, h5, h7⟩

/-! ## A busy block and one harmless input -/

/-- A word access reaches a register. -/
theorem accessReg_of_wellFormed {off bits : Nat} (h : accessWellFormed off bits = true) :
    ∃ r, accessReg off bits = .ok r := by
  simp only [accessWellFormed, Bool.and_eq_true, beq_iff_eq, decide_eq_true_eq] at h
  obtain ⟨⟨rfl, ha⟩, hl⟩ := h
  rcases hc : Reg.at? off with _ | r
  · have : ∀ o, o < 0x40 → o % 4 = 0 → (Reg.at? o).isSome = true := by decide
    have := this off hl ha
    rw [hc] at this
    exact absurd this (by decide)
  · exact ⟨r, by simp [accessReg, ha, hc]⟩

/-- Everything a harmless input does while a command is in progress: the answers, the draw counter, HAZ (set by a write)
and bytes at or above BUF_LEN may change, and nothing else. -/
theorem step_of_harmless {s : State} {x : Input} {rest : List Input} (hi : s.inputs = x :: rest)
    (hb : s.status.busy = true) (hx : x.harmless s.len = true) :
    ∃ haz buffer reads draws,
      step s = .next { s with
        inputs := rest, status := { s.status with haz := haz }, buffer := buffer, reads := reads, draws := draws } ∧
      (haz = true ↔ s.status.haz = true ∨ ∃ off bits v, x = .hostWrite off bits v) ∧
      (s.buffer.wf = true → buffer.wf = true ∧ ∀ a, a < s.len → buffer.read a = s.buffer.read a) := by
  cases x with
  | hostRead off bits =>
    obtain ⟨r, hr⟩ := accessReg_of_wellFormed hx
    refine ⟨s.status.haz, s.buffer, (readReg r { s with inputs := rest }).reads,
      (readReg r { s with inputs := rest }).draws, ?_, by simp, fun h => ⟨h, fun _ _ => rfl⟩⟩
    rw [step_of_hostRead hi]
    unfold hostRead
    rw [hr]
    exact congrArg _ (readReg_eq r { s with inputs := rest })
  | hostWrite off bits v =>
    obtain ⟨r, hr⟩ := accessReg_of_wellFormed hx
    refine ⟨true, s.buffer, s.reads, s.draws, ?_, by simp, fun h => ⟨h, fun _ _ => rfl⟩⟩
    rw [step_of_hostWrite hi]
    simp [hostWrite, hr, writeReg, hb, raiseHaz]
  | bufWrite a b =>
    simp only [Input.harmless, bufOffsetWellFormed, Bool.and_eq_true, decide_eq_true_eq] at hx
    refine ⟨s.status.haz, s.buffer.write a b, s.reads, s.draws, ?_, by simp, fun h =>
      ⟨Memory.write_wf h hx.1, fun c hc => by rw [Memory.read_write h, if_neg (by omega)]⟩⟩
    rw [step_of_bufWrite hi]
    have hl : ¬a < State.len { s with inputs := rest } := Nat.not_lt.2 hx.2
    unfold bufWrite
    rw [if_pos (show a < bufSpace from hx.1), if_neg (by simp [hl])]
  | block => exact absurd hx (by simp [Input.harmless])
  | reset => exact absurd hx (by simp [Input.harmless])
  | resetWithAccess => exact absurd hx (by simp [Input.harmless])

end Sys2Proof.Machine
end

