-- ==== Sys2Proof/Laws/Split.lean ====
section
/-! SUPPORT. The split machine: its step by its oldest input, its runs, the working copy of a command in progress, and
that a step of the host does the same whatever inputs come after it. -/

namespace Sys2Proof.Machine

/-! ## The step by its oldest input -/

theorem splitStep_of_nil {p : Split} (h : p.host.inputs = []) : splitStep p = .next (splitTurn p) := by
  unfold splitStep; rw [h]

theorem splitStep_of_block {p : Split} {rest : List Input} (h : p.host.inputs = .block :: rest) :
    splitStep p = .next (splitTurn { p with host := { p.host with inputs := rest } }) := by
  unfold splitStep; rw [h]

theorem splitStep_of_host {p : Split} {x : Input} {rest : List Input} (h : p.host.inputs = x :: rest)
    (hx : x ≠ .block) : splitStep p = splitHost p := by
  unfold splitStep
  rw [h]
  cases x <;> first | rfl | exact absurd rfl hx

theorem splitHost_of_next {p : Split} {t : State} (h : step p.host = .next t) :
    splitHost p = .next ⟨t, if t.status.busy && p.host.status.busy then p.job else none⟩ := by
  unfold splitHost; rw [h]

/-! ## The turn of the block -/

theorem splitTurn_of_idle {p : Split} (h : p.host.status.busy = false) : splitTurn p = ⟨p.host, none⟩ := by
  simp [splitTurn, h]

theorem splitTurn_of_illegal {p : Split} (hb : p.host.status.busy = true) (hl : latched p.host = none) :
    splitTurn p = ⟨completeIllegal p.host, none⟩ := by simp [splitTurn, hb, hl]

/-- A turn with a command: the host's view stays as it was, unless the command completes. -/
theorem splitTurn_of_command {p : Split} {i : Instr} (hb : p.host.status.busy = true) (hl : latched p.host = some i) :
    splitTurn p =
      if (fineStep i (p.work i).1 (p.work i).2).2 = .done then ⟨(fineStep i (p.work i).1 (p.work i).2).1, none⟩
      else ⟨p.host, some (Job.of (fineStep i (p.work i).1 (p.work i).2))⟩ := by simp [splitTurn, hb, hl]

/-! ## The working copy -/

theorem Split.work_none (i : Instr) (s : State) : Split.work i ⟨s, none⟩ = fineStart i s := rfl
theorem Split.work_some (i : Instr) (s : State) (j : Job) : Split.work i ⟨s, some j⟩ = (j.on s, j.stage) := rfl

@[simp] theorem Job.on_status (j : Job) (s : State) : (j.on s).status = { j.status with haz := s.status.haz } := rfl
@[simp] theorem Job.on_res (j : Job) (s : State) : (j.on s).res = j.res := rfl
@[simp] theorem Job.on_ctrl (j : Job) (s : State) : (j.on s).ctrl = s.ctrl := rfl
@[simp] theorem Job.on_bufLen (j : Job) (s : State) : (j.on s).bufLen = s.bufLen := rfl
@[simp] theorem Job.on_hdrIn (j : Job) (s : State) : (j.on s).hdrIn = s.hdrIn := rfl
@[simp] theorem Job.on_fsIn (j : Job) (s : State) : (j.on s).fsIn = s.fsIn := rfl
@[simp] theorem Job.on_op (j : Job) (s : State) : (j.on s).op = s.op := rfl
@[simp] theorem Job.on_bad (j : Job) (s : State) : (j.on s).bad = s.bad := rfl
@[simp] theorem Job.on_buffer (j : Job) (s : State) : (j.on s).buffer = s.buffer := rfl
@[simp] theorem Job.on_inputs (j : Job) (s : State) : (j.on s).inputs = s.inputs := rfl
@[simp] theorem Job.on_reads (j : Job) (s : State) : (j.on s).reads = s.reads := rfl
@[simp] theorem Job.on_draws (j : Job) (s : State) : (j.on s).draws = s.draws := rfl

/-- Where a search for a candidate goes on: it examines the offset, or no offset is left. -/
theorem syncFrom_cases (i : Instr) (j : Nat) (s : State) :
    (j + 1 < s.len ∧ syncFrom i j s = (s, .sync j)) ∨
      (s.len ≤ j + 1 ∧ i = .seek ∧ syncFrom i j s = (s, .last .noSync .none)) ∨
      (s.len ≤ j + 1 ∧ i ≠ .seek ∧ syncFrom i j s = (s, .last .ok (.headers 0))) := by
  unfold syncFrom
  by_cases hj : j + 1 < s.len
  · exact .inl ⟨hj, if_pos hj⟩
  · rw [if_neg hj]
    by_cases hi : i = .seek
    · exact .inr (.inl ⟨by omega, hi, if_pos hi⟩)
    · exact .inr (.inr ⟨by omega, hi, if_neg hi⟩)

/-- Finer steps one after the other. -/
theorem fineRun_add (i : Instr) (j k : Nat) (x : State × Fine) : fineRun i (j + k) x = fineRun i k (fineRun i j x) := by
  induction j generalizing x with
  | zero => rw [Nat.zero_add]; rfl
  | succ j ih => rw [Nat.succ_add]; exact ih _

/-- A completed command takes no more steps. -/
theorem fineRun_done (i : Instr) (s : State) (k : Nat) : fineRun i k (s, .done) = (s, .done) := by
  induction k with
  | zero => rfl
  | succ k ih => exact ih

/-! ## Runs -/

/-- A run goes on from the next state of its first step. -/
theorem splitRun_succ {p q : Split} (h : splitStep p = .next q) (k : Nat) :
    Host.Core.run splitCore (k + 1) p = Host.Core.run splitCore k q := by
  have e : splitCore.step p = .next q := h
  simp only [Host.Core.run, e]

/-- A run of `j + k` steps is a run of `k` steps from where `j` steps ended. -/
theorem splitRun_add {p q : Split} {j : Nat} (h : Host.Core.run splitCore j p = .next q) (k : Nat) :
    Host.Core.run splitCore (j + k) p = Host.Core.run splitCore k q := by
  induction j generalizing p with
  | zero =>
    have e : Host.Core.run splitCore 0 p = .next p := rfl
    rw [e] at h
    cases h
    rw [Nat.zero_add]
  | succ j ih =>
    cases hs : splitStep p with
    | next t =>
      rw [splitRun_succ hs] at h
      rw [Nat.succ_add, splitRun_succ hs]
      exact ih h
    | fault r => have e : splitCore.step p = .fault r := hs; simp only [Host.Core.run, e] at h; cases h
    | refused r => have e : splitCore.step p = .refused r := hs; simp only [Host.Core.run, e] at h; cases h

/-! ## Inputs -/

@[simp] theorem withoutTurns_nil : withoutTurns [] = [] := rfl

@[simp] theorem withoutTurns_block (ins : List Input) : withoutTurns (.block :: ins) = withoutTurns ins := rfl

theorem withoutTurns_cons {x : Input} (hx : x ≠ .block) (ins : List Input) :
    withoutTurns (x :: ins) = x :: withoutTurns ins := List.filter_cons_of_pos (by simp [hx])

/-- A step of the host or the platform is the same whatever comes after it. -/
theorem step_of_other_rest {x : Input} (hx : x ≠ .block) {s t : State} {rest : List Input}
    (h : step { s with inputs := x :: rest } = .next t) (other : List Input) :
    step { s with inputs := x :: other } = .next { t with inputs := other } := by
  cases x with
  | block => exact absurd rfl hx
  | hostRead off bits =>
    rw [step_of_hostRead rfl] at h ⊢
    unfold hostRead at *
    cases he : accessReg off bits with
    | error e => rw [he] at h; cases h
    | ok r => rw [he] at h; cases h; simp only [readReg]; split <;> rfl
  | hostWrite off bits v =>
    rw [step_of_hostWrite rfl] at h ⊢
    unfold hostWrite at *
    cases he : accessReg off bits with
    | error e => rw [he] at h; cases h
    | ok r =>
      rw [he] at h
      cases h
      simp only [writeReg]
      split
      · rfl
      · cases r <;> rfl
  | bufWrite a b =>
    rw [step_of_bufWrite rfl] at h ⊢
    unfold bufWrite at *
    by_cases ha : a < bufSpace
    · rw [if_pos ha] at h ⊢
      by_cases hr : (s.status.busy && decide (a < s.len)) = true
      · rw [if_pos (by exact hr)] at h; cases h
      · rw [if_neg (by exact hr)] at h ⊢; cases h; rfl
    · rw [if_neg ha] at h; cases h
  | reset => rw [step_of_reset rfl] at h ⊢; cases h; rfl
  | resetWithAccess => rw [step_of_resetWithAccess rfl] at h; cases h

end Sys2Proof.Machine
end

