-- ==== Sys2Proof/Tests/Slice0.lean ====
section
/-! SUPPORT. The model's own tests. Expected values are those of spec/95_test_vectors.md (the vector's name stands in the
comment) and of the encoding tables of spec/30_encoding.md; then one witness for each statement that has hypotheses, and
one for each clause, showing that they are met together. -/

open Sys2Proof Sys2Proof.Machine

namespace Sys2Proof.Tests

/-! ## Small states and what a test looks at -/

/-- The buffer that holds these bytes from offset `a` on. -/
def bytesFrom : Nat → List Byte → Memory
  | _, [] => []
  | a, b :: rest => Memory.write (bytesFrom (a + 1) rest) a b

/-- Reset, with these bytes from offset 0 on and BUF_LEN their number. -/
def given (bytes : List Byte) : State :=
  { State.reset with bufLen := BitVec.ofNat 31 bytes.length, buffer := bytesFrom 0 bytes }

/-- The same with BUF_LEN given separately. -/
def givenLen (len : Nat) (bytes : List Byte) : State := { given bytes with bufLen := BitVec.ofNat 31 len }

/-- The same with CTRL.SYNC_MODE = 1. -/
def givenGeneral (bytes : List Byte) : State := { given bytes with ctrl := ⟨.general, false⟩ }

/-- The same with CTRL.NO_META = 1. -/
def givenNoMeta (bytes : List Byte) : State := { given bytes with ctrl := ⟨.strict, true⟩ }

/-- A busy state: the word accepted, and these inputs to come. -/
def busyWith (w : Word) (inputs : List Input) (s : State) : State := { accept w s with inputs := inputs }

/-- A state with these inputs to come. -/
def withInputs (inputs : List Input) (s : State) : State := { s with inputs := inputs }

/-- The registers read after a next state; none after a stop. -/
def values (rs : List Reg) : Host.Outcome State Fault Refusal → Option (List Word)
  | .next t => some (rs.map (regValue t))
  | .fault _ => none
  | .refused _ => none

/-- The outcome is this refusal. -/
def refusedBy (e : Refusal) : Host.Outcome State Fault Refusal → Bool
  | .next _ => false
  | .fault _ => false
  | .refused r => r == e

/-- The outcome is this fault. -/
def faultedBy (e : Fault) : Host.Outcome State Fault Refusal → Bool
  | .next _ => false
  | .fault r => r == e
  | .refused _ => false

/-! ## Decoding: each command's word written out from the table of 30_encoding.md R70, and ill-formed words -/

theorem test_word_decode : decodeWord 0b00000000000000000000000000000001 = .ok .decode := by decide

theorem test_word_fsize : decodeWord 0b00000000000000000000000000000010 = .ok .fsize := by decide

theorem test_word_seek : decodeWord 0b00000000000000000000000000000011 = .ok .seek := by decide

theorem test_word_walk : decodeWord 0b00000000000000000000000000000100 = .ok .walk := by decide

theorem test_word_stored : decodeWord 0b00000000000000000000000000000101 = .ok .stored := by decide

theorem test_word_auto : decodeWord 0b00000000000000000000000000000110 = .ok .auto := by decide

/-- Vectors Q1 to Q3: no word outside the six is a command. -/
theorem test_illegal_words :
    decodeTableWord 32 0 = none ∧ decodeTableWord 32 7 = none ∧ decodeTableWord 32 0x14 = none ∧
      decodeTableWord 32 0x80000001 = none ∧ decodeTableWord 4 6 = some .auto ∧ decodeTableWord 2 6 = none := by decide

/-- The well-formedness checks refuse an ill-formed term each. -/
theorem test_wellFormed_refuses :
    wordWellFormed 0 = false ∧ wordWellFormed 7 = false ∧ wordWellFormed 0x14 = false ∧
      accessWellFormed 0x00 16 = false ∧ accessWellFormed 0x02 32 = false ∧ accessWellFormed 0x40 32 = false ∧
      bufOffsetWellFormed (2 ^ 31) = false ∧ Input.resetWithAccess.wellFormed = false ∧
      (Input.bufWrite (2 ^ 31) 0).wellFormed = false ∧ (Input.hostRead 0x40 32).wellFormed = false ∧
      (Input.hostWrite 0x01 32 0).wellFormed = false := by decide

/-- ... and accept the well-formed ones. -/
theorem test_wellFormed_accepts :
    wordWellFormed 1 = true ∧ wordWellFormed 6 = true ∧ accessWellFormed 0x3C 32 = true ∧
      bufOffsetWellFormed (2 ^ 31 - 1) = true ∧ Input.reset.wellFormed = true ∧ Input.block.wellFormed = true := by
  decide

/-- The fetch word runs as the first command after reset. -/
theorem test_withFetchWord :
    values [.status] (step (State.reset.withFetchWord 32 1)) = some [0x00000042] ∧
      values [.status] (step (State.reset.withFetchWord 32 2)) = some [0x00000052] ∧
      values [.status] (step (State.reset.withFetchWord 32 3)) = some [0x00000072] ∧
      values [.status] (step (State.reset.withFetchWord 32 4)) = some [0x00000012] ∧
      values [.status] (step (State.reset.withFetchWord 32 5)) = some [0x00040022] ∧
      values [.status] (step (State.reset.withFetchWord 32 6)) = some [0x00040012] := by decide

/-! ## The commands -/

/-- H6: the largest frame. -/
theorem test_decode_valid :
    values [.status, .hdrFlags, .bitrate, .srate, .fsize]
        (exec .decode (accept 1 { State.reset with hdrIn := 0xFFFBEA00 })) =
      some [0x00000012, 0x000001EB, 320, 32000, 1441] := by decide

/-- H20: all ones; the registers stay clear. -/
theorem test_decode_invalid :
    values [.status, .hdrFlags, .bitrate, .srate, .fsize]
        (exec .decode (accept 1 { State.reset with hdrIn := 0xFFFFFFFF })) =
      some [0x00000042, 0, 0, 0, 0] := by decide

/-- F9: the largest size. -/
theorem test_fsize_largest :
    values [.status, .fsize] (exec .fsize (accept 2 { State.reset with fsIn := FsIn.ofWord 0x83FF0001 })) =
      some [0x00000012, 147312001] := by decide

/-- F8: a zero divisor adds no padding. -/
theorem test_fsize_zero_divisor :
    values [.status, .fsize] (exec .fsize (accept 2 { State.reset with fsIn := FsIn.ofWord 0x80800000 })) =
      some [0x00000052, 0] := by decide

/-- S7 and S8: the two sync modes on one buffer. -/
theorem test_seek_modes :
    values [.status, .syncPos, .cursor] (exec .seek (accept 3 (given [0xFF, 0xFF, 0xFB, 0x00]))) =
        some [0x00000112, 1, 1] ∧
      values [.status, .syncPos, .cursor] (exec .seek (accept 3 (givenGeneral [0xFF, 0xFF, 0xFB, 0x00]))) =
        some [0x00000112, 0, 0] := by decide

/-- S4: a lone 0xFF at the end is no candidate. -/
theorem test_seek_last_byte :
    values [.status, .syncPos, .cursor] (exec .seek (accept 3 (given [0, 0, 0, 0, 0, 0, 0, 0xFF]))) =
      some [0x00000072, 0, 0] := by decide

/-- W6: one header, the cursor passes BUF_LEN. -/
theorem test_walk_cursor_passes_end :
    values [.status, .syncPos, .hdrCount, .cursor, .count] (exec .walk (accept 4 (given [0xFF, 0xFB, 0x90, 0x00]))) =
      some [0x00008112, 0, 1, 417, 0] := by decide

/-- W18: a reserved bit-rate index at the first candidate ends the walk at once. -/
theorem test_walk_invalid_first :
    values [.status, .syncPos, .hdrCount, .cursor, .count]
        (exec .walk (accept 4 (givenLen 421 [0xFF, 0xFB, 0x00, 0x00, 0xFF, 0xFB, 0x90, 0x00]))) =
      some [0x00004112, 0, 0, 0, 0] := by decide

/-- M6: the count field ends exactly at the end of the buffer, and all 32 bits are returned. -/
theorem test_stored_count :
    values [.status, .markPos, .count]
        (exec .stored
          (accept 5 (given [0, 0, 0, 0x58, 0x69, 0x6E, 0x67, 0, 0, 0, 0x01, 0xFF, 0xFF, 0xFF, 0xFF]))) =
      some [0x00021212, 3, 0xFFFFFFFF] := by decide

/-- M8: the count field is cut off. -/
theorem test_stored_truncated :
    values [.status, .markPos, .count]
        (exec .stored (accept 5 (given [0, 0, 0, 0x58, 0x69, 0x6E, 0x67, 0, 0, 0, 0x01, 0, 0, 0]))) =
      some [0x00062232, 3, 0] := by decide

/-- A1's form, on M15's buffer: the stored count of "Info" is returned and no walk runs. -/
theorem test_auto_stored :
    values [.status, .markPos, .count, .hdrCount, .cursor]
        (exec .auto (accept 6 (given [0x49, 0x6E, 0x66, 0x6F, 0, 0, 0, 0x01, 0, 0, 0x04, 0xD2]))) =
      some [0x00021612, 0, 1234, 0, 0] := by decide

/-- A6's form, cut to its first frame: "Info" without a count at 4, so the walk runs and META = 3 stays. -/
theorem test_auto_falls_back :
    values [.status, .markPos, .count, .hdrCount, .cursor]
        (exec .auto (accept 6
          (given [0xFF, 0xFB, 0x90, 0x00, 0x49, 0x6E, 0x66, 0x6F, 0, 0, 0, 0x00, 0, 0, 0, 0]))) =
      some [0x00068712, 4, 0, 1, 417] := by decide

/-! ## The handshake -/

/-- Q1, Q3: illegal words complete with ILLEGAL_CMD. -/
theorem test_illegal_completes :
    values [.status, .count] (step (busyWith 0x00000000 [.block] State.reset)) = some [0x00000062, 0] ∧
      values [.status, .count] (step (busyWith 0x00000014 [.block] State.reset)) = some [0x00000062, 0] := by decide

/-- Q9: a write while busy is lost and sets HAZ; Q8: STATUS between acceptance and completion. -/
theorem test_busy_write :
    values [.bufLen, .status] (step (busyWith 4 [.hostWrite 0x0C 32 5] State.reset)) = some [0, 0x00010001] := by
  decide

/-- Q10: a write of bit 16 clears HAZ and nothing else. -/
theorem test_haz_clear :
    values [.status]
        (step { State.reset with
          status := { Status.zero with done := true, result := .ok, haz := true }
          inputs := [.hostWrite 0x04 32 0x00010000] }) =
      some [0x00000012] := by decide

/-- Q11 to Q13: the bits that do not exist read 0. -/
theorem test_absent_bits :
    values [.bufLen] (step (withInputs [.hostWrite 0x0C 32 0xFFFFFFFF] State.reset)) = some [0x7FFFFFFF] ∧
      values [.ctrl] (step (withInputs [.hostWrite 0x08 32 0xFFFFFFFF] State.reset)) = some [0x00000003] ∧
      values [.fsIn] (step (withInputs [.hostWrite 0x14 32 0xFFFFFFFF] State.reset)) = some [0x83FFFFFF] := by decide

/-- Accesses outside the window's form, a buffer write below BUF_LEN while busy, an offset that does not exist and a
reset that coincides with an access stop by name. -/
theorem test_stops :
    refusedBy (.accessWidth 8) (step (withInputs [.hostRead 0x00 8] State.reset)) = true ∧
      refusedBy (.accessMisaligned 2) (step (withInputs [.hostRead 0x02 32] State.reset)) = true ∧
      refusedBy (.accessOutsideWindow 0x40) (step (withInputs [.hostWrite 0x40 32 0] State.reset)) = true ∧
      refusedBy (.bufferWriteWhileBusy 3) (step (busyWith 4 [.bufWrite 3 1] (given [0, 0, 0, 0]))) = true ∧
      refusedBy .resetCoincidesWithAccess (step (withInputs [.resetWithAccess] State.reset)) = true ∧
      faultedBy (.bufferOffsetOutsideSpace (2 ^ 31)) (step (withInputs [.bufWrite (2 ^ 31) 1] State.reset)) = true := by
  decide

/-- The script of P1's first command (30_encoding.md R73), one step at a time by its length. -/
theorem test_script :
    scriptInputs [.wr .hdrIn 0xFFFB9200, .cmd .decode, .wait 1, .rd .fsize] =
      [.hostWrite 0x10 32 0xFFFB9200, .hostWrite 0x00 32 1, .hostRead 0x04 32, .block, .hostRead 0x04 32,
        .hostRead 0x24 32] := by decide

/-! ## Witnesses: states and operands that meet the hypotheses of each statement, together and clause by clause -/

/-- A candidate that the search answers is the first one. -/
theorem firstSync_of {s : State} {i : Nat} (hi : i + 1 < s.len) (h : isSync s.ctrl.syncMode s.buffer i = true)
    (hb : ∀ j, j < i → isSync s.ctrl.syncMode s.buffer j = false) : FirstSync s i :=
  ⟨(isSync_iff s i).1 ⟨hi, h⟩, fun j hj hs =>
    absurd ((isSync_iff s j).2 hs).2 (by simp [hb j hj])⟩

theorem noSync_of {s : State} (h : ∀ i, i < s.len → isSync s.ctrl.syncMode s.buffer i = false) (i : Nat) :
    ¬SyncAt s i := fun hs => by
  have hi := (isSync_iff s i).2 hs
  rw [h i (by omega)] at hi
  exact absurd hi.2 (by decide)

theorem occurs_lt {s : State} {k : Marker} {p : Nat} (h : OccursAt s k p) : p < s.len := by
  have := h.1
  cases k <;> simp [Marker.bytes] at this <;> omega

theorem noMarker_of {s : State} (h : ∀ k, k ∈ markers → ∀ p, p < s.len → occurs s.buffer s.len k p = false)
    (k : Marker) (p : Nat) : ¬OccursAt s k p := fun ho => by
  have hk : k ∈ markers := by cases k <;> decide
  have := h k hk p (occurs_lt ho)
  rw [(occurs_iff s k p).2 ho] at this
  exact absurd this (by decide)

theorem winning_of {s : State} {k : Marker} {p : Nat} (h : occurs s.buffer s.len k p = true)
    (hb : ∀ q, q < p → occurs s.buffer s.len k q = false)
    (hl : ∀ l, l ∈ markers → l.code < k.code → ∀ q, q < s.len → occurs s.buffer s.len l q = false) :
    WinningMarker s k p := by
  refine ⟨(occurs_iff s k p).1 h, fun q hq ho => ?_, fun l q hc ho => ?_⟩
  · have := hb q hq
    rw [(occurs_iff s k q).2 ho] at this
    exact absurd this (by decide)
  · have := hl l (by cases l <;> decide) hc q (occurs_lt ho)
    rw [(occurs_iff s l q).2 ho] at this
    exact absurd this (by decide)

/-- A "Xing" record at offset 1: flags at 8, count from 9 to 12. -/
def record (len : Nat) (flags : Byte) : State :=
  givenLen len [0, 0x58, 0x69, 0x6E, 0x67, 0, 0, 0, flags, 0, 0, 0, 9]

/-- The same with NO_META = 1. -/
def recordNoMeta (len : Nat) (flags : Byte) : State := { record len flags with ctrl := ⟨.strict, true⟩ }

/-- An idle state after a command that failed, with HAZ set and old results. -/
def used (inputs : List Input) : State :=
  { given [0xFF, 0xFB, 0x90, 0x00] with
    status := { Status.zero with done := true, result := .noSync, haz := true }
    res := { Results.zero with count := 7, cursor := 9 }
    inputs := inputs }

theorem witness_ResetAbandonsCommandKeepsBuffer :
    (busyWith 4 [.reset, .block] (used [])).inputs = .reset :: [.block] ∧
      (busyWith 4 [.reset, .block] (used [])).status.busy = true := by decide

theorem witness_AccessReachesWindowOrIsRefused :
    ((32 = 32 ∧ 0x3C % 4 = 0 ∧ 0x3C < 0x40) ∧ (used [.hostRead 0x3C 32]).inputs = .hostRead 0x3C 32 :: [] ∧
        (used [.hostWrite 0x00 32 5]).inputs = .hostWrite 0x00 32 5 :: []) ∧
      (¬(32 = 32 ∧ 0x40 % 4 = 0 ∧ 0x40 < 0x40) ∧ (used [.hostRead 0x40 32]).inputs = .hostRead 0x40 32 :: []) ∧
      (¬(32 = 32 ∧ 0x3E % 4 = 0 ∧ 0x3E < 0x40) ∧ (used [.hostWrite 0x3E 32 5]).inputs = .hostWrite 0x3E 32 5 :: []) ∧
      (¬(16 = 32 ∧ 0x00 % 4 = 0 ∧ 0x00 < 0x40) ∧ (used [.hostRead 0x00 16]).inputs = .hostRead 0x00 16 :: []) := by
  decide

theorem witness_ReadAnswersRegisterWithoutSideEffect :
    ((used [.hostRead 0x34 32]).inputs = .hostRead Reg.count.offset 32 :: [] ∧ (used []).status.busy = false) ∧
      (busyWith 4 [.hostRead 0x04 32] (used [])).inputs = .hostRead Reg.status.offset 32 :: [] ∧
      Reg.status ∈ [Reg.status, .cmd, .id, .ctrl, .bufLen, .hdrIn, .fsIn] := by decide

theorem witness_BusyReadOfResultIsADraw :
    (busyWith 4 [.hostRead 0x18 32] (used [])).inputs = .hostRead Reg.hdrFlags.offset 32 :: [] ∧
      (busyWith 4 [.hostRead 0x38 32] (used [])).inputs = .hostRead Reg.markPos.offset 32 :: [] ∧
      (busyWith 4 [.hostRead 0x38 32] (used [])).status.busy = true := by decide

theorem witness_BusyWriteOnlySetsHaz :
    (busyWith 4 [.hostWrite 0x00 32 1] (given [])).inputs = .hostWrite Reg.cmd.offset 32 1 :: [] ∧
      (busyWith 4 [.hostWrite 0x00 32 1] (given [])).status.busy = true := by decide

theorem witness_CmdWriteAcceptsCommand :
    (used [.hostWrite 0x00 32 6]).inputs = .hostWrite 0x00 32 6 :: [] ∧
      LP_IDLE_AT_ISSUE (used [.hostWrite 0x00 32 6]) ∧ (used []).status.haz = true := ⟨rfl, rfl, rfl⟩

theorem witness_WritableRegistersKeepTheirBits : (used []).status.busy = false := by decide

theorem witness_IdleWriteChangesItsRegisterAlone :
    (used [.hostWrite 0x04 32 0x00010000]).inputs = .hostWrite Reg.status.offset 32 0x00010000 :: [] ∧
      (used [.hostWrite 0x14 32 9]).inputs = .hostWrite Reg.fsIn.offset 32 9 :: [] ∧
      (used [.hostWrite 0x34 32 5]).inputs = .hostWrite Reg.count.offset 32 5 :: [] ∧
      (used [.hostWrite 0x3C 32 5]).inputs = .hostWrite Reg.id.offset 32 5 :: [] ∧
      (used []).status.busy = false := by decide

theorem witness_BufferWriteStoresOneByte :
    ((used [.bufWrite 0 0x55]).buffer.wf = true ∧ (used [.bufWrite 0 0x55]).status.busy = false ∧
        (used [.bufWrite 0 0x55]).inputs = .bufWrite 0 0x55 :: []) ∧
      (busyWith 4 [.bufWrite 4 0] (used [])).inputs = .bufWrite 4 0 :: [] ∧
      (busyWith 4 [.bufWrite 4 0] (used [])).status.busy = true ∧ (busyWith 4 [] (used [])).len ≤ 4 ∧
      (used [.bufWrite (2 ^ 31 - 1) 1]).inputs = .bufWrite (2 ^ 31 - 1) 1 :: [] ∧ 2 ^ 31 - 1 < 2 ^ 31 := by decide

/-- Two buffers written in different orders. -/
theorem witness_EqualReadsGiveEqualBuffers :
    ∃ m n : Memory, m.wf = true ∧ n.wf = true ∧ m ≠ [] ∧ ∀ a, m.read a = n.read a :=
  ⟨Memory.write (Memory.write [] 3 1) 5 2, Memory.write (Memory.write [] 5 2) 3 1, by decide, by decide, by decide,
    fun _ => rfl⟩

theorem witness_BlockNeverWritesBuffer :
    (∃ t, exec .walk (used []) = .next t) ∧ ∃ t, blockStep (busyWith 0x14 [] (used [])) = .next t :=
  ⟨⟨_, rfl⟩, ⟨_, rfl⟩⟩

theorem witness_SyncCheckIsElevenOnes :
    syncCheck 0xFF1B9000 = false ∧ (0xFEFB9000 : Word).extractLsb' 16 16 = 0xFEFB ∧
      (0xFFDF0000 : Word).extractLsb' 16 16 = 0xFFDF ∧ (0xFFE00000 : Word).extractLsb' 16 16 = 0xFFE0 := by decide

theorem witness_VersionLayerCheckIgnoresProtection :
    syncCheck 0xFFE39000 = true ∧ versionLayerCheck 0xFFE39000 = false ∧
      (0xFFF39000 : Word).extractLsb' 16 8 ∈ ([0xF3, 0xE3, 0xFD, 0xFF] : List Byte) ∧
      (decodeHeader 0xFFFA9000).isSome = true ∧
      (∃ t, exec .decode { State.reset with hdrIn := 0xFFFA9000 } = .next t) ∧
      ∃ t, exec .fsize State.reset = .next t :=
  ⟨by decide, by decide, by decide, by decide, ⟨_, rfl⟩, ⟨_, rfl⟩⟩

theorem witness_BitRateIndexSelectsTableEntry :
    (0xFFFB0000 : Word).extractLsb' 12 4 = 0 ∧ (0xFFFBF000 : Word).extractLsb' 12 4 = 15 ∧
      decodeHeader 0xFFFB1000 = some ⟨32, 44100, false⟩ ∧ decodeHeader 0xFFFBE000 = some ⟨320, 44100, false⟩ := by
  decide

theorem witness_SamplingRateIndexSelectsTableEntry :
    (0xFFFB9C00 : Word).extractLsb' 10 2 = 3 ∧
      ((decodeHeader 0xFFFB9000).isSome = true ∧ (0xFFFB9000 : Word).extractLsb' 10 2 = 0) ∧
      ((decodeHeader 0xFFFB9400).isSome = true ∧ (0xFFFB9400 : Word).extractLsb' 10 2 = 1) ∧
      ((decodeHeader 0xFFFB9800).isSome = true ∧ (0xFFFB9800 : Word).extractLsb' 10 2 = 2) := by decide

theorem witness_PaddingBitAddsOneByte :
    decodeHeader 0xFFFB9000 = some ⟨128, 44100, false⟩ ∧ decodeHeader 0xFFFB9200 = some ⟨128, 44100, true⟩ := by
  decide

theorem witness_FrameSizeIsExactFloorPlusPadding :
    ((0 : Nat) = 0 ∧ 0 < 48000) ∧ 0 + 4 ≤ 4 ∧
      decodeHeader (memRead4 (given [0xFF, 0xFB, 0x90, 0x00]).buffer 0) = some ⟨128, 44100, false⟩ := by decide

theorem witness_DecodedSizeBounds :
    decodeHeader 0xFFFB1400 = some ⟨32, 48000, false⟩ ∧ decodeHeader 0xFFFBEA00 = some ⟨320, 32000, true⟩ := by decide

theorem witness_DecodeCommandReportsHeader :
    decodeHeader ({ State.reset with hdrIn := 0xFFFBEA00 } : State).hdrIn = some ⟨320, 32000, true⟩ ∧
      decodeHeader State.reset.hdrIn = none := by decide

theorem witness_SeekCommandFindsLowestCandidate :
    FirstSync (given [0xFF, 0xFF, 0xFB, 0x00]) 1 ∧ FirstSync (givenGeneral [0xFF, 0xE0]) 0 ∧
      ∀ i, ¬SyncAt (given [0, 0, 0, 0xFF]) i :=
  ⟨firstSync_of (by decide) (by decide) (by decide), firstSync_of (by decide) (by decide) (by decide),
    noSync_of (by decide)⟩

theorem witness_WalkCommandReportsWalkEnd :
    FirstSync (given [0, 0xFF, 0xFB, 0x90, 0x00]) 1 ∧ FirstSync (givenGeneral [0xFF, 0xE3, 0x90, 0x00]) 0 ∧
      ∀ i, ¬SyncAt (given [0, 0, 0, 0]) i :=
  ⟨firstSync_of (by decide) (by decide) (by decide), firstSync_of (by decide) (by decide) (by decide),
    noSync_of (by decide)⟩

/-- W6's walk. -/
theorem witness_WalkEndsInOneWay :
    WalkRun (given [0xFF, 0xFB, 0x90, 0x00]).buffer 4 0 0 ⟨417, 1, .incompleteWindow⟩ :=
  .advance 0 0 ⟨128, 44100, false⟩ _ (by decide) (by decide) (by decide) (.incomplete 417 1 (by decide))

/-- One walk for each clause: at the last offset that leaves a window, and one past it. -/
theorem witness_WalkIsBounded :
    WalkRun [] 4 0 0 ⟨0, 0, .invalidHeader⟩ ∧ WalkRun [] 3 0 0 ⟨0, 0, .incompleteWindow⟩ :=
  ⟨.invalid 0 0 (by decide) (by decide), .incomplete 0 0 (by decide)⟩

theorem witness_StoredCommandWithoutMarker : ∀ k p, ¬OccursAt (given [0x58, 0x69, 0x6E]) k p := noMarker_of (by decide)

/-- The clauses of the record, at the ends of their ranges. -/
theorem witness_StoredCommandReadsRecord :
    (WinningMarker (record 8 1) .xing 1 ∧ (record 8 1).len ≤ 1 + 7) ∧
      (WinningMarker (record 9 0) .xing 1 ∧ 1 + 7 < (record 9 0).len ∧
        ((record 9 0).buffer.read (1 + 7)).getLsbD 0 = false) ∧
      (WinningMarker (record 9 1) .xing 1 ∧ 1 + 7 < (record 9 1).len ∧
        ((record 9 1).buffer.read (1 + 7)).getLsbD 0 = true ∧ (record 9 1).len < 1 + 12) ∧
      (WinningMarker (record 12 1) .xing 1 ∧ (record 12 1).len < 1 + 12) ∧
      (WinningMarker (record 13 1) .xing 1 ∧ 1 + 12 ≤ (record 13 1).len ∧
        ((record 13 1).buffer.read (1 + 7)).getLsbD 0 = true) :=
  ⟨⟨winning_of (by decide) (by decide) (by decide), by decide⟩,
    ⟨winning_of (by decide) (by decide) (by decide), by decide⟩,
    ⟨winning_of (by decide) (by decide) (by decide), by decide⟩,
    ⟨winning_of (by decide) (by decide) (by decide), by decide⟩,
    ⟨winning_of (by decide) (by decide) (by decide), by decide⟩⟩

/-- The other markers win where no one above them occurs; M10's form for "VBRI". -/
theorem witness_WinningMarker_others :
    WinningMarker (given [0x49, 0x6E, 0x66, 0x6F]) .info 0 ∧
      WinningMarker (given [0x56, 0x42, 0x52, 0x49, 0x49]) .vbri 0 :=
  ⟨winning_of (by decide) (by decide) (by decide), winning_of (by decide) (by decide) (by decide)⟩

theorem witness_AutoCommandTriesShortcutThenWalks :
    (recordNoMeta 13 1).ctrl.noMeta = true ∧
      ((given [0xFF, 0xFB]).ctrl.noMeta = false ∧ ∀ k p, ¬OccursAt (given [0xFF, 0xFB]) k p) ∧
      ((record 13 1).ctrl.noMeta = false ∧ WinningMarker (record 13 1) .xing 1 ∧ 1 + 12 ≤ (record 13 1).len ∧
        ((record 13 1).buffer.read (1 + 7)).getLsbD 0 = true) ∧
      (WinningMarker (record 9 0) .xing 1 ∧ 1 + 7 < (record 9 0).len ∧
        ((record 9 0).buffer.read (1 + 7)).getLsbD 0 = false) ∧
      (WinningMarker (record 8 0) .xing 1 ∧ (record 8 0).len ≤ 1 + 7) ∧
      (WinningMarker (record 12 1) .xing 1 ∧ ((record 12 1).buffer.read (1 + 7)).getLsbD 0 = true ∧
        (record 12 1).len < 1 + 12) :=
  ⟨by decide, ⟨by decide, noMarker_of (by decide)⟩,
    ⟨by decide, winning_of (by decide) (by decide) (by decide), by decide⟩,
    ⟨winning_of (by decide) (by decide) (by decide), by decide⟩,
    ⟨winning_of (by decide) (by decide) (by decide), by decide⟩,
    ⟨winning_of (by decide) (by decide) (by decide), by decide⟩⟩

/-- Each command's clauses: a command of the clause answers a next state. -/
theorem witness_CommandsWriteOnlyTheirColumn :
    (∃ t, exec .decode (used []) = .next t) ∧ (∃ t, exec .fsize (used []) = .next t) ∧
      (∃ t, exec .seek (used []) = .next t) ∧ (∃ t, exec .walk (used []) = .next t) ∧
      (∃ t, exec .stored (used []) = .next t) ∧ ∃ t, exec .auto (used []) = .next t :=
  ⟨⟨_, rfl⟩, ⟨_, rfl⟩, ⟨_, rfl⟩, ⟨_, rfl⟩, ⟨_, rfl⟩, ⟨_, rfl⟩⟩

theorem witness_IllegalWordCompletesWithIllegalCmd :
    ((busyWith 0x14 [.block] (used [])).status.busy = true ∧ (busyWith 0x14 [.block] (used [])).bad = true ∧
        (busyWith 0x14 [.block] (used [])).inputs = .block :: []) ∧
      (busyWith 0 [] (used [])).bad = true ∧ (busyWith 0 [] (used [])).inputs = [] := by decide

/-- For every command, a busy state that holds it. -/
theorem witness_StepRunsLatchedCommand (i : Instr) :
    (busyWith (encode i) [] (used [])).status.busy = true ∧ (busyWith (encode i) [] (used [])).bad = false ∧
      (busyWith (encode i) [] (used [])).op = (encode i).extractLsb' 0 4 ∧
      (busyWith (encode i) [] (used [])).inputs = [] ∧
      (busyWith (encode i) [.block] (used [])).inputs = .block :: [] := by cases i <;> decide

theorem witness_IdleBlockHoldsItsState :
    (used []).status.busy = false ∧ (used []).inputs = [] ∧ (used [.block]).inputs = .block :: [] := by decide

theorem witness_CommandRunsFromItsCmdWrite (i : Instr) :
    LP_IDLE_AT_ISSUE (used [.hostWrite 0x00 32 (encode i), .block]) ∧
      (used [.hostWrite 0x00 32 (encode i), .block]).inputs = .hostWrite 0x00 32 (encode i) :: .block :: [] :=
  ⟨rfl, rfl⟩

theorem witness_StepAnswersNextExactlyOnSafeSteps :
    (busyWith 4 [.bufWrite 4 1] (used [])).safeStep = true ∧
      (busyWith 4 [.bufWrite 3 1] (used [])).safeStep = false := by decide

/-- A busy state of the invariant, with a command in progress and its turn to come. -/
theorem witness_StepKeepsInvariant :
    (busyWith 4 [.block] (used [])).Inv ∧ ∃ t, step (busyWith 4 [.block] (used [])) = .next t := by
  refine ⟨?_, ⟨_, rfl⟩⟩
  constructor <;> decide

/-- Two states that differ in earlier results, in the operands that do not count, and in a byte at BUF_LEN. -/
def other (s : State) : State :=
  { s with
    hdrIn := 0xFFFB9000
    res := { Results.zero with count := 3 }
    status := { s.status with haz := true }
    buffer := Memory.write s.buffer s.len 0x77 }

theorem given_other (s : State) (h : s.buffer.wf = true) : LP_BUFFER_GIVEN s (other s) :=
  ⟨rfl, fun a ha => by
    show s.buffer.read a = (Memory.write s.buffer s.len 0x77).read a
    rw [Memory.read_write h, if_neg (by omega)]⟩

theorem witness_ResultsDependOnOperandsAlone :
    (sameOperands .decode (given []) { other (given []) with hdrIn := 0 } ∧
        sameOperands .fsize (given []) (other (given [])) ∧
        sameOperands .seek (given [0xFF, 0xFB]) (other (given [0xFF, 0xFB])) ∧
        sameOperands .walk (given [0xFF, 0xFB]) (other (given [0xFF, 0xFB])) ∧
        sameOperands .stored (given [0xFF, 0xFB]) (other (given [0xFF, 0xFB])) ∧
        sameOperands .auto (given [0xFF, 0xFB]) (other (given [0xFF, 0xFB]))) ∧
      (∃ s' t', exec .walk (accept (encode .walk) (given [0xFF, 0xFB])) = .next s' ∧
        exec .walk (accept (encode .walk) (other (given [0xFF, 0xFB]))) = .next t') ∧
      given [0xFF, 0xFB] ≠ other (given [0xFF, 0xFB]) :=
  ⟨⟨rfl, rfl, ⟨given_other _ (by decide), rfl⟩, ⟨given_other _ (by decide), rfl⟩, given_other _ (by decide),
      given_other _ (by decide), rfl⟩, ⟨_, _, rfl, rfl⟩, by decide⟩

/-- A read of STATUS, a lost write and a byte at BUF_LEN. -/
def meanwhile : List Input := [.hostRead 0x04 32, .hostWrite 0x0C 32 5, .bufWrite 4 1]

/-- They meet the premises of a run whose BUF_LEN is 4. -/
theorem meanwhile_premises :
    Input.block ∉ meanwhile ∧ LP_WORD_ACCESS meanwhile ∧ LP_BUFFER_STABLE 4 meanwhile ∧ Undisturbed meanwhile :=
  (harmless_iff 4 meanwhile).1 (by decide)

theorem witness_BusyAccessesDoNotDisturbCommand :
    (busyWith 4 (meanwhile ++ [.block]) (used [])).buffer.wf = true ∧
      (busyWith 4 (meanwhile ++ [.block]) (used [])).status.busy = true ∧
      (busyWith 4 (meanwhile ++ [.block]) (used [])).inputs = meanwhile ++ .block :: [] ∧
      Input.block ∉ meanwhile ∧ LP_WORD_ACCESS meanwhile ∧
      LP_BUFFER_STABLE (busyWith 4 (meanwhile ++ [.block]) (used [])).len meanwhile ∧ Undisturbed meanwhile ∧
      ∃ u, blockStep (busyWith 4 (meanwhile ++ [.block]) (used [])) = .next u :=
  ⟨by decide, rfl, rfl, meanwhile_premises.1, meanwhile_premises.2.1, meanwhile_premises.2.2.1, meanwhile_premises.2.2.2,
    ⟨_, rfl⟩⟩

/-- The premises with the block's turn after them, and what LP_FAIR_COMPLETION asks. -/
theorem meanwhile_fair :
    LP_WORD_ACCESS (meanwhile ++ [.block]) ∧ LP_BUFFER_STABLE 4 (meanwhile ++ [.block]) ∧
      Undisturbed (meanwhile ++ [.block]) ∧ LP_FAIR_COMPLETION (meanwhile ++ [.block]) :=
  ⟨fun off bits h => meanwhile_premises.2.1 off bits (by simpa using h),
    fun a b h => meanwhile_premises.2.2.1 a b (by simpa using h),
    ⟨by decide, by decide, fun a b h => meanwhile_premises.2.2.2.2.2 a b (by simpa using h)⟩,
    by unfold LP_FAIR_COMPLETION; simp⟩

/-- With a turn among the inputs and a later input that no premise restricts, and with no turn and nothing later. -/
theorem witness_BusyBlockCompletes :
    ((busyWith 4 (meanwhile ++ [.block, .bufWrite 0 1]) (used [])).inputs =
        (meanwhile ++ [.block]) ++ [.bufWrite 0 1] ∧
      (busyWith 4 (meanwhile ++ [.block, .bufWrite 0 1]) (used [])).status.busy = true ∧
      LP_WORD_ACCESS (meanwhile ++ [.block]) ∧ LP_BUFFER_STABLE (busyWith 4 [] (used [])).len (meanwhile ++ [.block]) ∧
      Undisturbed (meanwhile ++ [.block]) ∧ LP_FAIR_COMPLETION (meanwhile ++ [.block])) ∧
    ((busyWith 4 meanwhile (used [])).inputs = meanwhile ++ [] ∧
      (busyWith 4 meanwhile (used [])).status.busy = true ∧ LP_WORD_ACCESS meanwhile ∧
      LP_BUFFER_STABLE (busyWith 4 meanwhile (used [])).len meanwhile ∧ Undisturbed meanwhile) :=
  ⟨⟨rfl, rfl, meanwhile_fair.1, meanwhile_fair.2.1, meanwhile_fair.2.2.1, meanwhile_fair.2.2.2⟩,
    rfl, rfl, meanwhile_premises.2.1, meanwhile_premises.2.2.1, meanwhile_premises.2.2.2⟩

/-- A CMD write while busy, a misaligned access, and a byte written just below BUF_LEN while busy. -/
theorem witness_BrokenLaunchPremisesAreIgnoredOrRefused :
    ((busyWith 4 [.hostWrite 0x00 32 5] (used [])).inputs = .hostWrite 0x00 32 5 :: [] ∧
        ¬LP_IDLE_AT_ISSUE (busyWith 4 [.hostWrite 0x00 32 5] (used []))) ∧
      ((used [.hostRead 0x02 32]).inputs = .hostRead 0x02 32 :: [] ∧ ¬LP_WORD_ACCESS [.hostRead 0x02 32]) ∧
      ((busyWith 4 [.bufWrite 3 1] (used [])).status.busy = true ∧
        ¬LP_BUFFER_STABLE (busyWith 4 [.bufWrite 3 1] (used [])).len [.bufWrite 3 1]) :=
  ⟨⟨rfl, by unfold LP_IDLE_AT_ISSUE; decide⟩,
    ⟨rfl, fun h => absurd (h 0x02 32 (.inl (List.mem_singleton.2 rfl))) (by decide)⟩,
    rfl, fun h => absurd (h 3 1 (List.mem_singleton.2 rfl)) (by decide)⟩

/-- The state of one launch of WALK, with accesses before the block's turn and a later input that no premise restricts. -/
def launched : State := used (.hostWrite 0x00 32 4 :: (meanwhile ++ [.block, .bufWrite 0 1]))

/-- Another launch of it, with other earlier results, another byte at BUF_LEN and the turn at once. -/
def launchedAtOnce : State := withInputs [.hostWrite 0x00 32 4, .block] (other launched)

theorem witness_LaunchedRunsEndWithTheCommandsResults :
    Launch .walk launched (meanwhile ++ [.block]) [.bufWrite 0 1] ∧ Launch .walk launchedAtOnce [.block] [] ∧
      sameOperands .walk launched launchedAtOnce ∧ launched.res ≠ launchedAtOnce.res :=
  ⟨⟨by decide, rfl, rfl, meanwhile_fair.1, meanwhile_fair.2.1, meanwhile_fair.2.2.1, meanwhile_fair.2.2.2⟩,
    ⟨by decide, rfl, rfl, by simp [LP_WORD_ACCESS], by simp [LP_BUFFER_STABLE], by simp [Undisturbed],
      List.mem_singleton.2 rfl⟩,
    ⟨given_other launched (by decide), rfl⟩, by decide⟩

/-- A buffer on which STORED succeeds and one on which it fails. -/
theorem witness_AutoEqualsStoredThenWalk :
    ((record 13 1).ctrl.noMeta = false ∧ values [.status] (exec .stored (accept 5 (record 13 1))) = some [0x00021212]) ∧
      ((record 12 1).ctrl.noMeta = false ∧ values [.status] (exec .stored (accept 5 (record 12 1))) = some [0x00062232]) ∧
      ∃ a b c, exec .auto (accept (encode .auto) (record 12 1)) = .next a ∧
        exec .stored (accept (encode .stored) (record 12 1)) = .next b ∧
        exec .walk (accept (encode .walk) b) = .next c :=
  ⟨by decide, by decide, ⟨_, _, _, rfl, rfl, rfl⟩⟩

/-- Two frames of 96 bytes: `FF FB 14 00` at 0 and at 96 (95_test_vectors.md, F96). -/
def twoFrames : State :=
  { State.reset with
    bufLen := 192
    buffer := [(0, 0xFF), (1, 0xFB), (2, 0x14), (96, 0xFF), (97, 0xFB), (98, 0x14)] }

theorem witness_WalkCountsConsecutiveFrames :
    (1 ≤ 2 ∧ 96 * 0 = 0 ∧ 96 * 2 = twoFrames.len) ∧ SyncAt twoFrames 0 ∧
      ∀ j, j < 2 → ∃ h, decodeHeader (memRead4 twoFrames.buffer (96 * j)) = some h ∧ 96 * (j + 1) = 96 * j + h.size :=
  ⟨by decide, (isSync_iff twoFrames 0).1 (by decide), fun j hj => ⟨⟨32, 48000, false⟩, by
    revert j
    decide⟩⟩

/-- A command split into finer steps that has not completed yet, and its end after the steps of W6's walk: one offset,
two walk steps, the final one. -/
theorem witness_FineStepsEndWhereAtomicStepEnds :
    (fineRun .walk 0 (fineStart .walk (given [0xFF, 0xFB, 0x90, 0x00]))).2 ≠ .done ∧
      (fineRun .walk 3 (fineStart .walk (given [0xFF, 0xFB, 0x90, 0x00]))).2 = .last .ok (.headers 1) ∧
      (fineRun .walk 4 (fineStart .walk (given [0xFF, 0xFB, 0x90, 0x00]))).2 = .done ∧
      regValue (fineRun .walk 4 (fineStart .walk (given [0xFF, 0xFB, 0x90, 0x00]))).1 .status = 0x00008112 := by
  decide

/-- The register values a split run ends with; none after a stop. -/
def splitValues (rs : List Reg) (k : Nat) (s : State) : Option (List Word) :=
  match Host.Core.run splitCore k (⟨s, none⟩ : Split) with
  | .next p => some (rs.map (regValue p.host))
  | .fault _ => none
  | .refused _ => none

/-- Q8 and W6 in the split machine: STATUS reads 0x00000001 until the final step. -/
theorem test_split_status :
    splitValues [.status] 3 (busyWith 4 [] (given [0xFF, 0xFB, 0x90, 0x00])) = some [0x00000001] ∧
      splitValues [.status, .hdrCount, .cursor, .count] 4 (busyWith 4 [] (given [0xFF, 0xFB, 0x90, 0x00])) =
        some [0x00008112, 1, 417, 0] := by decide

/-- An idle state, and a busy one with a step of the host and with a reset to come. -/
theorem witness_SplitHostStepsAreAtomicOnes :
    (⟨used [.block], none⟩ : Split).host.status.busy = false ∧
      (∃ x rest, (⟨busyWith 4 meanwhile (used []), none⟩ : Split).host.inputs = x :: rest ∧ x ≠ .block) ∧
      ∃ x rest, (⟨busyWith 4 [.reset] (used []), none⟩ : Split).host.inputs = x :: rest ∧ x ≠ .block :=
  ⟨by decide, ⟨_, _, rfl, by decide⟩, ⟨_, _, rfl, by decide⟩⟩

theorem witness_SplitCommandEndsLikeTheAtomicStep :
    (busyWith 4 [] (used [])).status.busy = true ∧ (busyWith 4 [] (used [])).inputs = [] ∧
      (busyWith 0x14 [] (used [])).status.busy = true ∧ (busyWith 0x14 [] (used [])).inputs = [] := by decide

/-- Accesses and one turn among them, with what comes later not restricted. -/
theorem witness_SplitHostSeesTheAtomicMachine :
    (busyWith 4 (meanwhile ++ [.block, .bufWrite 0 1]) (used [])).buffer.wf = true ∧
      (busyWith 4 (meanwhile ++ [.block, .bufWrite 0 1]) (used [])).status.busy = true ∧
      (busyWith 4 (meanwhile ++ [.block, .bufWrite 0 1]) (used [])).inputs =
        (meanwhile ++ [.block]) ++ [.bufWrite 0 1] ∧
      LP_WORD_ACCESS (meanwhile ++ [.block]) ∧
      LP_BUFFER_STABLE (busyWith 4 (meanwhile ++ [.block, .bufWrite 0 1]) (used [])).len (meanwhile ++ [.block]) ∧
      Undisturbed (meanwhile ++ [.block]) :=
  ⟨by decide, rfl, rfl, meanwhile_fair.1, meanwhile_fair.2.1, meanwhile_fair.2.2.1⟩

end Sys2Proof.Tests
end

section
/-! SUPPORT. The buffer as the block sees it (20_memory.md): multi-byte reads are big-endian (R46), and a command changes
STATUS and the result registers only, so never the buffer (R43). -/

namespace Sys2Proof.Machine

/-! ## Multi-byte reads -/

theorem memRead2_toNat (m : Memory) (a : Nat) :
    (memRead2 m a).toNat = (m.read a).toNat * 256 + (m.read (a + 1)).toNat := toNat_append_add _ _

theorem memRead4_toNat (m : Memory) (a : Nat) :
    (memRead4 m a).toNat =
      (m.read a).toNat * 2 ^ 24 + (m.read (a + 1)).toNat * 2 ^ 16 + (m.read (a + 2)).toNat * 2 ^ 8 +
        (m.read (a + 3)).toNat := by
  simp only [memRead4, toNat_append_add]
  ring

@[simp] theorem windowB0_memRead4 (m : Memory) (a : Nat) : windowB0 (memRead4 m a) = m.read a := by
  rw [windowB0, memRead4, BitVec.extractLsb'_append_eq_of_le (by decide),
    BitVec.extractLsb'_append_eq_of_le (by decide), BitVec.extractLsb'_append_eq_left]

@[simp] theorem windowB1_memRead4 (m : Memory) (a : Nat) : windowB1 (memRead4 m a) = m.read (a + 1) := by
  rw [windowB1, memRead4, BitVec.extractLsb'_append_eq_of_le (by decide),
    BitVec.extractLsb'_append_eq_of_le (by decide), BitVec.extractLsb'_append_eq_right]

@[simp] theorem windowB2_memRead4 (m : Memory) (a : Nat) : windowB2 (memRead4 m a) = m.read (a + 2) := by
  rw [windowB2, memRead4, BitVec.extractLsb'_append_eq_of_le (by decide), BitVec.extractLsb'_append_eq_right]

/-- Settles O13: the value of each read is that of an append, and each window field is one of the bytes appended. -/
theorem multiByteReadsAreBigEndian : Obligations.MultiByteReadsAreBigEndian := fun m c =>
  ⟨memRead2_toNat m c, memRead4_toNat m c, windowB0_memRead4 m c, windowB1_memRead4 m c, windowB2_memRead4 m c⟩

/-! ## What a command can change -/

theorem writeStored_frame (o : StoredOutcome) (s : State) :
    ∃ st res, writeStored o s = { s with status := st, res := res } := by
  cases o <;> exact ⟨_, _, rfl⟩

theorem countFrames_frame (s : State) : ∃ st res, (countFrames s).1 = { s with status := st, res := res } := by
  unfold countFrames
  cases seek s.ctrl.syncMode s.buffer s.len <;> exact ⟨_, _, rfl⟩

theorem walkPath_frame (s : State) : ∃ st res, (walkPath s).1 = { s with status := st, res := res } :=
  countFrames_frame (writeSrc false s)

theorem frameCountTwoTier_frame (s : State) :
    ∃ st res, (frameCountTwoTier s).1 = { s with status := st, res := res } := by
  obtain ⟨st, res, hstored⟩ := writeStored_frame (storedFrameCount s.buffer s.len) s
  unfold frameCountTwoTier
  cases s.ctrl.noMeta with
  | true => exact walkPath_frame s
  | false =>
    simp only [hstored]
    cases storedFrameCount s.buffer s.len with
    | ok k p c => exact ⟨_, _, rfl⟩
    | noCountStored k p trunc => exact walkPath_frame { s with status := st, res := res }
    | notFound => exact walkPath_frame { s with status := st, res := res }

theorem execDecode_eq_next (s : State) : ∃ st res, execDecode s = .next { s with status := st, res := res } := by
  unfold execDecode
  cases headerStep s.hdrIn <;> exact ⟨_, _, rfl⟩

theorem execSeek_eq_next (s : State) : ∃ st res, execSeek s = .next { s with status := st, res := res } := by
  unfold execSeek
  cases seek s.ctrl.syncMode s.buffer s.len <;> exact ⟨_, _, rfl⟩

theorem execWalk_eq_next (s : State) : ∃ st res, execWalk s = .next { s with status := st, res := res } := by
  obtain ⟨st, res, hwalk⟩ := countFrames_frame s
  simp only [execWalk, hwalk]
  exact ⟨_, _, rfl⟩

theorem execStored_eq_next (s : State) : ∃ st res, execStored s = .next { s with status := st, res := res } := by
  unfold execStored
  cases storedFrameCount s.buffer s.len <;> exact ⟨_, _, rfl⟩

theorem execAuto_eq_next (s : State) : ∃ st res, execAuto s = .next { s with status := st, res := res } := by
  obtain ⟨st, res, hcount⟩ := frameCountTwoTier_frame s
  simp only [execAuto, hcount]
  exact ⟨_, _, rfl⟩

/-- Every command completes, and what it leaves differs from the state before in STATUS and the result registers only
(60_exceptions.md R185, R190). -/
theorem exec_eq_next (i : Instr) (s : State) : ∃ st res, exec i s = .next { s with status := st, res := res } := by
  cases i with
  | decode => exact execDecode_eq_next s
  | fsize => exact ⟨_, _, rfl⟩
  | seek => exact execSeek_eq_next s
  | walk => exact execWalk_eq_next s
  | stored => exact execStored_eq_next s
  | auto => exact execAuto_eq_next s

/-- A turn of a busy block too, whether a command or an illegal word is latched (20_memory.md R58; 30_encoding.md R71). -/
theorem blockStep_eq_next (s : State) : ∃ st res, blockStep s = .next { s with status := st, res := res } := by
  unfold blockStep
  cases latched s with
  | some i => exact exec_eq_next i s
  | none => exact ⟨_, _, rfl⟩

theorem exec_buffer {i : Instr} {s t : State} (h : exec i s = .next t) : t.buffer = s.buffer := by
  obtain ⟨st, res, he⟩ := exec_eq_next i s
  cases he.symm.trans h
  rfl

theorem blockStep_buffer {s t : State} (h : blockStep s = .next t) : t.buffer = s.buffer := by
  obtain ⟨st, res, he⟩ := blockStep_eq_next s
  cases he.symm.trans h
  rfl

/-- Settles O14: a command and an illegal word both leave the buffer's data itself unchanged. -/
theorem blockNeverWritesBuffer : Obligations.BlockNeverWritesBuffer :=
  ⟨fun _ _ _ h _ => by rw [exec_buffer h], fun _ _ h _ => by rw [blockStep_buffer h]⟩

end Sys2Proof.Machine
end

section
/-! SUPPORT. The header decoder (40_header_decode.md): its checks as fields of the window, what it answers and when, and
what toggling the protection and the padding bit does to it. -/

namespace Sys2Proof.Machine

/-! ## Fields and masks of words -/

theorem extractLsb'_extractLsb' {n i l j m : Nat} {x : BitVec n} (h : i + l ≤ m) :
    (x.extractLsb' j m).extractLsb' i l = x.extractLsb' (j + i) l := by
  refine BitVec.eq_of_getLsbD_eq fun k hk => ?_
  have hm : i + k < m := by omega
  simp [hk, hm, Nat.add_assoc]

/-- A field as two adjacent shorter ones. -/
theorem extractLsb'_add_eq_append {n : Nat} (x : BitVec n) (i a b : Nat) :
    x.extractLsb' i (a + b) = x.extractLsb' (i + b) a ++ x.extractLsb' i b :=
  (BitVec.extractLsb'_append_extractLsb'_eq_extractLsb' rfl).symm

theorem append_eq_append_iff {m n : Nat} {a a' : BitVec m} {b b' : BitVec n} :
    a ++ b = a' ++ b' ↔ a = a' ∧ b = b' := by
  refine ⟨fun h => ⟨?_, ?_⟩, fun ⟨ha, hb⟩ => by rw [ha, hb]⟩
  · simpa [BitVec.extractLsb'_append_eq_left] using congrArg (BitVec.extractLsb' n m) h
  · simpa [BitVec.extractLsb'_append_eq_right] using congrArg (BitVec.extractLsb' 0 n) h

/-- A mask of the high bits compares the high field alone. -/
theorem append_and_highMask_eq_iff {m n : Nat} (hi c : BitVec m) (lo : BitVec n) :
    (hi ++ lo) &&& (BitVec.allOnes m ++ 0#n) = c ++ 0#n ↔ hi = c := by
  rw [BitVec.and_append, BitVec.and_allOnes, BitVec.and_zero, BitVec.append_left_inj]

/-- Equal fields are equal in every field inside them. -/
theorem extractLsb'_congr {n i l j m : Nat} {x y : BitVec n} (h : x.extractLsb' j m = y.extractLsb' j m)
    (hl : i + l ≤ m) : x.extractLsb' (j + i) l = y.extractLsb' (j + i) l := by
  rw [← extractLsb'_extractLsb' hl, h, extractLsb'_extractLsb' hl]

/-- A field that a word of toggled bits does not reach. -/
theorem extractLsb'_xor_of_zero {n i l : Nat} {x m : BitVec n} (h : m.extractLsb' i l = 0) :
    (x ^^^ m).extractLsb' i l = x.extractLsb' i l := by
  rw [BitVec.extractLsb'_xor, h, BitVec.ofNat_eq_ofNat, BitVec.xor_zero]

/-! ## The fields of a window -/

theorem windowB0_append_windowB1 (w : Word) : windowB0 w ++ windowB1 w = w.extractLsb' 16 16 :=
  (extractLsb'_add_eq_append w 16 8 8).symm

theorem brIdx_eq_extractLsb' (w : Word) : brIdx w = w.extractLsb' 12 4 := extractLsb'_extractLsb' (by decide)

theorem srIdx_eq_extractLsb' (w : Word) : srIdx w = w.extractLsb' 10 2 := extractLsb'_extractLsb' (by decide)

theorem padBit_eq_getLsbD (w : Word) : padBit w = w.getLsbD 9 := BitVec.getLsbD_extractLsb' ..

theorem protBit_eq_getLsbD (w : Word) : protBit w = w.getLsbD 16 := BitVec.getLsbD_extractLsb' ..

/-! ## The two checks -/

/-- The sync check compares the eleven high bits (40_header_decode.md R91). -/
theorem syncCheck_iff_elevenOnes (w : Word) : syncCheck w = true ↔ w.extractLsb' 21 11 = BitVec.allOnes 11 := by
  have hsplit : windowB0 w ++ windowB1 w = w.extractLsb' 21 11 ++ w.extractLsb' 16 5 :=
    (windowB0_append_windowB1 w).trans (extractLsb'_add_eq_append w 16 11 5)
  rw [syncCheck, beq_iff_eq, hsplit]
  exact append_and_highMask_eq_iff (w.extractLsb' 21 11) (BitVec.allOnes 11) (w.extractLsb' 16 5)

theorem syncCheck_iff_mask (w : Word) : syncCheck w = true ↔ w.extractLsb' 16 16 &&& 0xFFE0 = 0xFFE0 := by
  rw [syncCheck, beq_iff_eq, windowB0_append_windowB1]
  rfl

theorem syncCheck_iff_bytes (w : Word) :
    syncCheck w = true ↔ w.extractLsb' 24 8 = 0xFF ∧ w.extractLsb' 21 3 = 0b111 := by
  have hsplit : w.extractLsb' 21 11 = w.extractLsb' 24 8 ++ w.extractLsb' 21 3 :=
    extractLsb'_add_eq_append w 21 8 3
  rw [syncCheck_iff_elevenOnes, hsplit]
  exact append_eq_append_iff (a' := 0xFF) (b' := 0b111)

/-- b1 as its seven high bits, which the version and layer check reads, and the protection bit. -/
theorem windowB1_eq_append (w : Word) : windowB1 w = w.extractLsb' 17 7 ++ w.extractLsb' 16 1 :=
  extractLsb'_add_eq_append w 16 7 1

/-- The version and layer check compares b1[7:1] (40_header_decode.md R92). -/
theorem versionLayerCheck_iff_highBits (w : Word) :
    versionLayerCheck w = true ↔ w.extractLsb' 17 7 = 0b1111101 := by
  have hfb (p : BitVec 7) (q : BitVec 1) : p ++ q = 0xFB ↔ p = 0b1111101 ∧ q = 1 :=
    append_eq_append_iff (a' := 0b1111101) (b' := 1)
  have hfa (p : BitVec 7) (q : BitVec 1) : p ++ q = 0xFA ↔ p = 0b1111101 ∧ q = 0 :=
    append_eq_append_iff (a' := 0b1111101) (b' := 0)
  have hprot : w.extractLsb' 16 1 = 1 ∨ w.extractLsb' 16 1 = 0 := (BitVec.eq_zero_or_eq_one _).symm
  rw [versionLayerCheck, Bool.or_eq_true, beq_iff_eq, beq_iff_eq, windowB1_eq_append, hfb, hfa, ← and_or_left,
    and_iff_left hprot]

theorem versionLayerCheck_iff_mask (w : Word) :
    versionLayerCheck w = true ↔ w.extractLsb' 16 8 &&& 0xFE = 0xFA := by
  rw [versionLayerCheck_iff_highBits, show w.extractLsb' 16 8 = _ from windowB1_eq_append w]
  exact (append_and_highMask_eq_iff (w.extractLsb' 17 7) 0b1111101 (w.extractLsb' 16 1)).symm

/-- Beside a passed sync check, which fixes b1[7:5], b1[4:1] alone decides. -/
theorem versionLayerCheck_iff_of_syncCheck {w : Word} (h : syncCheck w = true) :
    versionLayerCheck w = true ↔ w.extractLsb' 17 4 = 0b1101 := by
  obtain ⟨-, hones⟩ := (syncCheck_iff_bytes w).1 h
  have hsplit : w.extractLsb' 17 7 = w.extractLsb' 21 3 ++ w.extractLsb' 17 4 :=
    extractLsb'_add_eq_append w 17 3 4
  rw [versionLayerCheck_iff_highBits, hsplit, hones]
  exact BitVec.append_right_inj (0b111 : BitVec 3) (t₂ := 0b1101)

/-! ## What the tables answer -/

/-- The bit-rate table answers exactly at the indices other than 0 and 15 (40_header_decode.md R93). -/
theorem bitRate?_eq_some {i : BitVec 4} {n : Nat} :
    bitRate? i = some n ↔ (i ≠ 0 ∧ i ≠ 15) ∧ brTable[i.toNat - 1]? = some n := by
  unfold bitRate?
  split
  next hres => exact ⟨nofun, fun h => absurd hres (not_or.2 h.1)⟩
  next hok => exact (and_iff_right (not_or.1 hok)).symm

/-- The sampling-rate table answers exactly at the indices other than 3 (40_header_decode.md R94). -/
theorem samplingRate?_eq_some {i : BitVec 2} {n : Nat} :
    samplingRate? i = some n ↔ i ≠ 3 ∧ srTable[i.toNat]? = some n := by
  unfold samplingRate?
  split
  next hres => exact ⟨nofun, fun h => absurd hres h.1⟩
  next hok => exact (and_iff_right hok).symm

theorem bitRate?_bounds {i : BitVec 4} {n : Nat} (h : bitRate? i = some n) : 32 ≤ n ∧ n ≤ 320 := by
  have hall : ∀ k ∈ brTable, 32 ≤ k ∧ k ≤ 320 := by decide
  exact hall n (List.mem_of_getElem? (bitRate?_eq_some.1 h).2)

theorem samplingRate?_bounds {i : BitVec 2} {n : Nat} (h : samplingRate? i = some n) : 32000 ≤ n ∧ n ≤ 48000 := by
  have hall : ∀ k ∈ srTable, 32000 ≤ k ∧ k ≤ 48000 := by decide
  exact hall n (List.mem_of_getElem? (samplingRate?_eq_some.1 h).2)

/-! ## The decoder -/

/-- Everything decode_header can answer: a header exactly when both checks pass and both indices have an entry, and then
these entries and the padding bit, no rate cut off by its field's width (40_header_decode.md R90). -/
theorem decodeHeader_eq_some {w : Word} {h : Header} :
    decodeHeader w = some h ↔
      (syncCheck w = true ∧ versionLayerCheck w = true) ∧ bitRate? (brIdx w) = some h.bitRateKbps.toNat ∧
        samplingRate? (srIdx w) = some h.samplingRateHz.toNat ∧ h.padding = padBit w := by
  obtain ⟨hbr, hsr, hpad⟩ := h
  unfold decodeHeader
  cases syncCheck w with
  | false => simp
  | true =>
    cases versionLayerCheck w with
    | false => simp
    | true =>
      cases hb : bitRate? (brIdx w) with
      | none => simp
      | some br =>
        cases hs : samplingRate? (srIdx w) with
        | none => simp
        | some sr =>
          have hbw := bitRate?_bounds hb
          have hsw := samplingRate?_bounds hs
          simp only [Bool.not_true, Bool.false_eq_true, if_false, Option.some.injEq, Header.mk.injEq, and_self,
            true_and, ← BitVec.toNat_inj, BitVec.toNat_ofNat]
          rw [Nat.mod_eq_of_lt (by omega), Nat.mod_eq_of_lt (by omega), eq_comm (a := padBit w)]

theorem decodeHeader_eq_none_of_syncCheck {w : Word} (h : syncCheck w = false) : decodeHeader w = none := by
  simp [decodeHeader, h]

theorem decodeHeader_eq_none_of_versionLayerCheck {w : Word} (h : versionLayerCheck w = false) :
    decodeHeader w = none := by
  simp [decodeHeader, h]

theorem decodeHeader_eq_none_of_b1 {w : Word} (h : w.extractLsb' 16 8 &&& 0xFE ≠ 0xFA) : decodeHeader w = none :=
  decodeHeader_eq_none_of_versionLayerCheck (Bool.eq_false_iff.2 fun hver => h ((versionLayerCheck_iff_mask w).1 hver))

/-- The decoder reads bits 31:17 and 15:10 of the window and the padding bit, and nothing else. -/
theorem decodeHeader_congr {w v : Word} (hchecks : w.extractLsb' 17 15 = v.extractLsb' 17 15)
    (hindices : w.extractLsb' 10 6 = v.extractLsb' 10 6) :
    decodeHeader w = (decodeHeader v).map fun h => { h with padding := padBit w } := by
  have hsync : syncCheck w = syncCheck v := by
    rw [Bool.eq_iff_iff, syncCheck_iff_elevenOnes, syncCheck_iff_elevenOnes,
      extractLsb'_congr (i := 4) hchecks (by decide)]
  have hversion : versionLayerCheck w = versionLayerCheck v := by
    rw [Bool.eq_iff_iff, versionLayerCheck_iff_highBits, versionLayerCheck_iff_highBits,
      extractLsb'_congr (i := 0) hchecks (by decide)]
  have hbr : brIdx w = brIdx v := by
    rw [brIdx_eq_extractLsb', brIdx_eq_extractLsb', extractLsb'_congr (i := 2) hindices (by decide)]
  have hsr : srIdx w = srIdx v := by
    rw [srIdx_eq_extractLsb', srIdx_eq_extractLsb', extractLsb'_congr (i := 0) hindices (by decide)]
  unfold decodeHeader
  rw [hsync, hversion, hbr, hsr]
  cases syncCheck v
  · rfl
  cases versionLayerCheck v
  · rfl
  cases bitRate? (brIdx v)
  · rfl
  cases samplingRate? (srIdx v) <;> rfl

theorem decodeHeader_eq_of_padBit_eq {w v : Word} (hchecks : w.extractLsb' 17 15 = v.extractLsb' 17 15)
    (hindices : w.extractLsb' 10 6 = v.extractLsb' 10 6) (hpad : padBit w = padBit v) :
    decodeHeader w = decodeHeader v := by
  rw [decodeHeader_congr hchecks hindices]
  cases hv : decodeHeader v with
  | none => rfl
  | some h =>
    obtain ⟨-, -, -, hp⟩ := decodeHeader_eq_some.1 hv
    rw [Option.map_some, hpad, ← hp]

theorem decodeHeader_toggleProt (w : Word) : decodeHeader (w ^^^ 0x00010000) = decodeHeader w :=
  decodeHeader_eq_of_padBit_eq (extractLsb'_xor_of_zero (by decide)) (extractLsb'_xor_of_zero (by decide))
    (by simp [padBit_eq_getLsbD])

theorem decodeHeader_togglePad (w : Word) :
    decodeHeader (w ^^^ 0x00000200) = (decodeHeader w).map fun h => { h with padding := !h.padding } := by
  have htoggle : padBit (w ^^^ 0x00000200) = !padBit w := by simp [padBit_eq_getLsbD]
  rw [decodeHeader_congr (extractLsb'_xor_of_zero (by decide)) (extractLsb'_xor_of_zero (by decide)), htoggle]
  refine Option.map_congr fun h hw => ?_
  obtain ⟨-, -, -, hp⟩ := decodeHeader_eq_some.1 hw
  rw [hp]

/-! ## The size of a decoded header -/

theorem frameSize_true {br sr : Nat} (h : sr ≠ 0) : frameSize br sr true = frameSize br sr false + 1 := by
  simp [frameSize, h]

/-- Every table entry's rate is large enough for a frame (41_frame_size.md R112, R115). -/
theorem Header.size_pos {w : Word} {h : Header} (hd : decodeHeader w = some h) : 0 < h.size := by
  obtain ⟨-, hbr, hsr, -⟩ := decodeHeader_eq_some.1 hd
  have hb := bitRate?_bounds hbr
  have hs := samplingRate?_bounds hsr
  have hdiv : 0 < fsCoeff * h.bitRateKbps.toNat / h.samplingRateHz.toNat :=
    Nat.div_pos (by unfold fsCoeff; omega) (by omega)
  rw [Header.size, frameSize, if_neg (by omega)]
  omega

/-- header_step on a decoded header is never degenerate (40_header_decode.md R99). -/
theorem headerStep_eq_valid {w : Word} {h : Header} (hd : decodeHeader w = some h) :
    headerStep w = .valid h h.size := by
  have hpos := Header.size_pos hd
  rw [headerStep, hd]
  exact if_neg (by omega)

theorem headerStep_congr {w v : Word} (h : decodeHeader w = decodeHeader v) : headerStep w = headerStep v := by
  rw [headerStep, headerStep, h]

/-! ## HDR_FLAGS -/

theorem execDecode_of_decodeHeader {s : State} {h : Header} (hd : decodeHeader s.hdrIn = some h) :
    execDecode s = .next (complete (finish .ok (writeHeader s.hdrIn h h.size s))) := by
  rw [execDecode, headerStep_eq_valid hd]

@[simp] theorem writeStored_hdrFlags (o : StoredOutcome) (s : State) :
    (writeStored o s).res.hdrFlags = s.res.hdrFlags := by
  cases o <;> rfl

@[simp] theorem countFrames_hdrFlags (s : State) : (countFrames s).1.res.hdrFlags = s.res.hdrFlags := by
  unfold countFrames
  cases seek s.ctrl.syncMode s.buffer s.len <;> rfl

@[simp] theorem walkPath_hdrFlags (s : State) : (walkPath s).1.res.hdrFlags = s.res.hdrFlags :=
  countFrames_hdrFlags (writeSrc false s)

@[simp] theorem frameCountTwoTier_hdrFlags (s : State) :
    (frameCountTwoTier s).1.res.hdrFlags = s.res.hdrFlags := by
  unfold frameCountTwoTier
  cases s.ctrl.noMeta with
  | true => exact walkPath_hdrFlags s
  | false => cases storedFrameCount s.buffer s.len <;> simp

theorem execSeek_hdrFlags {s t : State} (h : execSeek s = .next t) : t.res.hdrFlags = s.res.hdrFlags := by
  unfold execSeek at h
  cases hseek : seek s.ctrl.syncMode s.buffer s.len <;> rw [hseek] at h <;> cases h <;> rfl

theorem execStored_hdrFlags {s t : State} (h : execStored s = .next t) : t.res.hdrFlags = s.res.hdrFlags := by
  unfold execStored at h
  cases hstored : storedFrameCount s.buffer s.len <;> rw [hstored] at h <;> cases h <;> rfl

/-- DECODE alone writes HDR_FLAGS (10_state.md R31). -/
theorem exec_hdrFlags {i : Instr} {s t : State} (hi : i ≠ .decode) (h : exec i s = .next t) :
    t.res.hdrFlags = s.res.hdrFlags := by
  cases i with
  | decode => exact absurd rfl hi
  | fsize => cases h; rfl
  | seek => exact execSeek_hdrFlags h
  | walk => cases h; exact countFrames_hdrFlags s
  | stored => exact execStored_hdrFlags h
  | auto => cases h; exact frameCountTwoTier_hdrFlags s

/-! ## The statements -/

/-- Settles O17: both forms of the check say that the eleven high bits are ones; the corner cases follow from the mask
form, and 0xFFE0 passes and then fails the version and layer check. -/
theorem syncCheckIsElevenOnes : Obligations.SyncCheckIsElevenOnes := by
  intro w
  have hfail {b : BitVec 16} (hb : b &&& 0xFFE0 ≠ 0xFFE0) (h : w.extractLsb' 16 16 = b) : syncCheck w = false :=
    Bool.eq_false_iff.2 fun hsync => hb (h ▸ (syncCheck_iff_mask w).1 hsync)
  refine ⟨syncCheck_iff_mask w, syncCheck_iff_bytes w, decodeHeader_eq_none_of_syncCheck, hfail (by decide),
    hfail (by decide), fun h => ⟨?_, ?_⟩⟩
  · rw [syncCheck_iff_mask, h]
    decide
  · have hb1 : w.extractLsb' 16 8 = 0xE0 := by
      rw [← extractLsb'_extractLsb' (i := 0) (m := 16) (by decide), h]
      decide
    exact decodeHeader_eq_none_of_b1 (by rw [hb1]; decide)

/-- Settles O18: the check reads b1[7:1], the decoder nothing of b1[0], and DECODE is the only command to write
HDR_FLAGS. -/
theorem versionLayerCheckIgnoresProtection : Obligations.VersionLayerCheckIgnoresProtection := by
  intro w
  refine ⟨versionLayerCheck_iff_mask w, versionLayerCheck_iff_of_syncCheck,
    decodeHeader_eq_none_of_versionLayerCheck, fun hb1 => ?_, decodeHeader_toggleProt w,
    headerStep_congr (decodeHeader_toggleProt w), fun s t hw ht hvalid => ?_, fun i s t => exec_hdrFlags⟩
  · have hmem : ∀ b ∈ ([0xF3, 0xE3, 0xFD, 0xFF] : List Byte), b &&& 0xFE ≠ 0xFA := by decide
    exact decodeHeader_eq_none_of_b1 (hmem _ hb1)
  · subst hw
    obtain ⟨h, hd⟩ := Option.isSome_iff_exists.1 hvalid
    cases (execDecode_of_decodeHeader hd).symm.trans ht
    exact protBit_eq_getLsbD s.hdrIn

/-- Settles O19: a header needs an entry at its index, and `bitRate?` has none at 0 and 15. -/
theorem bitRateIndexSelectsTableEntry : Obligations.BitRateIndexSelectsTableEntry := by
  intro w
  have hentry {h : Header} (hd : decodeHeader w = some h) := bitRate?_eq_some.1 (decodeHeader_eq_some.1 hd).2.1
  rw [brIdx_eq_extractLsb'] at hentry
  exact ⟨fun hres => Option.eq_none_iff_forall_ne_some.2 fun h hd => not_or.2 (hentry hd).1 hres,
    fun h hd => (hentry hd).2⟩

/-- Settles O20: a header needs an entry at its index, and `samplingRate?` has none at 3. -/
theorem samplingRateIndexSelectsTableEntry : Obligations.SamplingRateIndexSelectsTableEntry := by
  intro w
  have hentry {h : Header} (hd : decodeHeader w = some h) := samplingRate?_eq_some.1 (decodeHeader_eq_some.1 hd).2.2.1
  rw [srIdx_eq_extractLsb'] at hentry
  refine ⟨fun hres => Option.eq_none_iff_forall_ne_some.2 fun h hd => (hentry hd).1 hres, fun h hd => ?_⟩
  obtain ⟨-, hrate⟩ := hentry hd
  refine ⟨fun hidx => ?_, fun hidx => ?_, fun hidx => ?_⟩ <;>
    (rw [hidx] at hrate; exact (Option.some.inj hrate).symm)

/-- Settles O21: toggling bit 9 maps the header to the one with the other padding, whose size differs by the padding. -/
theorem paddingBitAddsOneByte : Obligations.PaddingBitAddsOneByte := by
  intro w
  refine ⟨by rw [decodeHeader_togglePad, Option.isSome_map], fun h hd => ?_⟩
  obtain ⟨-, -, hsr, hpad⟩ := decodeHeader_eq_some.1 hd
  have hs := samplingRate?_bounds hsr
  have hdivisor : h.samplingRateHz.toNat ≠ 0 := by omega
  refine ⟨hpad.trans (padBit_eq_getLsbD w), fun hp => ⟨{ h with padding := true }, ?_, rfl, ?_⟩⟩
  · rw [decodeHeader_togglePad, hd, Option.map_some, hp, Bool.not_false]
  · rw [Header.size, Header.size, hp]
    exact frameSize_true hdivisor

end Sys2Proof.Machine
end

section
/-! SUPPORT. The frame size (41_frame_size.md): one floor division and the padding, 0 for a zero divisor, and the distance
a walk advances from one valid header to the next. -/

namespace Sys2Proof.Machine

/-- A zero divisor gives no size, not even the padding (41_frame_size.md R110, R112; decision D18). -/
@[simp] theorem frameSize_zero (br : Nat) (pad : Bool) : frameSize br 0 pad = 0 := rfl

theorem frameSize_of_pos {br sr : Nat} (h : 0 < sr) (pad : Bool) :
    frameSize br sr pad = fsCoeff * br / sr + if pad then 1 else 0 := by
  rw [frameSize, if_neg (by omega)]
  cases pad <;> rfl

/-- The dividend as the source's second form writes it, 1152 samples of 8 bits at br * 1000 bits per second
(41_frame_size.md R110). -/
theorem fsCoeff_mul_eq (br : Nat) : fsCoeff * br = 1152 / 8 * (br * 1000) := by
  unfold fsCoeff
  omega

/-- A walk advances from a valid header by exactly its frame's size (43_scan_walk.md R143). -/
theorem walkStep_eq_advance {m : Memory} {len c : Nat} {h : Header} (hlen : c + 4 ≤ len)
    (hd : decodeHeader (memRead4 m c) = some h) : walkStep m len c = .advance h.size := by
  have hwindow : ¬ len < c + windowLen := by
    unfold windowLen
    omega
  rw [walkStep, if_neg hwindow, headerStep_eq_valid hd]

/-- Settles O24: the quotient is the floor by the division algorithm, the second form has the same dividend, and a walk
advances by the decoded header's size. -/
theorem frameSizeIsExactFloorPlusPadding : Obligations.FrameSizeIsExactFloorPlusPadding := by
  refine ⟨fun br sr pad => ⟨fun hzero => ?_, fun hpos => ⟨⟨fsCoeff * br / sr, frameSize_of_pos hpos pad, ?_, ?_⟩, ?_⟩⟩,
    by decide, by decide, fun m len c h => walkStep_eq_advance⟩
  · rw [hzero, frameSize_zero]
  · exact Nat.div_mul_le_self (fsCoeff * br) sr
  · exact (Nat.div_lt_iff_lt_mul hpos).1 (Nat.lt_succ_self (fsCoeff * br / sr))
  · rw [frameSize_of_pos hpos, fsCoeff_mul_eq]

end Sys2Proof.Machine
end

section
/-! SUPPORT. Command words (30_encoding.md section 5): the two fields of a word, the opcode table read both ways, and what
the decoder and acceptance make of every word (R70, R71). -/

namespace Sys2Proof.Machine

/-! ## The fields of a command word -/

theorem rsvField_append_opField (w : Word) : rsvField w ++ opField w = w := by
  rw [rsvField, opField, ← extractLsb'_add_eq_append w 0 28 4, BitVec.extractLsb'_eq_self]

theorem opField_toNat (w : Word) : (opField w).toNat = w.toNat % 16 := by
  simp [opField]

theorem rsvField_eq_zero_iff (w : Word) : rsvField w = 0 ↔ w.toNat < 16 := by
  rw [← BitVec.toNat_inj, rsvField, extractLsb'_toNat_div]
  have := w.isLt
  simp
  omega

/-- A word is a command's exactly when its fields are. -/
theorem eq_encode_iff {w : Word} {i : Instr} : w = encode i ↔ rsvField w = 0 ∧ opField w = encodeOp i := by
  conv_lhs => rw [← rsvField_append_opField w, encode]
  exact append_eq_append_iff

/-! ## The opcode table -/

theorem decodeOp_eq_some {op : BitVec 4} {i : Instr} : decodeOp op = some i ↔ op = encodeOp i := by
  cases i <;> revert op <;> decide

theorem decodeOp_eq_none {op : BitVec 4} : decodeOp op = none ↔ op.toNat = 0 ∨ 7 ≤ op.toNat := by
  revert op
  decide

/-! ## Every word -/

theorem badWord_iff (w : Word) :
    badWord w = true ↔ rsvField w ≠ 0 ∨ (opField w).toNat = 0 ∨ 7 ≤ (opField w).toNat := by
  rw [badWord, Bool.or_assoc, Bool.or_eq_true, Bool.or_eq_true, bne_iff_ne, beq_iff_eq, decide_eq_true_eq]

theorem decodeWord_of_rsvField_ne {w : Word} (h : rsvField w ≠ 0) : decodeWord w = .error .reservedBits := if_pos h

theorem decodeWord_of_rsvField_eq {w : Word} (h : rsvField w = 0) :
    decodeWord w = (decodeOp (opField w)).elim (.error (.illegalOpcode (opField w))) .ok := by
  rw [decodeWord, if_neg (not_not_intro h)]
  cases decodeOp (opField w) <;> rfl

/-- The decoder accepts exactly the words of the commands (30_encoding.md R70). -/
theorem decodeWord_eq_ok {w : Word} {i : Instr} : decodeWord w = .ok i ↔ w = encode i := by
  rw [eq_encode_iff, ← decodeOp_eq_some]
  by_cases hrsv : rsvField w = 0
  · rw [decodeWord_of_rsvField_eq hrsv, and_iff_right hrsv]
    cases decodeOp (opField w) <;> simp
  · rw [decodeWord_of_rsvField_ne hrsv]
    exact ⟨nofun, fun h => absurd h.1 hrsv⟩

/-- The decoder rejects exactly the words acceptance marks BAD (30_encoding.md R71; 20_memory.md R57). -/
theorem decodeWord_eq_error {w : Word} : (∃ e, decodeWord w = .error e) ↔ badWord w = true := by
  rw [badWord_iff, ← decodeOp_eq_none]
  by_cases hrsv : rsvField w = 0
  · rw [decodeWord_of_rsvField_eq hrsv, or_iff_right (not_not_intro hrsv)]
    cases decodeOp (opField w) <;> simp
  · exact iff_of_true ⟨_, decodeWord_of_rsvField_ne hrsv⟩ (.inl hrsv)

/-- As numbers the words marked BAD are 0 and those from 7 up. -/
theorem badWord_iff_toNat (w : Word) : badWord w = true ↔ w.toNat = 0 ∨ 7 ≤ w.toNat := by
  rw [badWord_iff, ne_eq, rsvField_eq_zero_iff, opField_toNat]
  omega

theorem badWord_encode (i : Instr) : badWord (encode i) = false := by cases i <;> rfl

/-! ## The statements -/

/-- Settles O16: the decoder inverts the encoder field by field, and rejection and BAD are the same condition on the
fields. -/
theorem wordDecodesExactlyToItsCommand : Obligations.WordDecodesExactlyToItsCommand := fun w =>
  ⟨fun _ => decodeWord_eq_ok, decodeWord_eq_error, badWord_iff_toNat w⟩

/-- Settles O15: the words are fixed, so the decoder is evaluated on each. -/
theorem tableWordsDecode : Obligations.TableWordsDecode := by
  unfold Obligations.TableWordsDecode
  decide

end Sys2Proof.Machine
end

section
/-! SUPPORT. What is a valid header, and how large its frame and the frame of FS_IN's operands can be (30_encoding.md R61;
40_header_decode.md R96, R99; 41_frame_size.md R111, R112, R114, R115). -/

namespace Sys2Proof.Machine

/-! ## Valid headers -/

/-- The sync and the version and layer check together compare bits 31:17. -/
theorem checks_iff_highBits (w : Word) :
    syncCheck w = true ∧ versionLayerCheck w = true ↔ w.extractLsb' 17 15 = 0x7FFD := by
  have hsplit : w.extractLsb' 17 15 = w.extractLsb' 21 11 ++ w.extractLsb' 17 4 := extractLsb'_add_eq_append w 17 11 4
  have hboth : syncCheck w = true ∧ versionLayerCheck w = true ↔
      w.extractLsb' 21 11 = BitVec.allOnes 11 ∧ w.extractLsb' 17 4 = 0b1101 := by
    rw [← syncCheck_iff_elevenOnes]
    exact and_congr_right fun hsync => versionLayerCheck_iff_of_syncCheck hsync
  rw [hboth, hsplit]
  exact (append_eq_append_iff (a' := BitVec.allOnes 11) (b' := 0b1101)).symm

/-- The same two checks as the mask of 30_encoding.md R61. -/
theorem checks_iff_mask (w : Word) :
    syncCheck w = true ∧ versionLayerCheck w = true ↔ w &&& 0xFFFE0000 = 0xFFFA0000 := by
  have hsplit : w = w.extractLsb' 17 15 ++ w.extractLsb' 0 17 := by
    rw [← extractLsb'_add_eq_append w 0 15 17, BitVec.extractLsb'_eq_self]
  rw [checks_iff_highBits]
  conv_rhs => rw [hsplit]
  exact (append_and_highMask_eq_iff (w.extractLsb' 17 15) 0x7FFD (w.extractLsb' 0 17)).symm

theorem bitRate?_isSome (i : BitVec 4) : (bitRate? i).isSome = true ↔ i ≠ 0 ∧ i ≠ 15 := by
  revert i
  decide

theorem samplingRate?_isSome (i : BitVec 2) : (samplingRate? i).isSome = true ↔ i ≠ 3 := by
  revert i
  decide

/-- A header is decoded exactly when both checks pass and both tables answer. -/
theorem decodeHeader_isSome (w : Word) :
    (decodeHeader w).isSome = true ↔
      (syncCheck w = true ∧ versionLayerCheck w = true) ∧ (bitRate? (brIdx w)).isSome = true ∧
        (samplingRate? (srIdx w)).isSome = true := by
  unfold decodeHeader
  cases syncCheck w with
  | false => simp
  | true =>
    cases versionLayerCheck w with
    | false => simp
    | true => cases bitRate? (brIdx w) <;> cases samplingRate? (srIdx w) <;> simp

/-- Settles O22: the mask is the two checks, and the index conditions say where the tables answer. -/
theorem validHeaderExactly : Obligations.ValidHeaderExactly := fun w => by
  rw [decodeHeader_isSome, checks_iff_mask, bitRate?_isSome, samplingRate?_isSome, brIdx_eq_extractLsb',
    srIdx_eq_extractLsb', and_assoc (a := w.extractLsb' 12 4 ≠ 0)]

/-- A field that a mask covers. -/
theorem extractLsb'_and_of_allOnes {n i l : Nat} {x m : BitVec n} (h : m.extractLsb' i l = BitVec.allOnes l) :
    (x &&& m).extractLsb' i l = x.extractLsb' i l := by
  rw [BitVec.extractLsb'_and, h, BitVec.and_allOnes]

/-- Settles O23: the mask covers all that the decoder reads, bits 31:17, bits 15:10 and the padding bit. -/
theorem decoderIgnoresLowNineBits : Obligations.DecoderIgnoresLowNineBits := fun w =>
  (decodeHeader_eq_of_padBit_eq (extractLsb'_and_of_allOnes (by decide)) (extractLsb'_and_of_allOnes (by decide))
    (by simp [padBit_eq_getLsbD])).symm

/-! ## Frame sizes -/

theorem fsInSize_le (f : FsIn) : fsInSize f ≤ 147312001 := by
  have hbr := f.brKbps.isLt
  rcases Nat.eq_zero_or_pos f.srHz.toNat with hsr | hsr
  · rw [fsInSize, hsr, frameSize_zero]
    exact Nat.zero_le _
  · have hquotient : fsCoeff * f.brKbps.toNat / f.srHz.toNat ≤ fsCoeff * f.brKbps.toNat := Nat.div_le_self ..
    rw [fsInSize, frameSize_of_pos hsr]
    unfold fsCoeff at *
    split <;> omega

/-- One kbps is more than a byte per sample at any sampling rate of 16 bits, so only a zero operand gives no frame. -/
theorem fsInSize_eq_zero (f : FsIn) : fsInSize f = 0 ↔ f.srHz = 0 ∨ f.brKbps = 0 ∧ f.pad = false := by
  have hwidth := f.srHz.isLt
  have hzero {n : Nat} (x : BitVec n) : x = 0 ↔ x.toNat = 0 := by simp [← BitVec.toNat_inj]
  rw [hzero, hzero]
  rcases Nat.eq_zero_or_pos f.srHz.toNat with hsr | hsr
  · simp [fsInSize, hsr]
  · have hquotient : fsCoeff * f.brKbps.toNat / f.srHz.toNat = 0 ↔ f.brKbps.toNat = 0 := by
      rw [Nat.div_eq_zero_iff]
      unfold fsCoeff
      omega
    rw [fsInSize, frameSize_of_pos hsr, Nat.add_eq_zero_iff, hquotient]
    simp [Nat.ne_of_gt hsr]

/-- Settles O25. -/
theorem fsInSizeZeroExactly : Obligations.FsInSizeZeroExactly := fun f => ⟨fsInSize_eq_zero f, fsInSize_le f⟩

/-- Settles O26: the table is finite, so every entry is evaluated. -/
theorem frameSizeTable : Obligations.FrameSizeTable := by
  unfold Obligations.FrameSizeTable
  decide

/-- The smallest frame is that of 32 kbps at 48000 Hz, the largest the padded one of 320 kbps at 32000 Hz
(41_frame_size.md R115). -/
theorem Header.size_bounds {w : Word} {h : Header} (hd : decodeHeader w = some h) : 96 ≤ h.size ∧ h.size ≤ 1441 := by
  obtain ⟨-, hbr, hsr, -⟩ := decodeHeader_eq_some.1 hd
  obtain ⟨hbrLow, hbrHigh⟩ := bitRate?_bounds hbr
  obtain ⟨hsrLow, hsrHigh⟩ := samplingRate?_bounds hsr
  have hlow : 96 ≤ fsCoeff * h.bitRateKbps.toNat / h.samplingRateHz.toNat := by
    rw [Nat.le_div_iff_mul_le (by omega)]
    unfold fsCoeff
    omega
  have hhigh : fsCoeff * h.bitRateKbps.toNat / h.samplingRateHz.toNat ≤ 1440 := by
    rw [← Nat.lt_succ_iff, Nat.div_lt_iff_lt_mul (by omega)]
    unfold fsCoeff
    omega
  rw [Header.size, frameSize_of_pos (by omega)]
  split <;> omega

theorem headerStep_eq_invalid {w : Word} (hd : decodeHeader w = none) : headerStep w = .invalid := by
  rw [headerStep, hd]

/-- Settles O27: a decoded header's size is within the bounds of the tables, so positive. -/
theorem decodedSizeBounds : Obligations.DecodedSizeBounds := fun w => by
  refine ⟨fun h hd => ⟨(Header.size_bounds hd).1, (Header.size_bounds hd).2, headerStep_eq_valid hd⟩, ?_⟩
  cases hd : decodeHeader w with
  | none => rw [headerStep_eq_invalid hd]; nofun
  | some h => rw [headerStep_eq_valid hd]; nofun

end Sys2Proof.Machine
end

section
/-! SUPPORT. The register window (10_state.md sections 1 to 4 and 8; 20_memory.md sections 5 and 7a): where an access goes,
what a read answers, what a write stores, and reset. -/

namespace Sys2Proof.Machine

/-! ## Accesses -/

/-- An access of the window's form reaches the register that stands at its offset (20_memory.md R48). -/
theorem accessReg_of_window {off bits : Nat} (h : bits = 32 ∧ off % 4 = 0 ∧ off < 0x40) :
    ∃ r : Reg, r.offset = off ∧ accessReg off bits = .ok r := by
  obtain ⟨rfl, halign, hlow⟩ := h
  have hform : accessWellFormed off 32 = true := by simp [accessWellFormed, halign, hlow]
  obtain ⟨r, hr⟩ := accessReg_of_wellFormed hform
  rcases accessReg_cases off 32 with ⟨q, -, hq, -⟩ | ⟨e, he⟩
  · exact ⟨q, hq, hq ▸ accessReg_offset q⟩
  · rw [hr] at he
    nomatch he

/-- Any other access is refused. -/
theorem accessReg_of_not_window {off bits : Nat} (h : ¬(bits = 32 ∧ off % 4 = 0 ∧ off < 0x40)) :
    ∃ e, accessReg off bits = .error e := by
  refine (accessReg_cases off bits).resolve_left ?_
  rintro ⟨r, hbits, rfl, -⟩
  exact h ⟨hbits, r.offset_form⟩

theorem hostRead_of_ok {off bits : Nat} {r : Reg} (h : accessReg off bits = .ok r) (s : State) :
    hostRead off bits s = .next (readReg r s) := by
  rw [hostRead, h]

theorem hostRead_of_error {off bits : Nat} {e : Refusal} (h : accessReg off bits = .error e) (s : State) :
    hostRead off bits s = .refused e := by
  rw [hostRead, h]

theorem hostWrite_of_ok {off bits : Nat} {r : Reg} (h : accessReg off bits = .ok r) (v : Word) (s : State) :
    hostWrite off bits v s = .next (writeReg r v s) := by
  rw [hostWrite, h]

theorem hostWrite_of_error {off bits : Nat} {e : Refusal} (h : accessReg off bits = .error e) (v : Word) (s : State) :
    hostWrite off bits v s = .refused e := by
  rw [hostWrite, h]

theorem step_read_offset {s : State} {r : Reg} {rest : List Input} (h : s.inputs = .hostRead r.offset 32 :: rest) :
    step s = .next (readReg r { s with inputs := rest }) := by
  rw [step_of_hostRead h, hostRead_of_ok (accessReg_offset r)]

theorem step_write_offset {s : State} {r : Reg} {v : Word} {rest : List Input}
    (h : s.inputs = .hostWrite r.offset 32 v :: rest) : step s = .next (writeReg r v { s with inputs := rest }) := by
  rw [step_of_hostWrite h, hostWrite_of_ok (accessReg_offset r)]

/-- Settles O3: an access is refused exactly when no register stands at its offset or it is not 32 bits wide. -/
theorem accessReachesWindowOrIsRefused : Obligations.AccessReachesWindowOrIsRefused := by
  intro s off bits v rest
  refine ⟨fun hform => ?_, fun hform => ?_⟩
  · obtain ⟨r, hoff, hr⟩ := accessReg_of_window hform
    exact ⟨r, hoff, fun h => by rw [step_of_hostRead h, hostRead_of_ok hr],
      fun h => by rw [step_of_hostWrite h, hostWrite_of_ok hr]⟩
  · obtain ⟨e, he⟩ := accessReg_of_not_window hform
    exact ⟨fun h => ⟨e, by rw [step_of_hostRead h, hostRead_of_error he]⟩,
      fun h => ⟨e, by rw [step_of_hostWrite h, hostWrite_of_error he]⟩⟩

/-! ## STATUS -/

/-- Settles O53: the codes are the numbers of the tables. -/
theorem statusCodesAreTheirNumbers : Obligations.StatusCodesAreTheirNumbers := by
  unfold Obligations.StatusCodesAreTheirNumbers
  decide

/-- A bit of STATUS is a flag when its digit of the packed sum is. -/
theorem Status.word_getLsbD {t : Status} {i : Nat} {b : Bool} (h : t.word.toNat / 2 ^ i % 2 = b.toNat) :
    t.word.getLsbD i = b :=
  bool_eq_of_toNat ((getLsbD_toNat_div t.word i).trans h)

/-- A field of STATUS is a code when its digits of the packed sum are. -/
theorem Status.word_extractLsb' {t : Status} {i l : Nat} {x : BitVec l} (h : t.word.toNat / 2 ^ i % 2 ^ l = x.toNat) :
    t.word.extractLsb' i l = x :=
  BitVec.eq_of_toNat_eq ((extractLsb'_toNat_div t.word i l).trans h)

theorem Status.word_extractLsb'_zero {t : Status} {i l : Nat} (h : t.word.toNat / 2 ^ i % 2 ^ l = 0) :
    t.word.extractLsb' i l = 0 :=
  Status.word_extractLsb' (h.trans BitVec.toNat_zero.symm)

/-- Settles O4: STATUS is a sum of digits, each below its weight, so each field is a quotient and a remainder of it. -/
theorem statusFieldsAtTheirBits : Obligations.StatusFieldsAtTheirBits := by
  intro t
  have hword := t.word_toNat
  have hbusy := t.busy.toNat_lt
  have hdone := t.done.toNat_lt
  have hresult := t.result.code.isLt
  have hsync := t.syncFound.toNat_lt
  have hmark := t.markFound.toNat_lt
  have hid := t.markId.code.isLt
  have hsrc := t.src.toNat_lt
  have htrunc := t.trunc.toNat_lt
  have hstop := t.stop.code.isLt
  have hhaz := t.haz.toNat_lt
  have hmeta := t.metaOut.code.isLt
  refine ⟨Status.word_getLsbD ?_, Status.word_getLsbD ?_, Status.word_extractLsb'_zero ?_, Status.word_extractLsb' ?_,
    Status.word_getLsbD ?_, Status.word_getLsbD ?_, Status.word_extractLsb' ?_, Status.word_getLsbD ?_,
    Status.word_getLsbD ?_, Status.word_extractLsb' ?_, Status.word_getLsbD ?_, Status.word_extractLsb' ?_,
    Status.word_extractLsb'_zero ?_⟩ <;> (rw [hword]; omega)

/-! ## Reads -/

@[simp] theorem regValue_inputs (s : State) (rest : List Input) (r : Reg) :
    regValue { s with inputs := rest } r = regValue s r := by
  cases r <;> rfl

theorem readReg_of_answered {r : Reg} {s : State} (h : s.status.busy = false ∨ r.isResult = false) :
    readReg r s = recordRead r (regValue s r) s := by
  rw [readReg, if_neg]
  rcases h with h | h <;> simp [h]

theorem readReg_of_drawn {r : Reg} {s : State} (hb : s.status.busy = true) (hr : r.isResult = true) :
    readReg r s = drawRead r s := by
  rw [readReg, if_pos (by simp [hb, hr])]

theorem isResult_eq_false {r : Reg} : r.isResult = false ↔ r ∈ [Reg.status, .cmd, .id, .ctrl, .bufLen, .hdrIn, .fsIn] := by
  cases r <;> decide

theorem isResult_eq_true {r : Reg} :
    r.isResult = true ↔
      r ∈ [Reg.hdrFlags, .bitrate, .srate, .fsize, .cursor, .syncPos, .hdrCount, .count, .markPos] := by
  cases r <;> decide

/-- Settles O5: a read that is answered from the state records the register's value, and no value depends on the inputs. -/
theorem readAnswersRegisterWithoutSideEffect : Obligations.ReadAnswersRegisterWithoutSideEffect := by
  intro s r rest hin hanswered
  have hread := readReg_of_answered (s := { s with inputs := rest }) (hanswered.imp_right isResult_eq_false.2)
  refine ⟨?_, rfl, rfl, rfl, bufLenWord_toNat s.bufLen, rfl, rfl, rfl, rfl, rfl, rfl, rfl, rfl, rfl, rfl, rfl, rfl⟩
  rw [step_read_offset hin, hread, regValue_inputs]
  rfl

/-- Settles O6: the read is a draw. -/
theorem busyReadOfResultIsADraw : Obligations.BusyReadOfResultIsADraw := by
  intro s r rest hin hb hr
  rw [step_read_offset hin, readReg_of_drawn (s := { s with inputs := rest }) hb (isResult_eq_true.2 hr)]
  rfl

/-! ## Writes -/

theorem writeReg_of_busy {s : State} (h : s.status.busy = true) (r : Reg) (v : Word) : writeReg r v s = raiseHaz s :=
  if_pos h

theorem writeReg_of_idle {s : State} (h : s.status.busy = false) (r : Reg) (v : Word) :
    writeReg r v s = writeIdle r v s := by
  rw [writeReg, if_neg (by simp [h])]

theorem step_write_busy {s : State} {r : Reg} {v : Word} {rest : List Input}
    (h : s.inputs = .hostWrite r.offset 32 v :: rest) (hb : s.status.busy = true) :
    step s = .next { s with inputs := rest, status := { s.status with haz := true } } := by
  rw [step_write_offset h, writeReg_of_busy (s := { s with inputs := rest }) hb]
  rfl

theorem step_write_idle {s : State} {r : Reg} {v : Word} {rest : List Input}
    (h : s.inputs = .hostWrite r.offset 32 v :: rest) (hidle : s.status.busy = false) :
    step s = .next (writeIdle r v { s with inputs := rest }) := by
  rw [step_write_offset h, writeReg_of_idle (s := { s with inputs := rest }) hidle]

/-- Settles O7: while busy every write raises HAZ. -/
theorem busyWriteOnlySetsHaz : Obligations.BusyWriteOnlySetsHaz := fun _ _ _ _ hin hb => step_write_busy hin hb

/-- The registers an accepted command finds are all 0 (10_state.md R30). -/
theorem regValue_of_cleared {s : State} (h : s.res = Results.zero) {r : Reg} (hr : r.isResult = true) :
    regValue s r = 0 := by
  cases r with
  | cmd => nomatch hr
  | status => nomatch hr
  | ctrl => nomatch hr
  | bufLen => nomatch hr
  | hdrIn => nomatch hr
  | fsIn => nomatch hr
  | id => nomatch hr
  | _ => rw [regValue, h]; rfl

/-- STATUS right after acceptance: BUSY, and HAZ as it was (20_memory.md R57). -/
theorem accept_status_word (w : Word) (s : State) :
    (accept w s).status.word = if s.status.haz then 0x00010001 else 0x00000001 := by
  rw [accept_status]
  cases hhaz : s.status.haz <;> simp only [Status.cleared, hhaz] <;> rfl

/-- Settles O8: the step is acceptance. -/
theorem cmdWriteAcceptsCommand : Obligations.CmdWriteAcceptsCommand := by
  intro s w rest hin hidle
  have hstep : step s = .next (accept w { s with inputs := rest }) := step_write_idle (r := .cmd) hin hidle
  have hbad : badWord w = true ↔
      w.extractLsb' 4 28 ≠ 0 ∨ w.extractLsb' 0 4 = 0 ∨ 7 ≤ (w.extractLsb' 0 4).toNat := by
    have hop : (opField w).toNat = 0 ↔ w.extractLsb' 0 4 = 0 := by
      rw [← BitVec.toNat_inj]
      rfl
    rw [badWord_iff, hop]
    rfl
  exact ⟨_, hstep, rfl, hbad, fun r => regValue_of_cleared rfl, accept_status_word w { s with inputs := rest }, rfl, rfl,
    rfl, rfl, rfl, rfl, rfl, rfl⟩

/-! ### The bits that exist -/

theorem SyncMode.bit_ite (b : Bool) : (if b then SyncMode.general else SyncMode.strict).bit = BitVec.ofBool b := by
  cases b <;> rfl

theorem ofBool_getLsbD {n : Nat} (x : BitVec n) (i : Nat) : BitVec.ofBool (x.getLsbD i) = x.extractLsb' i 1 := by
  refine BitVec.eq_of_toNat_eq ?_
  rw [BitVec.toNat_ofBool, getLsbD_toNat_div, extractLsb'_toNat_div, pow_one]

theorem Ctrl.word_ofWord (v : Word) : (Ctrl.ofWord v).word = v &&& 0x00000003 := by
  have hsplit : v = v.extractLsb' 2 30 ++ v.extractLsb' 1 1 ++ v.extractLsb' 0 1 := by
    rw [← extractLsb'_add_eq_append v 1 30 1, ← extractLsb'_add_eq_append v 0 31 1, BitVec.extractLsb'_eq_self]
  have hmask : (0x00000003 : Word) = 0#30 ++ BitVec.allOnes 1 ++ BitVec.allOnes 1 := by decide
  conv_rhs => rw [hsplit, hmask, BitVec.and_append, BitVec.and_append, BitVec.and_zero, BitVec.and_allOnes,
    BitVec.and_allOnes, ← ofBool_getLsbD v 1, ← ofBool_getLsbD v 0, ← SyncMode.bit_ite (v.getLsbD 0)]
  rfl

theorem bufLenWord_bufLenOfWord (v : Word) : bufLenWord (bufLenOfWord v) = v &&& 0x7FFFFFFF := by
  have hsplit : v = v.extractLsb' 31 1 ++ v.extractLsb' 0 31 := by
    rw [← extractLsb'_add_eq_append v 0 1 31, BitVec.extractLsb'_eq_self]
  have hmask : (0x7FFFFFFF : Word) = 0#1 ++ BitVec.allOnes 31 := by decide
  conv_rhs => rw [hsplit, hmask, BitVec.and_append, BitVec.and_zero, BitVec.and_allOnes]
  rfl

theorem FsIn.word_ofWord (v : Word) : (FsIn.ofWord v).word = v &&& 0x83FFFFFF := by
  have hsplit : v = v.extractLsb' 31 1 ++ v.extractLsb' 26 5 ++ v.extractLsb' 16 10 ++ v.extractLsb' 0 16 := by
    rw [← extractLsb'_add_eq_append v 26 1 5, ← extractLsb'_add_eq_append v 16 6 10,
      ← extractLsb'_add_eq_append v 0 16 16, BitVec.extractLsb'_eq_self]
  have hmask : (0x83FFFFFF : Word) = BitVec.allOnes 1 ++ 0#5 ++ BitVec.allOnes 10 ++ BitVec.allOnes 16 := by decide
  conv_rhs => rw [hsplit, hmask, BitVec.and_append, BitVec.and_append, BitVec.and_append, BitVec.and_zero,
    BitVec.and_allOnes, BitVec.and_allOnes, BitVec.and_allOnes, ← ofBool_getLsbD]
  rfl

/-- Settles O9: an idle write stores the fields of the word, and packing them again masks it. -/
theorem writableRegistersKeepTheirBits : Obligations.WritableRegistersKeepTheirBits := by
  intro s v hidle
  simp only [writeReg_of_idle hidle]
  refine ⟨Ctrl.word_ofWord v, bufLenWord_bufLenOfWord v, rfl, FsIn.word_ofWord v, ?_, rfl, ?_, rfl, rfl, rfl⟩
  · rw [writeIdle, Ctrl.ofWord]
    cases v.getLsbD 0 <;> simp
  · exact (extractLsb'_toNat_div v 0 31).trans (by rw [pow_zero, Nat.div_one])

/-! ### The frame of an idle write -/

section frame
variable {r : Reg} (v : Word) (s : State)

theorem writeIdle_ctrl (h : r ≠ .ctrl) : (writeIdle r v s).ctrl = s.ctrl := by
  cases r with
  | ctrl => exact absurd rfl h
  | _ => rfl

theorem writeIdle_bufLen (h : r ≠ .bufLen) : (writeIdle r v s).bufLen = s.bufLen := by
  cases r with
  | bufLen => exact absurd rfl h
  | _ => rfl

theorem writeIdle_hdrIn (h : r ≠ .hdrIn) : (writeIdle r v s).hdrIn = s.hdrIn := by
  cases r with
  | hdrIn => exact absurd rfl h
  | _ => rfl

theorem writeIdle_fsIn (h : r ≠ .fsIn) : (writeIdle r v s).fsIn = s.fsIn := by
  cases r with
  | fsIn => exact absurd rfl h
  | _ => rfl

theorem writeIdle_status (hcmd : r ≠ .cmd) (h : r ≠ .status) : (writeIdle r v s).status = s.status := by
  cases r with
  | cmd => exact absurd rfl hcmd
  | status => exact absurd rfl h
  | _ => rfl

/-- No idle write but that of CMD reaches the results, the latches, the buffer or the model's own fields. -/
theorem writeIdle_frame (hcmd : r ≠ .cmd) :
    (writeIdle r v s).res = s.res ∧ (writeIdle r v s).op = s.op ∧ (writeIdle r v s).bad = s.bad ∧
      (writeIdle r v s).buffer = s.buffer ∧ (writeIdle r v s).inputs = s.inputs ∧
      (writeIdle r v s).reads = s.reads ∧ (writeIdle r v s).draws = s.draws := by
  cases r with
  | cmd => exact absurd rfl hcmd
  | _ => exact ⟨rfl, rfl, rfl, rfl, rfl, rfl, rfl⟩

/-- Every other register but STATUS, which reports acceptance, keeps its value. -/
theorem regValue_writeIdle_of_ne {q : Reg} (hcmd : r ≠ .cmd) (hqr : q ≠ r) (hq : q ≠ .status) :
    regValue (writeIdle r v s) q = regValue s q := by
  obtain ⟨hres, -⟩ := writeIdle_frame v s hcmd
  cases q with
  | status => exact absurd rfl hq
  | cmd => rfl
  | id => rfl
  | ctrl => exact congrArg Ctrl.word (writeIdle_ctrl v s hqr.symm)
  | bufLen => exact congrArg bufLenWord (writeIdle_bufLen v s hqr.symm)
  | hdrIn => exact writeIdle_hdrIn v s hqr.symm
  | fsIn => exact congrArg FsIn.word (writeIdle_fsIn v s hqr.symm)
  | _ => simp only [regValue, hres]

/-- A read-only register ignores its write (10_state.md R33). -/
theorem writeIdle_of_readOnly (h : r.isResult = true ∨ r = .id) : writeIdle r v s = s := by
  cases r with
  | cmd => simp [Reg.isResult] at h
  | status => simp [Reg.isResult] at h
  | ctrl => simp [Reg.isResult] at h
  | bufLen => simp [Reg.isResult] at h
  | hdrIn => simp [Reg.isResult] at h
  | fsIn => simp [Reg.isResult] at h
  | _ => rfl

end frame

/-- Settles O10: the frame of the idle write, register by register. -/
theorem idleWriteChangesItsRegisterAlone : Obligations.IdleWriteChangesItsRegisterAlone := by
  intro s r v rest hin hidle hcmd
  refine ⟨_, step_write_idle hin hidle, fun q hqr hq => ?_, ?_, fun hr => writeIdle_status v _ hcmd hr, fun hr => ?_,
    writeIdle_frame v _ hcmd⟩
  · rw [regValue_writeIdle_of_ne v _ hcmd hqr hq, regValue_inputs]
  · rintro rfl
    rw [writeIdle, writeStatus_status]
    cases v.getLsbD 16 <;> simp
  · rw [writeIdle_of_readOnly v _ hr, regValue_inputs]

/-! ## Reset -/

theorem regValue_of_reset {s : State} (hst : s.status = Status.zero) (hctrl : s.ctrl = ⟨.strict, false⟩)
    (hlen : s.bufLen = 0) (hhdr : s.hdrIn = 0) (hfs : s.fsIn = ⟨0, 0, false⟩) (hres : s.res = Results.zero) (r : Reg) :
    regValue s r = if r = .id then 0x46485441 else 0 := by
  cases r <;> simp only [regValue, hst, hctrl, hlen, hhdr, hfs, hres] <;> rfl

/-- Settles O1: the reset state holds the value of the table in every field. -/
theorem resetRegistersReadZero : Obligations.ResetRegistersReadZero :=
  ⟨regValue_of_reset rfl rfl rfl rfl rfl rfl, rfl, rfl, rfl⟩

/-- Settles O2: the reset event replaces every register and latch by the reset state's. -/
theorem resetAbandonsCommandKeepsBuffer : Obligations.ResetAbandonsCommandKeepsBuffer := by
  intro s rest hin
  exact ⟨_, step_of_reset hin, regValue_of_reset rfl rfl rfl rfl rfl rfl, rfl, rfl, rfl, rfl, rfl, rfl⟩

end Sys2Proof.Machine
end

section
/-! SUPPORT. The buffer's data (20_memory.md section 2): a write from outside stores one byte, and the canonical form is
determined by what reads answer. -/

namespace Sys2Proof.Machine

/-- A buffer write inside the space, and at or above BUF_LEN while busy, is performed (20_memory.md R56). -/
theorem bufWrite_of_allowed {a : Nat} {s : State} (ha : a < bufSpace) (h : s.status.busy = false ∨ s.len ≤ a)
    (b : Byte) : bufWrite a b s = .next { s with buffer := s.buffer.write a b } := by
  rw [bufWrite, if_pos ha, if_neg]
  rcases h with h | h
  · simp [h]
  · simp [Nat.not_lt.2 h]

/-- Settles O11: the write is performed, and a read after it answers the byte at its offset alone. -/
theorem bufferWriteStoresOneByte : Obligations.BufferWriteStoresOneByte := by
  intro s a b rest hwf hin ha hallowed
  refine ⟨{ s with inputs := rest, buffer := s.buffer.write a b }, ?_, ?_, fun c hc => ?_, Memory.write_wf hwf ha, rfl⟩
  · rw [step_of_bufWrite hin]
    exact bufWrite_of_allowed (s := { s with inputs := rest }) ha hallowed b
  · rw [Memory.read_write hwf, if_pos rfl]
  · rw [Memory.read_write hwf, if_neg hc]

theorem Memory.read_cons_self (k : Nat) (v : Byte) (rest : Memory) : Memory.read ((k, v) :: rest) k = v := by
  rw [Memory.read_cons, if_neg (Nat.lt_irrefl k), if_pos rfl]

/-- Above its first entry a buffer reads as its rest does. -/
theorem Memory.read_cons_of_gt {k a : Nat} (v : Byte) (rest : Memory) (h : k < a) :
    Memory.read ((k, v) :: rest) a = rest.read a := by
  rw [Memory.read_cons, if_neg (by omega), if_neg (by omega)]

/-- No buffer that starts with an entry reads as one that lists nothing up to that entry. -/
theorem Memory.not_read_eq_of_lt {lo k : Nat} {v : Byte} {rest m : Memory} (hm : Memory.wfFrom lo ((k, v) :: rest) = true)
    (hn : Memory.wfFrom (k + 1) m = true) (h : ∀ a, Memory.read ((k, v) :: rest) a = m.read a) : False := by
  obtain ⟨-, -, hv, -⟩ := (Memory.wfFrom_cons ..).1 hm
  have hk := h k
  rw [Memory.read_cons_self, Memory.read_of_lt hn (Nat.lt_succ_self k)] at hk
  exact hv hk

/-- Entry by entry: the first entries of two buffers that read alike are equal, and then so are the rests. -/
theorem Memory.eq_of_read_eq {m n : Memory} {lo : Nat} (hm : Memory.wfFrom lo m = true) (hn : Memory.wfFrom lo n = true)
    (h : ∀ a, m.read a = n.read a) : m = n := by
  induction m generalizing n lo with
  | nil =>
    cases n with
    | nil => rfl
    | cons c rest => exact (Memory.not_read_eq_of_lt hn rfl fun a => (h a).symm).elim
  | cons c rest ih =>
    obtain ⟨k, v⟩ := c
    cases n with
    | nil => exact (Memory.not_read_eq_of_lt hm rfl h).elim
    | cons d rest' =>
      obtain ⟨k', v'⟩ := d
      obtain ⟨-, hspace, hne, hrest⟩ := (Memory.wfFrom_cons ..).1 hm
      obtain ⟨-, hspace', hne', hrest'⟩ := (Memory.wfFrom_cons ..).1 hn
      rcases Nat.lt_trichotomy k k' with hk | rfl | hk
      · exact (Memory.not_read_eq_of_lt hm ((Memory.wfFrom_cons ..).2 ⟨hk, hspace', hne', hrest'⟩) h).elim
      · have hv : v = v' := by simpa only [Memory.read_cons_self] using h k
        have htail : rest = rest' := by
          refine ih hrest hrest' fun a => ?_
          by_cases ha : k < a
          · simpa only [Memory.read_cons_of_gt _ _ ha] using h a
          · rw [Memory.read_of_lt hrest (by omega), Memory.read_of_lt hrest' (by omega)]
        rw [hv, htail]
      · exact (Memory.not_read_eq_of_lt hn ((Memory.wfFrom_cons ..).2 ⟨hk, hspace, hne, hrest⟩) fun a => (h a).symm).elim

/-- Settles O12. -/
theorem equalReadsGiveEqualBuffers : Obligations.EqualReadsGiveEqualBuffers := fun _ _ hm hn h =>
  Memory.eq_of_read_eq hm hn h

end Sys2Proof.Machine
end

section
/-! SUPPORT. The header-to-header walk (43_scan_walk.md sections 2 and 3): one walk_step, the bounded walk as the unbounded
one (R144, log 18), and the bounds of R152 and R153. -/

namespace Sys2Proof.Machine

/-! ## One walk_step -/

theorem walkStep_of_incomplete {m : Memory} {len c : Nat} (h : len < c + 4) :
    walkStep m len c = .stop .incompleteWindow := if_pos h

theorem walkStep_of_invalid {m : Memory} {len c : Nat} (h : c + 4 ≤ len) (hd : decodeHeader (memRead4 m c) = none) :
    walkStep m len c = .stop .invalidHeader := by
  have hwindow : ¬ len < c + windowLen := Nat.not_lt.2 h
  rw [walkStep, if_neg hwindow, headerStep_eq_invalid hd]

/-- Everything a walk_step can do (43_scan_walk.md R143): a decoded header has a size, so it is never degenerate. -/
theorem walkStep_cases (m : Memory) (len c : Nat) :
    (len < c + 4 ∧ walkStep m len c = .stop .incompleteWindow) ∨
      (c + 4 ≤ len ∧ decodeHeader (memRead4 m c) = none ∧ walkStep m len c = .stop .invalidHeader) ∨
      ∃ h, c + 4 ≤ len ∧ decodeHeader (memRead4 m c) = some h ∧ walkStep m len c = .advance h.size := by
  rcases Nat.lt_or_ge len (c + 4) with hlen | hlen
  · exact .inl ⟨hlen, walkStep_of_incomplete hlen⟩
  · cases hd : decodeHeader (memRead4 m c) with
    | none => exact .inr (.inl ⟨hlen, rfl, walkStep_of_invalid hlen hd⟩)
    | some h => exact .inr (.inr ⟨h, hlen, rfl, walkStep_eq_advance hlen hd⟩)

theorem walk_of_stop {m : Memory} {len c : Nat} {cause : StopCause} (h : walkStep m len c = .stop cause)
    (fuel n : Nat) : walk m len (fuel + 1) c n = ⟨c, n, cause⟩ := by
  rw [walk, h]

theorem walk_of_advance {m : Memory} {len c size : Nat} (h : walkStep m len c = .advance size) (fuel n : Nat) :
    walk m len (fuel + 1) c n = walk m len fuel (c + size) (n + 1) := by
  rw [walk, h]

/-! ## The walk with a bound and the walk without -/

/-- With more iterations than offsets from the cursor to BUF_LEN the bounded walk ends like the unbounded one. -/
theorem walkRun_walk (m : Memory) (len : Nat) {fuel c : Nat} (hfuel : len < c + fuel) (n : Nat) :
    WalkRun m len c n (walk m len fuel c n) := by
  induction fuel generalizing c n with
  | zero => exact .incomplete c n (by omega)
  | succ fuel ih =>
    rcases walkStep_cases m len c with ⟨hlen, hstep⟩ | ⟨hlen, hd, hstep⟩ | ⟨h, hlen, hd, hstep⟩
    · rw [walk_of_stop hstep]
      exact .incomplete c n hlen
    · rw [walk_of_stop hstep]
      exact .invalid c n hlen hd
    · have hpos := Header.size_pos hd
      rw [walk_of_advance hstep]
      exact .advance c n h _ hlen hd hpos (ih (by omega) (n + 1))

/-- And the unbounded walk has no other end. -/
theorem WalkRun.eq_walk {m : Memory} {len c n : Nat} {e : WalkEnd} (h : WalkRun m len c n e) {fuel : Nat}
    (hfuel : len < c + fuel) : e = walk m len fuel c n := by
  induction h generalizing fuel with
  | incomplete c n hlen =>
    cases fuel with
    | zero => rfl
    | succ fuel => rw [walk_of_stop (walkStep_of_incomplete hlen)]
  | invalid c n hlen hd =>
    obtain ⟨fuel, rfl⟩ : ∃ k, fuel = k + 1 := Nat.exists_eq_succ_of_ne_zero (by omega)
    rw [walk_of_stop (walkStep_of_invalid hlen hd)]
  | degenerate c n hdr hlen hd hsize =>
    have hpos := Header.size_pos hd
    omega
  | advance c n hdr e hlen hd hpos hrest ih =>
    obtain ⟨fuel, rfl⟩ : ∃ k, fuel = k + 1 := Nat.exists_eq_succ_of_ne_zero (by omega)
    rw [walk_of_advance (walkStep_eq_advance hlen hd)]
    exact ih (by omega)

/-- Settles O32: every end is that of the walk with BUF_LEN + 1 iterations. -/
theorem walkEndsInOneWay : Obligations.WalkEndsInOneWay := fun m len c n => by
  have hfuel : len < c + (len + 1) := by omega
  exact ⟨⟨_, walkRun_walk m len hfuel n⟩, fun e f he hf => (he.eq_walk hfuel).trans (hf.eq_walk hfuel).symm⟩

/-! ## Bounds -/

/-- No header is taken at the cursor, or a last one is, whose window is complete: between it and the cursor stand all the
headers before it, of at least 96 bytes each. -/
theorem WalkRun.last_header {m : Memory} {len c n : Nat} {e : WalkEnd} (h : WalkRun m len c n e) :
    (e.headers = n ∧ e.cursor = c) ∨
      ∃ last, last + 4 ≤ len ∧ c + 96 * (e.headers - n - 1) ≤ last ∧ n < e.headers ∧
        last + 96 ≤ e.cursor ∧ e.cursor ≤ last + 1441 := by
  induction h with
  | incomplete c n hlen => exact .inl ⟨rfl, rfl⟩
  | invalid c n hlen hd => exact .inl ⟨rfl, rfl⟩
  | degenerate c n hdr hlen hd hsize => exact .inl ⟨rfl, rfl⟩
  | advance c n hdr e hlen hd hpos hrest ih =>
    obtain ⟨hlow, hhigh⟩ := Header.size_bounds hd
    rcases ih with ⟨hheaders, hcursor⟩ | ⟨last, hlast, hgap, hheaders, hcursorLow, hcursorHigh⟩
    · exact .inr ⟨c, by omega⟩
    · exact .inr ⟨last, by omega⟩

/-- Each header moves the cursor on by 96 to 1441 bytes (43_scan_walk.md R152). -/
theorem WalkRun.cursor_bounds {m : Memory} {len c n : Nat} {e : WalkEnd} (h : WalkRun m len c n e) :
    n ≤ e.headers ∧ c + 96 * (e.headers - n) ≤ e.cursor ∧ e.cursor ≤ c + 1441 * (e.headers - n) := by
  induction h with
  | incomplete c n hlen => simp
  | invalid c n hlen hd => simp
  | degenerate c n hdr hlen hd hsize => simp
  | advance c n hdr e hlen hd hpos hrest ih =>
    obtain ⟨hlow, hhigh⟩ := Header.size_bounds hd
    omega

theorem WalkRun.stop_ne {m : Memory} {len c n : Nat} {e : WalkEnd} (h : WalkRun m len c n e) :
    e.stop = .invalidHeader ∨ e.stop = .incompleteWindow := by
  induction h with
  | incomplete c n hlen => exact .inr rfl
  | invalid c n hlen hd => exact .inl rfl
  | degenerate c n hdr hlen hd hsize =>
    have hpos := Header.size_pos hd
    omega
  | advance c n hdr e hlen hd hpos hrest ih => exact ih

theorem WalkRun.of_short {m : Memory} {len c n : Nat} {e : WalkEnd} (h : WalkRun m len c n e) (hlen : len < c + 4) :
    e = ⟨c, n, .incompleteWindow⟩ := by
  rw [h.eq_walk (fuel := len + 1) (by omega), walk_of_stop (walkStep_of_incomplete hlen)]

/-- Settles O33: the bounds of the last header taken, and of each header's size. -/
theorem walkIsBounded : Obligations.WalkIsBounded := by
  intro m len start e hrun
  obtain ⟨-, hcursorLow, hcursorHigh⟩ := hrun.cursor_bounds
  rw [Nat.sub_zero] at hcursorLow hcursorHigh
  have hstop : e.stop ≠ .degenerateSize := by rcases hrun.stop_ne with h | h <;> rw [h] <;> nofun
  refine ⟨fun hlen => ?_, fun hlen => ?_, hcursorLow, hcursorHigh, fun hlen => ?_, hstop⟩
  · rw [← Nat.sub_le_iff_le_add, Nat.le_div_iff_mul_le (by decide)]
    rcases hrun.last_header with ⟨hheaders, -⟩ | ⟨last, hlast, hgap, hheaders, -, -⟩ <;> omega
  · rw [hrun.of_short hlen]
    exact ⟨rfl, rfl, rfl⟩
  · rcases hrun.last_header with ⟨hheaders, hcursor⟩ | ⟨last, hlast, -, -, -, hcursor⟩ <;> omega

end Sys2Proof.Machine
end

section
/-! SUPPORT. The two searches as the rules state them: the first candidate (43_scan_walk.md R141) and the winning marker
(42_metadata_shortcut.md R120 to R122), with what its record says (R123 to R126). -/

namespace Sys2Proof.Machine

/-! ## The first candidate -/

/-- seek() answers the first candidate. -/
theorem seek_eq_some {s : State} {i : Nat} : seek s.ctrl.syncMode s.buffer s.len = some i ↔ FirstSync s i := by
  rw [seek, firstOffset_eq_some, FirstSync, ← isSync_iff]
  constructor
  · rintro ⟨-, hi, hsync, hbefore⟩
    refine ⟨⟨by omega, hsync⟩, fun j hj hs => ?_⟩
    have hnot := hbefore j (Nat.zero_le j) hj
    rw [((isSync_iff s j).2 hs).2] at hnot
    nomatch hnot
  · rintro ⟨⟨hi, hsync⟩, hbefore⟩
    refine ⟨Nat.zero_le i, by omega, hsync, fun j _ hj => Bool.eq_false_iff.2 fun hs => ?_⟩
    exact hbefore j hj ((isSync_iff s j).1 ⟨by omega, hs⟩)

theorem seek_eq_none {s : State} : seek s.ctrl.syncMode s.buffer s.len = none ↔ ∀ i, ¬SyncAt s i := by
  rw [seek, firstOffset_eq_none]
  constructor
  · intro h i hs
    obtain ⟨hi, hsync⟩ := (isSync_iff s i).2 hs
    rw [h i (Nat.zero_le i) (by omega)] at hsync
    nomatch hsync
  · intro h i _ hi
    exact Bool.eq_false_iff.2 fun hsync => h i ((isSync_iff s i).1 ⟨by omega, hsync⟩)

theorem FirstSync.lt_len {s : State} {i : Nat} (h : FirstSync s i) : i + 1 < s.len := h.1.1

/-! ## The winning marker -/

theorem Marker.bytes_length_pos (k : Marker) : 0 < k.bytes.length := by cases k <;> decide

theorem occurs_bound {m : Memory} {len : Nat} {k : Marker} {p : Nat} (h : occurs m len k p = true) :
    p + k.bytes.length ≤ len := by
  rw [occurs, Bool.and_eq_true, decide_eq_true_eq] at h
  exact h.1

/-- first(m): the lowest offset at which the marker occurs (42_metadata_shortcut.md R120). -/
theorem firstMarker_eq_some {m : Memory} {len : Nat} {k : Marker} {p : Nat} :
    firstMarker m len k = some p ↔ occurs m len k p = true ∧ ∀ q, q < p → occurs m len k q = false := by
  rw [firstMarker, firstOffset_eq_some]
  constructor
  · rintro ⟨-, -, hoccurs, hbefore⟩
    exact ⟨hoccurs, fun q hq => hbefore q (Nat.zero_le q) hq⟩
  · rintro ⟨hoccurs, hbefore⟩
    have hbound := occurs_bound hoccurs
    exact ⟨Nat.zero_le p, by omega, hoccurs, fun q _ hq => hbefore q hq⟩

theorem firstMarker_eq_none {m : Memory} {len : Nat} {k : Marker} :
    firstMarker m len k = none ↔ ∀ p, occurs m len k p = false := by
  rw [firstMarker, firstOffset_eq_none]
  refine ⟨fun h p => Bool.eq_false_iff.2 fun hoccurs => ?_, fun h p _ _ => h p⟩
  have hbound := occurs_bound hoccurs
  rw [h p (Nat.zero_le p) (by omega)] at hoccurs
  nomatch hoccurs

theorem findMarkerIn_eq_none {m : Memory} {len : Nat} {ks : List Marker} :
    findMarkerIn m len ks = none ↔ ∀ k ∈ ks, firstMarker m len k = none := by
  induction ks with
  | nil => simp [findMarkerIn]
  | cons k rest ih =>
    rw [findMarkerIn, List.forall_mem_cons, ← ih]
    cases firstMarker m len k <;> simp

/-- A search through two lists goes on to the second when the first gives nothing. -/
theorem findMarkerIn_append (m : Memory) (len : Nat) (before after : List Marker) :
    findMarkerIn m len (before ++ after) = (findMarkerIn m len before).or (findMarkerIn m len after) := by
  induction before with
  | nil => rfl
  | cons k rest ih =>
    rw [List.cons_append, findMarkerIn, findMarkerIn, ih]
    cases firstMarker m len k <;> rfl

theorem findMarkerIn_cons_of_some {m : Memory} {len : Nat} {k : Marker} {p : Nat} (h : firstMarker m len k = some p)
    (rest : List Marker) : findMarkerIn m len (k :: rest) = some (k, p) := by
  rw [findMarkerIn, h]

/-- The marker a search answers is of the list, and occurs there first. -/
theorem findMarkerIn_eq_some {m : Memory} {len : Nat} {ks : List Marker} {k : Marker} {p : Nat}
    (h : findMarkerIn m len ks = some (k, p)) : k ∈ ks ∧ firstMarker m len k = some p := by
  induction ks with
  | nil => nomatch h
  | cons l rest ih =>
    cases hl : firstMarker m len l with
    | some q =>
      rw [findMarkerIn_cons_of_some hl] at h
      cases h
      exact ⟨List.mem_cons_self, hl⟩
    | none =>
      rw [findMarkerIn, hl] at h
      obtain ⟨hmem, hfirst⟩ := ih h
      exact ⟨List.mem_cons_of_mem l hmem, hfirst⟩

/-- In the table stand before a marker exactly those of a lower code (10_state.md R28). -/
theorem markers_eq_append (k : Marker) : ∃ before after, markers = before ++ k :: after ∧ ∀ l ∈ before, l.code < k.code := by
  cases k with
  | xing => exact ⟨[], _, rfl, by decide⟩
  | info => exact ⟨[.xing], _, rfl, by decide⟩
  | vbri => exact ⟨[.xing, .info], _, rfl, by decide⟩
  | vbrii => exact ⟨[.xing, .info, .vbri], _, rfl, by decide⟩

theorem occurs_eq_false_iff {s : State} {k : Marker} {p : Nat} :
    occurs s.buffer s.len k p = false ↔ ¬OccursAt s k p := by
  rw [← occurs_iff, Bool.not_eq_true]

/-- find_marker() answers the winning marker (42_metadata_shortcut.md R121). -/
theorem findMarker_of_winning {s : State} {k : Marker} {p : Nat} (h : WinningMarker s k p) :
    findMarker s.buffer s.len = some (k, p) := by
  obtain ⟨hoccurs, hfirst, hhigher⟩ := h
  obtain ⟨before, after, hsplit, hcode⟩ := markers_eq_append k
  have hnone : findMarkerIn s.buffer s.len before = none := findMarkerIn_eq_none.2 fun l hl =>
    firstMarker_eq_none.2 fun q => occurs_eq_false_iff.2 (hhigher l q (hcode l hl))
  have hsome : firstMarker s.buffer s.len k = some p :=
    firstMarker_eq_some.2 ⟨(occurs_iff s k p).2 hoccurs, fun q hq => occurs_eq_false_iff.2 (hfirst q hq)⟩
  rw [findMarker, hsplit, findMarkerIn_append, hnone, findMarkerIn_cons_of_some hsome, Option.none_or]

theorem findMarker_of_noMarker {s : State} (h : ∀ k p, ¬OccursAt s k p) : findMarker s.buffer s.len = none :=
  findMarkerIn_eq_none.2 fun k _ => firstMarker_eq_none.2 fun p => occurs_eq_false_iff.2 (h k p)

theorem findMarker_lt_len {m : Memory} {len : Nat} {k : Marker} {p : Nat} (h : findMarker m len = some (k, p)) :
    p < len := by
  obtain ⟨-, hfirst⟩ := findMarkerIn_eq_some h
  have hbound := occurs_bound (firstMarker_eq_some.1 hfirst).1
  have hlength := k.bytes_length_pos
  omega

/-! ### "VBRII" -/

/-- "VBRI" is the start of "VBRII". -/
theorem occurs_vbri_of_vbrii {m : Memory} {len p : Nat} (h : occurs m len .vbrii p = true) :
    occurs m len .vbri p = true := by
  have hbound := occurs_bound h
  rw [occurs, Bool.and_eq_true, bytesAt_iff] at h
  rw [occurs, Bool.and_eq_true, bytesAt_iff, decide_eq_true_eq]
  refine ⟨Nat.le_trans (Nat.add_le_add_left (by decide) p) hbound, fun j hj => ?_⟩
  have hj4 : j < 4 := hj
  have hbytes : Marker.vbri.bytes[j]? = Marker.vbrii.bytes[j]? := by
    rw [show Marker.vbrii.bytes = Marker.vbri.bytes ++ [0x49] from rfl, List.getElem?_append_left hj]
  rw [hbytes]
  exact h.2 j (Nat.lt_trans hj (by decide))

/-- Settles O36: where "VBRII" occurs "VBRI" does, so the search stops before it. -/
theorem vbriiNeverWins : Obligations.VbriiNeverWins := by
  intro m len
  have hdrop : findMarkerIn m len [.xing, .info, .vbri] = findMarker m len := by
    rw [findMarker, show markers = [.xing, .info, .vbri] ++ [.vbrii] from rfl, findMarkerIn_append]
    cases hfound : findMarkerIn m len [.xing, .info, .vbri] with
    | some found => rfl
    | none =>
      have hvbri := firstMarker_eq_none.1 (findMarkerIn_eq_none.1 hfound .vbri (by decide))
      have hvbrii : firstMarker m len .vbrii = none := firstMarker_eq_none.2 fun p =>
        Bool.eq_false_iff.2 fun h => Bool.eq_false_iff.1 (hvbri p) (occurs_vbri_of_vbrii h)
      rw [Option.none_or, findMarkerIn_eq_none.2 (List.forall_mem_singleton.2 hvbrii)]
  refine ⟨fun p hp => ?_, hdrop⟩
  obtain ⟨hmem, -⟩ := findMarkerIn_eq_some (hdrop.trans hp)
  exact absurd hmem (by decide)

/-! ## The record of the winning marker -/

theorem readRecord_of_noFlags {m : Memory} {len p : Nat} (h : len ≤ p + 7) (k : Marker) :
    readRecord m len k p = .noCountStored k p true := if_pos h

theorem readRecord_of_flagClear {m : Memory} {len p : Nat} (h : p + 7 < len) (hflag : (m.read (p + 7)).getLsbD 0 = false)
    (k : Marker) : readRecord m len k p = .noCountStored k p false := by
  have hbound : ¬ len ≤ p + flagsOff := Nat.not_le.2 h
  rw [readRecord, if_neg hbound, if_pos (by simpa [flagsOff] using hflag)]

theorem readRecord_of_flagSet {m : Memory} {len p : Nat} (h : p + 7 < len) (hflag : (m.read (p + 7)).getLsbD 0 = true)
    (k : Marker) :
    readRecord m len k p = if len < p + 12 then .noCountStored k p true else .ok k p (memRead4 m (p + 8)) := by
  have hbound : ¬ len ≤ p + flagsOff := Nat.not_le.2 h
  rw [readRecord, if_neg hbound, if_neg (by simpa [flagsOff] using hflag)]
  rfl

/-- Everything a record can say is about its marker. -/
theorem readRecord_cases (m : Memory) (len : Nat) (k : Marker) (p : Nat) :
    (∃ trunc, readRecord m len k p = .noCountStored k p trunc) ∨
      readRecord m len k p = .ok k p (memRead4 m (p + 8)) := by
  rcases Nat.lt_or_ge (p + 7) len with hlen | hlen
  · cases hflag : (m.read (p + 7)).getLsbD 0 with
    | false => exact .inl ⟨_, readRecord_of_flagClear hlen hflag k⟩
    | true =>
      rw [readRecord_of_flagSet hlen hflag]
      split
      · exact .inl ⟨_, rfl⟩
      · exact .inr rfl
  · exact .inl ⟨_, readRecord_of_noFlags hlen k⟩

theorem storedFrameCount_of_some {m : Memory} {len : Nat} {k : Marker} {p : Nat} (h : findMarker m len = some (k, p)) :
    storedFrameCount m len = readRecord m len k p := by
  rw [storedFrameCount, h]

theorem storedFrameCount_of_none {m : Memory} {len : Nat} (h : findMarker m len = none) :
    storedFrameCount m len = .notFound := by
  rw [storedFrameCount, h]

theorem storedFrameCount_of_winning {s : State} {k : Marker} {p : Nat} (h : WinningMarker s k p) :
    storedFrameCount s.buffer s.len = readRecord s.buffer s.len k p :=
  storedFrameCount_of_some (findMarker_of_winning h)

theorem storedFrameCount_of_noMarker {s : State} (h : ∀ k p, ¬OccursAt s k p) :
    storedFrameCount s.buffer s.len = .notFound :=
  storedFrameCount_of_none (findMarker_of_noMarker h)

/-- Everything the shortcut can answer: nothing, or what the record of a marker below BUF_LEN says, which is not "VBRII". -/
theorem storedFrameCount_cases (m : Memory) (len : Nat) :
    storedFrameCount m len = .notFound ∨
      ∃ k p, k ≠ .vbrii ∧ p < len ∧
        ((∃ trunc, storedFrameCount m len = .noCountStored k p trunc) ∨
          storedFrameCount m len = .ok k p (memRead4 m (p + 8))) := by
  cases hfound : findMarker m len with
  | none => exact .inl (storedFrameCount_of_none hfound)
  | some found =>
    obtain ⟨k, p⟩ := found
    rw [storedFrameCount_of_some hfound]
    have hk : k ≠ .vbrii := by
      rintro rfl
      exact (vbriiNeverWins m len).1 p hfound
    exact .inr ⟨k, p, hk, findMarker_lt_len hfound, readRecord_cases m len k p⟩

end Sys2Proof.Machine
end

section
/-! SUPPORT. What each command ends in (20_memory.md R58), one equation for each of its outcomes, and the statements about
the commands that follow from them. -/

namespace Sys2Proof.Machine

/-! ## The end of a command -/

section ended
variable (s : State) (t : Status) (r : Results)

@[simp] theorem ended_status : (s.ended t r).status = { t with busy := false, done := true } := rfl
@[simp] theorem ended_res : (s.ended t r).res = r := rfl
@[simp] theorem ended_ctrl : (s.ended t r).ctrl = s.ctrl := rfl
@[simp] theorem ended_bufLen : (s.ended t r).bufLen = s.bufLen := rfl
@[simp] theorem ended_hdrIn : (s.ended t r).hdrIn = s.hdrIn := rfl
@[simp] theorem ended_fsIn : (s.ended t r).fsIn = s.fsIn := rfl
@[simp] theorem ended_op : (s.ended t r).op = s.op := rfl
@[simp] theorem ended_bad : (s.ended t r).bad = s.bad := rfl
@[simp] theorem ended_buffer : (s.ended t r).buffer = s.buffer := rfl
@[simp] theorem ended_inputs : (s.ended t r).inputs = s.inputs := rfl
@[simp] theorem ended_reads : (s.ended t r).reads = s.reads := rfl
@[simp] theorem ended_draws : (s.ended t r).draws = s.draws := rfl

end ended

/-! ## DECODE and FSIZE -/

section outcomes
variable {s : State}

theorem execDecode_of_valid {h : Header} (hd : decodeHeader s.hdrIn = some h) :
    exec .decode s = .next (s.ended { s.status with result := .ok }
      { s.res with
        hdrFlags := headerFlags s.hdrIn
        bitrate := h.bitRateKbps.setWidth 32
        srate := h.samplingRateHz.setWidth 32
        fsize := BitVec.ofNat 32 h.size }) := execDecode_of_decodeHeader hd

theorem execDecode_of_invalid (hd : decodeHeader s.hdrIn = none) :
    exec .decode s = .next (s.ended { s.status with result := .invalidHeader } s.res) := by
  rw [exec, execDecode, headerStep_eq_invalid hd]
  rfl

theorem execFsize_eq (s : State) :
    exec .fsize s = .next (s.ended { s.status with result := if fsInSize s.fsIn < 1 then .degenerateSize else .ok }
      { s.res with fsize := BitVec.ofNat 32 (fsInSize s.fsIn) }) := rfl

/-! ## SEEK and WALK -/

theorem execSeek_of_some {i : Nat} (h : seek s.ctrl.syncMode s.buffer s.len = some i) :
    exec .seek s = .next (s.ended { s.status with result := .ok, syncFound := true }
      { s.res with syncPos := BitVec.ofNat 32 i, cursor := BitVec.ofNat 32 i }) := by
  rw [exec, execSeek, h]
  rfl

theorem execSeek_of_none (h : seek s.ctrl.syncMode s.buffer s.len = none) :
    exec .seek s = .next (s.ended { s.status with result := .noSync } s.res) := by
  rw [exec, execSeek, h]
  rfl

theorem execWalk_of_some {i : Nat} (h : seek s.ctrl.syncMode s.buffer s.len = some i) {e : WalkEnd}
    (hrun : WalkRun s.buffer s.len i 0 e) :
    exec .walk s = .next (s.ended { s.status with result := .ok, syncFound := true, stop := e.stop }
      { s.res with
        syncPos := BitVec.ofNat 32 i
        cursor := BitVec.ofNat 32 e.cursor
        hdrCount := BitVec.ofNat 32 e.headers
        count := BitVec.ofNat 32 (e.headers - 1) }) := by
  rw [hrun.eq_walk (fuel := s.len + 1) (by omega), exec, execWalk, countFrames, h]
  rfl

theorem execWalk_of_none (h : seek s.ctrl.syncMode s.buffer s.len = none) :
    exec .walk s = .next (s.ended { s.status with result := .ok } { s.res with count := 0 }) := by
  rw [exec, execWalk, countFrames, h]
  rfl

/-- Everything WALK can do, the end of the walk with its registers' bounds (43_scan_walk.md R151, R152). -/
theorem execWalk_cases (s : State) :
    (seek s.ctrl.syncMode s.buffer s.len = none ∧
        exec .walk s = .next (s.ended { s.status with result := .ok } { s.res with count := 0 })) ∨
      ∃ i e, seek s.ctrl.syncMode s.buffer s.len = some i ∧ WalkRun s.buffer s.len i 0 e ∧
        exec .walk s = .next (s.ended { s.status with result := .ok, syncFound := true, stop := e.stop }
          { s.res with
            syncPos := BitVec.ofNat 32 i
            cursor := BitVec.ofNat 32 e.cursor
            hdrCount := BitVec.ofNat 32 e.headers
            count := BitVec.ofNat 32 (e.headers - 1) }) := by
  cases h : seek s.ctrl.syncMode s.buffer s.len with
  | none => exact .inl ⟨rfl, execWalk_of_none h⟩
  | some i =>
    have hrun := walkRun_walk s.buffer s.len (fuel := s.len + 1) (c := i) (by omega) 0
    exact .inr ⟨i, _, rfl, hrun, execWalk_of_some h hrun⟩

/-! ## STORED and AUTO -/

theorem execStored_of_ok {k : Marker} {p : Nat} {c : Word} (h : storedFrameCount s.buffer s.len = .ok k p c) :
    exec .stored s = .next (s.ended
      { s.status with
        result := .ok, markFound := true, markId := k, trunc := false, src := true, metaOut := .countRead }
      { s.res with markPos := BitVec.ofNat 32 p, count := c }) := by
  rw [exec, execStored, h]
  rfl

theorem execStored_of_noCount {k : Marker} {p : Nat} {trunc : Bool}
    (h : storedFrameCount s.buffer s.len = .noCountStored k p trunc) :
    exec .stored s = .next (s.ended
      { s.status with
        result := .noCountStored, markFound := true, markId := k, trunc := trunc, metaOut := .noCountStored }
      { s.res with markPos := BitVec.ofNat 32 p }) := by
  rw [exec, execStored, h]
  rfl

theorem execStored_of_notFound (h : storedFrameCount s.buffer s.len = .notFound) :
    exec .stored s = .next (s.ended { s.status with result := .notFound, metaOut := .notFound } s.res) := by
  rw [exec, execStored, h]
  rfl

theorem exec_auto (s : State) : exec .auto s = execAuto s := rfl

theorem execAuto_of_noMeta (h : s.ctrl.noMeta = true) :
    exec .auto s = exec .walk { s with status := { s.status with src := false } } := by
  rw [exec_auto, execAuto, frameCountTwoTier, if_pos h]
  rfl

theorem execAuto_of_ok (hmeta : s.ctrl.noMeta = false) {k : Marker} {p : Nat} {c : Word}
    (h : storedFrameCount s.buffer s.len = .ok k p c) :
    exec .auto s = .next (s.ended
      { s.status with
        result := .ok, markFound := true, markId := k, trunc := false, src := true, metaOut := .countRead }
      { s.res with markPos := BitVec.ofNat 32 p, count := c }) := by
  rw [exec_auto, execAuto, frameCountTwoTier, if_neg (by simp [hmeta]), h]
  rfl

theorem execAuto_of_noCount (hmeta : s.ctrl.noMeta = false) {k : Marker} {p : Nat} {trunc : Bool}
    (h : storedFrameCount s.buffer s.len = .noCountStored k p trunc) :
    exec .auto s = exec .walk { s with
      res := { s.res with markPos := BitVec.ofNat 32 p }
      status := { s.status with
        markFound := true, markId := k, trunc := trunc, src := false, metaOut := .noCountStored } } := by
  rw [exec_auto, execAuto, frameCountTwoTier, if_neg (by simp [hmeta]), h]
  rfl

theorem execAuto_of_notFound (hmeta : s.ctrl.noMeta = false) (h : storedFrameCount s.buffer s.len = .notFound) :
    exec .auto s = exec .walk { s with status := { s.status with src := false, metaOut := .notFound } } := by
  rw [exec_auto, execAuto, frameCountTwoTier, if_neg (by simp [hmeta]), h]
  rfl

end outcomes

/-- Everything AUTO can do: read a count as STORED does, or walk after the marker fields have been written
(44_two_tier.md R170). -/
theorem execAuto_cases (s : State) :
    (∃ k p c, storedFrameCount s.buffer s.len = .ok k p c ∧ exec .auto s = exec .stored s) ∨
      (s.ctrl.noMeta = true ∧ exec .auto s = exec .walk { s with status := { s.status with src := false } }) ∨
      (storedFrameCount s.buffer s.len = .notFound ∧
        exec .auto s = exec .walk { s with status := { s.status with src := false, metaOut := .notFound } }) ∨
      ∃ k p trunc, storedFrameCount s.buffer s.len = .noCountStored k p trunc ∧
        exec .auto s = exec .walk { s with
          res := { s.res with markPos := BitVec.ofNat 32 p }
          status := { s.status with
            markFound := true, markId := k, trunc := trunc, src := false, metaOut := .noCountStored } } := by
  cases hmeta : s.ctrl.noMeta with
  | true => exact .inr (.inl ⟨rfl, execAuto_of_noMeta hmeta⟩)
  | false =>
    cases h : storedFrameCount s.buffer s.len with
    | ok k p c => exact .inl ⟨k, p, c, rfl, (execAuto_of_ok hmeta h).trans (execStored_of_ok h).symm⟩
    | noCountStored k p trunc => exact .inr (.inr (.inr ⟨k, p, trunc, rfl, execAuto_of_noCount hmeta h⟩))
    | notFound => exact .inr (.inr (.inl ⟨rfl, execAuto_of_notFound hmeta h⟩))

/-! ## Numbers below 2^32 -/

theorem toNat_ofNat_word {n : Nat} (h : n < 2 ^ 32) : (BitVec.ofNat 32 n).toNat = n := by
  rw [BitVec.toNat_ofNat, Nat.mod_eq_of_lt h]

theorem toNat_ofNat_offset {s : State} {i : Nat} (h : i < s.len) : (BitVec.ofNat 32 i).toNat = i := by
  have hlen := s.len_lt
  exact toNat_ofNat_word (by omega)

/-- The registers of a walk hold its numbers exactly: from a candidate no cursor passes 2^31 + 1436, and no count 2^25
(43_scan_walk.md R152; 10_state.md R22, R23). -/
theorem WalkRun.registers_bounds {s : State} {i : Nat} {e : WalkEnd} (hi : i + 1 < s.len)
    (h : WalkRun s.buffer s.len i 0 e) : i ≤ e.cursor ∧ e.cursor ≤ 2 ^ 31 + 1436 ∧ e.headers < 2 ^ 25 := by
  have hlen := s.len_lt
  obtain ⟨-, hlow, -⟩ := h.cursor_bounds
  rcases h.last_header with ⟨hheaders, hcursor⟩ | ⟨last, hlast, hgap, -, -, hcursor⟩ <;> omega

/-! ## The statements -/

theorem flagBit_getLsbD {n : Nat} (x : BitVec n) (i : Nat) : flagBit (x.getLsbD i) = x.extractLsb' i 1 :=
  ofBool_getLsbD x i

/-- HDR_FLAGS of a window packs the window's own fields (10_state.md R17; 40_header_decode.md R98). -/
theorem headerFlags_word (w : Word) :
    (headerFlags w).word = (w.extractLsb' 16 1 ++ w.extractLsb' 12 4 ++ w.extractLsb' 10 2 ++ w.extractLsb' 9 1 ++
      (1 : BitVec 1)).setWidth 32 := by
  rw [headerFlags, HdrFlags.word, padBit_eq_getLsbD, protBit_eq_getLsbD, flagBit_getLsbD, flagBit_getLsbD,
    brIdx_eq_extractLsb', srIdx_eq_extractLsb']
  have hwidth := (w.extractLsb' 16 1 ++ w.extractLsb' 12 4 ++ w.extractLsb' 10 2 ++ w.extractLsb' 9 1 ++ 1#1).isLt
  refine BitVec.eq_of_toNat_eq ?_
  rw [BitVec.toNat_setWidth, Nat.mod_eq_of_lt (by omega)]
  simp only [toNat_append_add, BitVec.ofNat_eq_ofNat, BitVec.toNat_zero, Nat.zero_mul, Nat.zero_add]
  rfl

/-- Settles O28: the outcomes of DECODE. -/
theorem decodeCommandReportsHeader : Obligations.DecodeCommandReportsHeader := fun s =>
  ⟨fun _ hd => ⟨headerFlags s.hdrIn, headerFlags_word s.hdrIn, execDecode_of_valid hd⟩, execDecode_of_invalid⟩

/-- Settles O29: the size fits the register, so the register is 0 exactly when the size is. -/
theorem fsizeCommandSizesOperands : Obligations.FsizeCommandSizesOperands := by
  intro s
  have hbound := fsInSize_le s.fsIn
  have hexact : (BitVec.ofNat 32 (fsInSize s.fsIn)).toNat = fsInSize s.fsIn := toNat_ofNat_word (by omega)
  have hzero : BitVec.ofNat 32 (fsInSize s.fsIn) = 0 ↔ fsInSize s.fsIn < 1 := by
    rw [← BitVec.toNat_inj, hexact, Nat.lt_one_iff]
    rfl
  refine ⟨_, hexact, ?_⟩
  simp only [hzero]
  exact execFsize_eq s

/-- Settles O30: the outcomes of SEEK. -/
theorem seekCommandFindsLowestCandidate : Obligations.SeekCommandFindsLowestCandidate := by
  intro s
  refine ⟨fun i hi => ⟨BitVec.ofNat 32 i, ?_, execSeek_of_some (seek_eq_some.2 hi)⟩,
    fun h => execSeek_of_none (seek_eq_none.2 h)⟩
  have hlt := hi.lt_len
  exact toNat_ofNat_offset (s := s) (by omega)

/-- Settles O31: the outcomes of WALK, whose walk with a bound is the one without. -/
theorem walkCommandReportsWalkEnd : Obligations.WalkCommandReportsWalkEnd := by
  intro s
  refine ⟨fun i hi => ?_, fun h => execWalk_of_none (seek_eq_none.2 h)⟩
  have hlt := hi.lt_len
  have hrun := walkRun_walk s.buffer s.len (fuel := s.len + 1) (c := i) (by omega) 0
  obtain ⟨-, hcursor, hheaders⟩ := hrun.registers_bounds hlt
  exact ⟨_, _, _, _, _, hrun, toNat_ofNat_offset (s := s) (by omega), toNat_ofNat_word (by omega),
    toNat_ofNat_word (by omega), toNat_ofNat_word (by omega), execWalk_of_some (seek_eq_some.2 hi) hrun⟩

/-- Settles O34. -/
theorem storedCommandWithoutMarker : Obligations.StoredCommandWithoutMarker := fun _ h =>
  execStored_of_notFound (storedFrameCount_of_noMarker h)

theorem WinningMarker.toNat_ofNat {s : State} {k : Marker} {p : Nat} (h : WinningMarker s k p) :
    (BitVec.ofNat 32 p).toNat = p :=
  toNat_ofNat_offset (findMarker_lt_len (findMarker_of_winning h))

/-- Settles O35: the cases of the record. -/
theorem storedCommandReadsRecord : Obligations.StoredCommandReadsRecord := by
  intro s k p hwin
  have hrecord := storedFrameCount_of_winning hwin
  refine ⟨_, hwin.toNat_ofNat, fun hlen => ?_, fun hlen hflag => ?_, fun hlen hflag hcount => ?_, fun hlen hflag => ?_⟩
  · exact execStored_of_noCount (hrecord.trans (readRecord_of_noFlags hlen k))
  · exact execStored_of_noCount (hrecord.trans (readRecord_of_flagClear hlen hflag k))
  · rw [readRecord_of_flagSet hlen hflag, if_pos hcount] at hrecord
    exact execStored_of_noCount hrecord
  · rw [readRecord_of_flagSet (by omega) hflag, if_neg (by omega)] at hrecord
    exact execStored_of_ok hrecord

/-- Settles O37: the outcomes of AUTO in the cases of the record. -/
theorem autoCommandTriesShortcutThenWalks : Obligations.AutoCommandTriesShortcutThenWalks := by
  intro s
  refine ⟨execAuto_of_noMeta, fun hmeta h => execAuto_of_notFound hmeta (storedFrameCount_of_noMarker h),
    fun hmeta k p hwin => ?_⟩
  have hrecord := storedFrameCount_of_winning hwin
  refine ⟨_, hwin.toNat_ofNat, fun hlen hflag => ?_, fun hlen hflag => ?_, ?_⟩
  · rw [readRecord_of_flagSet (by omega) hflag, if_neg (by omega)] at hrecord
    exact execAuto_of_ok hmeta hrecord
  · exact execAuto_of_noCount hmeta (hrecord.trans (readRecord_of_flagClear hlen hflag k))
  · rintro (hlen | ⟨hflag, hlen⟩)
    · exact execAuto_of_noCount hmeta (hrecord.trans (readRecord_of_noFlags hlen k))
    · rcases Nat.lt_or_ge (p + 7) s.len with hflags | hflags
      · rw [readRecord_of_flagSet hflags hflag, if_pos hlen] at hrecord
        exact execAuto_of_noCount hmeta hrecord
      · exact execAuto_of_noCount hmeta (hrecord.trans (readRecord_of_noFlags hflags k))

end Sys2Proof.Machine
end

section
/-! SUPPORT. What holds of every command: it completes (60_exceptions.md R180, R181), writes its column and nothing else
(10_state.md R31), and its results depend on the operands it reads alone (10_state.md R30). -/

namespace Sys2Proof.Machine

/-! ## Completion -/

/-- Settles O38: the outcomes of each command; AUTO ends as STORED does with a count, or as WALK. -/
theorem everyCommandCompletes : Obligations.EveryCommandCompletes := by
  intro i s
  have hwalk (u : State) : ∃ t, exec .walk u = .next t ∧ t.status.busy = false ∧ t.status.done = true ∧
      t.status.result = .ok := by
    rcases execWalk_cases u with ⟨-, h⟩ | ⟨_, _, -, -, h⟩ <;> exact ⟨_, h, rfl, rfl, rfl⟩
  cases i with
  | decode =>
    cases hd : decodeHeader s.hdrIn with
    | none => exact ⟨_, execDecode_of_invalid hd, rfl, rfl, .inr rfl⟩
    | some h => exact ⟨_, execDecode_of_valid hd, rfl, rfl, .inl rfl⟩
  | fsize =>
    rcases Nat.lt_or_ge (fsInSize s.fsIn) 1 with hn | hn
    · exact ⟨_, execFsize_eq s, rfl, rfl, .inr (if_pos hn)⟩
    · exact ⟨_, execFsize_eq s, rfl, rfl, .inl (if_neg (Nat.not_lt.2 hn))⟩
  | seek =>
    cases h : seek s.ctrl.syncMode s.buffer s.len with
    | none => exact ⟨_, execSeek_of_none h, rfl, rfl, .inr rfl⟩
    | some i => exact ⟨_, execSeek_of_some h, rfl, rfl, .inl rfl⟩
  | walk => exact hwalk s
  | stored =>
    cases h : storedFrameCount s.buffer s.len with
    | ok k p c => exact ⟨_, execStored_of_ok h, rfl, rfl, .inl rfl⟩
    | noCountStored k p trunc => exact ⟨_, execStored_of_noCount h, rfl, rfl, .inr (.inr rfl)⟩
    | notFound => exact ⟨_, execStored_of_notFound h, rfl, rfl, .inr (.inl rfl)⟩
  | auto =>
    rcases execAuto_cases s with ⟨k, p, c, h, he⟩ | ⟨-, he⟩ | ⟨-, he⟩ | ⟨k, p, trunc, -, he⟩
    · exact ⟨_, he.trans (execStored_of_ok h), rfl, rfl, rfl⟩
    all_goals
      rw [he]
      exact hwalk _

/-! ## The columns of the table -/

section columns
variable {s t : State}

theorem execDecode_column (h : exec .decode s = .next t) :
    ∃ code f b r n, t = s.ended { s.status with result := code }
      { s.res with hdrFlags := f, bitrate := b, srate := r, fsize := n } := by
  cases hd : decodeHeader s.hdrIn with
  | none =>
    cases (execDecode_of_invalid hd).symm.trans h
    exact ⟨_, _, _, _, _, rfl⟩
  | some hdr =>
    cases (execDecode_of_valid hd).symm.trans h
    exact ⟨_, _, _, _, _, rfl⟩

theorem execSeek_column (h : exec .seek s = .next t) :
    ∃ code found p c, t = s.ended { s.status with result := code, syncFound := found }
      { s.res with syncPos := p, cursor := c } := by
  cases hseek : seek s.ctrl.syncMode s.buffer s.len with
  | none =>
    cases (execSeek_of_none hseek).symm.trans h
    exact ⟨_, _, _, _, rfl⟩
  | some i =>
    cases (execSeek_of_some hseek).symm.trans h
    exact ⟨_, _, _, _, rfl⟩

theorem execWalk_column (h : exec .walk s = .next t) :
    ∃ code found stop p c n k, t = s.ended { s.status with result := code, syncFound := found, stop := stop }
      { s.res with syncPos := p, cursor := c, hdrCount := n, count := k } := by
  rcases execWalk_cases s with ⟨-, he⟩ | ⟨i, e, -, -, he⟩ <;> cases he.symm.trans h <;>
    exact ⟨_, _, _, _, _, _, _, rfl⟩

theorem execStored_column (h : exec .stored s = .next t) :
    ∃ code found id src trunc outcome p k, t = s.ended
      { s.status with
        result := code, markFound := found, markId := id, src := src, trunc := trunc, metaOut := outcome }
      { s.res with markPos := p, count := k } := by
  cases ho : storedFrameCount s.buffer s.len with
  | ok k p c =>
    cases (execStored_of_ok ho).symm.trans h
    exact ⟨_, _, _, _, _, _, _, _, rfl⟩
  | noCountStored k p trunc =>
    cases (execStored_of_noCount ho).symm.trans h
    exact ⟨_, _, _, _, _, _, _, _, rfl⟩
  | notFound =>
    cases (execStored_of_notFound ho).symm.trans h
    exact ⟨_, _, _, _, _, _, _, _, rfl⟩

theorem execAuto_column (h : exec .auto s = .next t) :
    ∃ st res, t = s.ended st res ∧ st.haz = s.status.haz ∧ res.hdrFlags = s.res.hdrFlags ∧
      res.bitrate = s.res.bitrate ∧ res.srate = s.res.srate ∧ res.fsize = s.res.fsize := by
  rcases execAuto_cases s with ⟨_, _, _, -, he⟩ | ⟨-, he⟩ | ⟨-, he⟩ | ⟨_, _, _, -, he⟩ <;> rw [he] at h
  · obtain ⟨_, _, _, _, _, _, _, _, rfl⟩ := execStored_column h
    exact ⟨_, _, rfl, rfl, rfl, rfl, rfl, rfl⟩
  all_goals
    obtain ⟨_, _, _, _, _, _, _, rfl⟩ := execWalk_column h
    exact ⟨_, _, rfl, rfl, rfl, rfl, rfl, rfl⟩

end columns

/-- Settles O39: each command's column, as its next state. -/
theorem commandsWriteOnlyTheirColumn : Obligations.CommandsWriteOnlyTheirColumn := by
  intro i s t h
  cases i with
  | decode =>
    obtain ⟨_, _, _, _, _, rfl⟩ := execDecode_column h
    simp
  | fsize =>
    cases h
    simp
  | seek =>
    obtain ⟨_, _, _, _, rfl⟩ := execSeek_column h
    simp
  | walk =>
    obtain ⟨_, _, _, _, _, _, _, rfl⟩ := execWalk_column h
    simp
  | stored =>
    obtain ⟨_, _, _, _, _, _, _, _, rfl⟩ := execStored_column h
    simp
  | auto =>
    obtain ⟨_, _, rfl, hhaz, hflags, hbitrate, hsrate, hfsize⟩ := execAuto_column h
    simp [hhaz, hflags, hbitrate, hsrate, hfsize]

/-! ## AUTO and the host's sequence -/

/-- The walk fields as acceptance leaves them (10_state.md R30). -/
structure State.WalkCleared (s : State) : Prop where
  syncFound : s.status.syncFound = false
  stop : s.status.stop = .notEntered
  syncPos : s.res.syncPos = 0
  cursor : s.res.cursor = 0
  hdrCount : s.res.hdrCount = 0

theorem accept_walkCleared (w : Word) (s : State) : (accept w s).WalkCleared := ⟨rfl, rfl, rfl, rfl, rfl⟩

/-- What WALK reports depends on the buffer, BUF_LEN and CTRL alone, when its fields have been cleared. -/
theorem execWalk_walkFields {u v a c : State} (ha : exec .walk u = .next a) (hc : exec .walk v = .next c)
    (hu : u.WalkCleared) (hv : v.WalkCleared) (hctrl : u.ctrl = v.ctrl) (hbufLen : u.bufLen = v.bufLen)
    (hbuffer : u.buffer = v.buffer) :
    a.res.count = c.res.count ∧ a.status.syncFound = c.status.syncFound ∧ a.res.syncPos = c.res.syncPos ∧
      a.res.cursor = c.res.cursor ∧ a.res.hdrCount = c.res.hdrCount ∧ a.status.stop = c.status.stop := by
  have hlen : u.len = v.len := congrArg BitVec.toNat hbufLen
  rcases execWalk_cases u with ⟨hseek, he⟩ | ⟨i, e, hseek, hrun, he⟩ <;> cases he.symm.trans ha
  · rw [hctrl, hbuffer, hlen] at hseek
    cases (execWalk_of_none hseek).symm.trans hc
    exact ⟨rfl, hu.syncFound.trans hv.syncFound.symm, hu.syncPos.trans hv.syncPos.symm,
      hu.cursor.trans hv.cursor.symm, hu.hdrCount.trans hv.hdrCount.symm, hu.stop.trans hv.stop.symm⟩
  · rw [hctrl, hbuffer, hlen] at hseek
    rw [hbuffer, hlen] at hrun
    cases (execWalk_of_some hseek hrun).symm.trans hc
    exact ⟨rfl, rfl, rfl, rfl, rfl, rfl⟩

/-- And it leaves the marker fields (10_state.md R31). -/
theorem execWalk_markFields {u a : State} (h : exec .walk u = .next a) :
    a.status.markFound = u.status.markFound ∧ a.status.markId = u.status.markId ∧ a.res.markPos = u.res.markPos ∧
      a.status.trunc = u.status.trunc ∧ a.status.metaOut = u.status.metaOut ∧ a.status.src = u.status.src := by
  obtain ⟨_, _, _, _, _, _, _, rfl⟩ := execWalk_column h
  exact ⟨rfl, rfl, rfl, rfl, rfl, rfl⟩

/-- Settles O50: with a count stored AUTO is STORED; otherwise both AUTO and the WALK issued after STORED walk the same
buffer, AUTO with STORED's marker fields written before. -/
theorem autoEqualsStoredThenWalk : Obligations.AutoEqualsStoredThenWalk := by
  intro s a b c hmeta ha hb hc
  cases ho : storedFrameCount s.buffer s.len with
  | ok k p n =>
    cases (execAuto_of_ok (s := accept (encode .auto) s) hmeta ho).symm.trans ha
    cases (execStored_of_ok (s := accept (encode .stored) s) ho).symm.trans hb
    simp
  | noCountStored k p trunc =>
    rw [execAuto_of_noCount (s := accept (encode .auto) s) hmeta ho] at ha
    cases (execStored_of_noCount (s := accept (encode .stored) s) ho).symm.trans hb
    obtain ⟨hfound, hid, hpos, htrunc, hout, hsrc⟩ := execWalk_markFields ha
    exact ⟨nofun, fun _ => execWalk_walkFields ha hc ⟨rfl, rfl, rfl, rfl, rfl⟩ (accept_walkCleared _ _) rfl rfl rfl,
      hfound, hid, hpos, htrunc, hout, by simp [hsrc]⟩
  | notFound =>
    rw [execAuto_of_notFound (s := accept (encode .auto) s) hmeta ho] at ha
    cases (execStored_of_notFound (s := accept (encode .stored) s) ho).symm.trans hb
    obtain ⟨hfound, hid, hpos, htrunc, hout, hsrc⟩ := execWalk_markFields ha
    exact ⟨nofun, fun _ => execWalk_walkFields ha hc ⟨rfl, rfl, rfl, rfl, rfl⟩ (accept_walkCleared _ _) rfl rfl rfl,
      hfound, hid, hpos, htrunc, hout, by simp [hsrc]⟩

/-! ## Consecutive frames -/

/-- The walk over consecutive complete frames goes from each to the next and stops at BUF_LEN. -/
theorem walkRun_of_frames {m : Memory} {len K : Nat} {pos : Nat → Nat} (hend : pos K = len)
    (hframe : ∀ j, j < K → ∃ h, decodeHeader (memRead4 m (pos j)) = some h ∧ pos (j + 1) = pos j + h.size)
    {j : Nat} (hj : j ≤ K) : WalkRun m len (pos j) j ⟨len, K, .incompleteWindow⟩ := by
  induction hj using Nat.decreasingInduction with
  | self =>
    rw [hend]
    exact .incomplete len K (by omega)
  | of_succ j hj ih =>
    obtain ⟨h, hd, hnext⟩ := hframe j hj
    have hsize := Header.size_bounds hd
    obtain ⟨-, hcursor, -⟩ := ih.cursor_bounds
    rw [hnext] at ih
    exact .advance (pos j) j h _ (by simp only at hcursor; omega) hd (by omega) ih

/-- Settles O51: the walk over the frames is the one WALK reports, and its numbers fit the registers. -/
theorem walkCountsConsecutiveFrames : Obligations.WalkCountsConsecutiveFrames := by
  intro s K pos hK hstart hend hsync hframe
  have hrun : WalkRun s.buffer s.len 0 0 ⟨s.len, K, .incompleteWindow⟩ := by
    have h := walkRun_of_frames hend hframe (Nat.zero_le K)
    rwa [hstart] at h
  have hfirst : FirstSync s 0 := ⟨hsync, fun j hj => absurd hj (Nat.not_lt_zero j)⟩
  obtain ⟨-, hcursor, hheaders⟩ := hrun.registers_bounds hfirst.lt_len
  exact ⟨_, execWalk_of_some (seek_eq_some.2 hfirst) hrun, toNat_ofNat_word (by omega), toNat_ofNat_word (by omega),
    toNat_ofNat_word (by omega), rfl, rfl, rfl, rfl⟩

end Sys2Proof.Machine
end

section
/-! SUPPORT. The results of a command depend on its operands alone (10_state.md R30; 20_memory.md R44): of the buffer on
the bytes below BUF_LEN, and of the rest of the state on the registers it reads. -/

namespace Sys2Proof.Machine

/-! ## The bytes below BUF_LEN -/

theorem firstOffset_congr {p q : Nat → Bool} {n i : Nat} (h : ∀ k, i ≤ k → k < i + n → p k = q k) :
    firstOffset p n i = firstOffset q n i := by
  induction n generalizing i with
  | zero => rfl
  | succ n ih =>
    rw [firstOffset, firstOffset, h i (Nat.le_refl i) (by omega), ih fun k hk1 hk2 => h k (by omega) (by omega)]

section buffer
variable {m m' : Memory} {len : Nat} (h : ∀ a, a < len → m.read a = m'.read a)
include h

theorem isSync_congr (mode : SyncMode) {k : Nat} (hk : k + 1 < len) : isSync mode m k = isSync mode m' k := by
  cases mode <;> simp only [isSync, h k (by omega), h (k + 1) hk]

theorem seek_congr (mode : SyncMode) : seek mode m len = seek mode m' len :=
  firstOffset_congr fun _ _ hk => isSync_congr h mode (by omega)

theorem memRead4_congr {a : Nat} (ha : a + 4 ≤ len) : memRead4 m a = memRead4 m' a := by
  rw [memRead4, memRead4, h a (by omega), h (a + 1) (by omega), h (a + 2) (by omega), h (a + 3) (by omega)]

theorem walkStep_congr (c : Nat) : walkStep m len c = walkStep m' len c := by
  rcases Nat.lt_or_ge len (c + 4) with hlen | hlen
  · rw [walkStep_of_incomplete hlen, walkStep_of_incomplete hlen]
  · rw [walkStep, walkStep, memRead4_congr h hlen]

theorem WalkRun.congr {c n : Nat} {e : WalkEnd} (hrun : WalkRun m len c n e) : WalkRun m' len c n e := by
  induction hrun with
  | incomplete c n hlen => exact .incomplete c n hlen
  | invalid c n hlen hd => exact .invalid c n hlen (memRead4_congr h hlen ▸ hd)
  | degenerate c n hdr hlen hd hsize => exact .degenerate c n hdr hlen (memRead4_congr h hlen ▸ hd) hsize
  | advance c n hdr e hlen hd hpos _ ih => exact .advance c n hdr e hlen (memRead4_congr h hlen ▸ hd) hpos ih

theorem occurs_congr (k : Marker) (p : Nat) : occurs m len k p = occurs m' len k p := by
  rw [Bool.eq_iff_iff, occurs, occurs, Bool.and_eq_true, Bool.and_eq_true, bytesAt_iff, bytesAt_iff, decide_eq_true_eq]
  refine and_congr_right fun hbound => forall₂_congr fun j hj => ?_
  rw [h (p + j) (by omega)]

theorem findMarkerIn_congr (ks : List Marker) : findMarkerIn m len ks = findMarkerIn m' len ks := by
  induction ks with
  | nil => rfl
  | cons k rest ih =>
    have hfirst : firstMarker m len k = firstMarker m' len k := firstOffset_congr fun p _ _ => occurs_congr h k p
    rw [findMarkerIn, findMarkerIn, hfirst, ih]

theorem readRecord_congr (k : Marker) (p : Nat) : readRecord m len k p = readRecord m' len k p := by
  rcases Nat.lt_or_ge (p + 7) len with hlen | hlen
  · have hbyte := h (p + 7) hlen
    cases hflag : (m.read (p + 7)).getLsbD 0 with
    | false => rw [readRecord_of_flagClear hlen hflag, readRecord_of_flagClear hlen (hbyte ▸ hflag)]
    | true =>
      rw [readRecord_of_flagSet hlen hflag, readRecord_of_flagSet hlen (hbyte ▸ hflag)]
      refine ite_congr rfl (fun _ => rfl) fun hcount => ?_
      rw [memRead4_congr h (by omega)]
  · rw [readRecord_of_noFlags hlen, readRecord_of_noFlags hlen]

theorem storedFrameCount_congr : storedFrameCount m len = storedFrameCount m' len := by
  rw [storedFrameCount, storedFrameCount, findMarker, findMarker, findMarkerIn_congr h]
  cases findMarkerIn m' len markers with
  | none => rfl
  | some found => exact readRecord_congr h found.1 found.2

end buffer

/-! ## The results of another state -/

/-- `u` with the result registers and the STATUS of `s`, HAZ apart. -/
def State.withResults (u s : State) : State := { u with status := { s.status with haz := u.status.haz }, res := s.res }

theorem eq_withResults {u s : State} (hres : u.res = s.res) (hst : u.status = { s.status with haz := u.status.haz }) :
    u = u.withResults s := by
  rw [State.withResults, ← hst, ← hres]

theorem LP_BUFFER_GIVEN.len_eq {s u : State} (h : LP_BUFFER_GIVEN s u) : s.len = u.len := congrArg BitVec.toNat h.1

section operands
variable {s u s' : State}

theorem seek_eq_of_given (hbuf : LP_BUFFER_GIVEN s u) (hmode : s.ctrl.syncMode = u.ctrl.syncMode) :
    seek u.ctrl.syncMode u.buffer u.len = seek s.ctrl.syncMode s.buffer s.len := by
  rw [← hmode, ← hbuf.len_eq, seek_congr hbuf.2]

theorem storedFrameCount_eq_of_given (hbuf : LP_BUFFER_GIVEN s u) :
    storedFrameCount u.buffer u.len = storedFrameCount s.buffer s.len := by
  rw [← hbuf.len_eq, storedFrameCount_congr hbuf.2]

theorem execDecode_withResults (h : s.hdrIn = u.hdrIn) (he : exec .decode s = .next s') :
    exec .decode (u.withResults s) = .next (u.withResults s') := by
  cases hd : decodeHeader s.hdrIn with
  | none =>
    cases (execDecode_of_invalid hd).symm.trans he
    exact execDecode_of_invalid (s := u.withResults s) (h ▸ hd)
  | some hdr =>
    cases (execDecode_of_valid hd).symm.trans he
    rw [h] at hd ⊢
    exact execDecode_of_valid (s := u.withResults s) hd

theorem execFsize_withResults (h : s.fsIn = u.fsIn) (he : exec .fsize s = .next s') :
    exec .fsize (u.withResults s) = .next (u.withResults s') := by
  cases (execFsize_eq s).symm.trans he
  rw [h]
  exact execFsize_eq (u.withResults s)

theorem execSeek_withResults (hbuf : LP_BUFFER_GIVEN s u) (hmode : s.ctrl.syncMode = u.ctrl.syncMode)
    (he : exec .seek s = .next s') : exec .seek (u.withResults s) = .next (u.withResults s') := by
  have hseek := seek_eq_of_given hbuf hmode
  cases hs : seek s.ctrl.syncMode s.buffer s.len with
  | none =>
    cases (execSeek_of_none hs).symm.trans he
    exact execSeek_of_none (s := u.withResults s) (hseek.trans hs)
  | some i =>
    cases (execSeek_of_some hs).symm.trans he
    exact execSeek_of_some (s := u.withResults s) (hseek.trans hs)

theorem execWalk_withResults (he : exec .walk s = .next s') (hbuf : LP_BUFFER_GIVEN s u)
    (hmode : s.ctrl.syncMode = u.ctrl.syncMode) : exec .walk (u.withResults s) = .next (u.withResults s') := by
  have hseek := seek_eq_of_given hbuf hmode
  rcases execWalk_cases s with ⟨hnone, hs⟩ | ⟨i, e, hsome, hrun, hs⟩ <;> cases hs.symm.trans he
  · exact execWalk_of_none (s := u.withResults s) (hseek.trans hnone)
  · exact execWalk_of_some (s := u.withResults s) (hseek.trans hsome) (hbuf.len_eq ▸ hrun.congr hbuf.2)

theorem execStored_withResults (hbuf : LP_BUFFER_GIVEN s u) (he : exec .stored s = .next s') :
    exec .stored (u.withResults s) = .next (u.withResults s') := by
  have hstored := storedFrameCount_eq_of_given hbuf
  cases ho : storedFrameCount s.buffer s.len with
  | ok k p c =>
    cases (execStored_of_ok ho).symm.trans he
    exact execStored_of_ok (s := u.withResults s) (hstored.trans ho)
  | noCountStored k p trunc =>
    cases (execStored_of_noCount ho).symm.trans he
    exact execStored_of_noCount (s := u.withResults s) (hstored.trans ho)
  | notFound =>
    cases (execStored_of_notFound ho).symm.trans he
    exact execStored_of_notFound (s := u.withResults s) (hstored.trans ho)

theorem execAuto_withResults (hbuf : LP_BUFFER_GIVEN s u) (hctrl : s.ctrl = u.ctrl) (he : exec .auto s = .next s') :
    exec .auto (u.withResults s) = .next (u.withResults s') := by
  have hstored := storedFrameCount_eq_of_given hbuf
  have hmode : s.ctrl.syncMode = u.ctrl.syncMode := congrArg Ctrl.syncMode hctrl
  cases hmeta : s.ctrl.noMeta with
  | true =>
    have hmeta' : u.ctrl.noMeta = true := hctrl ▸ hmeta
    rw [execAuto_of_noMeta hmeta] at he
    rw [execAuto_of_noMeta (s := u.withResults s) hmeta']
    exact (execWalk_withResults (u := u) he hbuf hmode :)
  | false =>
    have hmeta' : u.ctrl.noMeta = false := hctrl ▸ hmeta
    cases ho : storedFrameCount s.buffer s.len with
    | ok k p c =>
      cases (execAuto_of_ok hmeta ho).symm.trans he
      exact execAuto_of_ok (s := u.withResults s) hmeta' (hstored.trans ho)
    | noCountStored k p trunc =>
      rw [execAuto_of_noCount hmeta ho] at he
      rw [execAuto_of_noCount (s := u.withResults s) hmeta' (hstored.trans ho)]
      exact (execWalk_withResults (u := u) he hbuf hmode :)
    | notFound =>
      rw [execAuto_of_notFound hmeta ho] at he
      rw [execAuto_of_notFound (s := u.withResults s) hmeta' (hstored.trans ho)]
      exact (execWalk_withResults (u := u) he hbuf hmode :)

/-- A command writes the same results in every state that has its operands, and does not read HAZ. -/
theorem exec_withResults {i : Instr} (h : sameOperands i s u) (he : exec i s = .next s') :
    exec i (u.withResults s) = .next (u.withResults s') := by
  cases i with
  | decode => exact execDecode_withResults h he
  | fsize => exact execFsize_withResults h he
  | seek => exact execSeek_withResults h.1 h.2 he
  | walk => exact execWalk_withResults he h.1 h.2
  | stored => exact execStored_withResults h he
  | auto => exact execAuto_withResults h.1 h.2 he

end operands

/-- Settles O47: acceptance clears all results, so the second state is the first one's results on its own registers. -/
theorem resultsDependOnOperandsAlone : Obligations.ResultsDependOnOperandsAlone := by
  intro i s t s' t' h hs ht
  have hsame : sameOperands i (accept (encode i) s) (accept (encode i) t) := by cases i <;> exact h
  have he := exec_withResults hsame hs
  rw [← eq_withResults (u := accept (encode i) t) (s := accept (encode i) s) rfl rfl, ht] at he
  cases he
  exact ⟨rfl, rfl⟩

end Sys2Proof.Machine
end

section
/-! SUPPORT. The invariant: it holds at reset, and every step keeps it. Its clauses on results fall into four groups by the
fields they speak of, and each command writes the fields of some groups and leaves the others cleared. -/

namespace Sys2Proof.Machine

/-! ## The groups of clauses -/

/-- The clauses on what DECODE and FSIZE write. -/
structure HeaderInv (r : Results) : Prop where
  invalid : r.hdrFlags.valid = false → r.hdrFlags = HdrFlags.zero ∧ r.bitrate = 0 ∧ r.srate = 0
  valid : r.hdrFlags.valid = true →
    r.bitrate.toNat ∈ brTable ∧ r.srate.toNat ∈ srTable ∧ 96 ≤ r.fsize.toNat ∧ r.fsize.toNat ≤ 1441
  fsize : r.fsize.toNat ≤ 147312001

/-- The clauses on what the marker search writes. -/
structure MarkInv (t : Status) (r : Results) : Prop where
  markId : t.markId ≠ .vbrii
  noMark : t.markFound = false → t.markId = .xing ∧ t.trunc = false ∧ r.markPos = 0

/-- The clauses on what the search for a candidate and the walk write. -/
structure WalkInv (t : Status) (r : Results) : Prop where
  noSync : t.syncFound = false → r.syncPos = 0 ∧ r.cursor = 0 ∧ r.hdrCount = 0 ∧ t.stop = .notEntered
  cursor : r.syncPos.toNat ≤ r.cursor.toNat ∧ r.cursor.toNat ≤ 2 ^ 31 + 1436
  hdrCount : r.hdrCount.toNat < 2 ^ 25
  stop : t.stop ≠ .degenerateSize

/-- The clauses on where COUNT came from. -/
structure CountInv (t : Status) (r : Results) : Prop where
  walked : t.src = false → r.count.toNat = r.hdrCount.toNat - 1
  stored : t.src = true → t.metaOut = .countRead ∧ t.markFound = true ∧ t.syncFound = false

theorem inv_of_groups {s : State} (hwf : s.buffer.wf = true)
    (hbusy : s.status.busy = true →
      s.res = Results.zero ∧ s.status = { Status.zero with busy := true, haz := s.status.haz })
    (hlatch : s.status.busy = true → s.bad = false → (decodeOp s.op).isSome = true)
    (hresult : s.status.done = true ↔ s.status.result ≠ .none) (hheader : HeaderInv s.res)
    (hmark : MarkInv s.status s.res) (hwalk : WalkInv s.status s.res) (hcount : CountInv s.status s.res) : s.Inv :=
  ⟨hwf, hbusy, hlatch, hresult, hheader.invalid, hheader.valid, hheader.fsize, hmark.markId, hmark.noMark, hwalk.noSync,
    hwalk.cursor, hwalk.hdrCount, hcount.walked, hcount.stored, hwalk.stop⟩

/-- A completed command leaves the groups to be shown. -/
theorem inv_ended {s : State} {t : Status} {r : Results} (hwf : s.buffer.wf = true) (hresult : t.result ≠ .none)
    (hheader : HeaderInv r) (hmark : MarkInv t r) (hwalk : WalkInv t r) (hcount : CountInv t r) : (s.ended t r).Inv :=
  inv_of_groups hwf nofun nofun (iff_of_true rfl hresult) hheader ⟨hmark.markId, hmark.noMark⟩
    ⟨hwalk.noSync, hwalk.cursor, hwalk.hdrCount, hwalk.stop⟩ ⟨hcount.walked, hcount.stored⟩

/-! ### Groups of cleared fields -/

theorem headerInv_of_cleared {r : Results} (hflags : r.hdrFlags = HdrFlags.zero) (hbitrate : r.bitrate = 0)
    (hsrate : r.srate = 0) (hfsize : r.fsize.toNat ≤ 147312001) : HeaderInv r :=
  ⟨fun _ => ⟨hflags, hbitrate, hsrate⟩, fun hvalid => (by rw [hflags] at hvalid; nomatch hvalid), hfsize⟩

theorem headerInv_of_zero {r : Results} (hflags : r.hdrFlags = HdrFlags.zero) (hbitrate : r.bitrate = 0)
    (hsrate : r.srate = 0) (hfsize : r.fsize = 0) : HeaderInv r :=
  headerInv_of_cleared hflags hbitrate hsrate (by rw [hfsize]; exact Nat.zero_le _)

theorem markInv_of_cleared {t : Status} {r : Results} (hid : t.markId = .xing) (htrunc : t.trunc = false)
    (hpos : r.markPos = 0) : MarkInv t r :=
  ⟨by rw [hid]; nofun, fun _ => ⟨hid, htrunc, hpos⟩⟩

theorem markInv_of_found {t : Status} {r : Results} (hid : t.markId ≠ .vbrii) (hfound : t.markFound = true) :
    MarkInv t r :=
  ⟨hid, fun hnot => (nomatch hfound.symm.trans hnot)⟩

theorem walkInv_of_cleared {t : Status} {r : Results} (hpos : r.syncPos = 0) (hcursor : r.cursor = 0)
    (hheaders : r.hdrCount = 0) (hstop : t.stop = .notEntered) : WalkInv t r := by
  refine ⟨fun _ => ⟨hpos, hcursor, hheaders, hstop⟩, ?_, ?_, ?_⟩
  · rw [hpos, hcursor]
    decide
  · rw [hheaders]
    decide
  · rw [hstop]
    nofun

theorem walkInv_of_found {t : Status} {r : Results} (hfound : t.syncFound = true)
    (hcursor : r.syncPos.toNat ≤ r.cursor.toNat ∧ r.cursor.toNat ≤ 2 ^ 31 + 1436) (hheaders : r.hdrCount.toNat < 2 ^ 25)
    (hstop : t.stop ≠ .degenerateSize) : WalkInv t r :=
  ⟨fun hnot => (nomatch hfound.symm.trans hnot), hcursor, hheaders, hstop⟩

theorem countInv_of_walked {t : Status} {r : Results} (hsrc : t.src = false)
    (hcount : r.count.toNat = r.hdrCount.toNat - 1) : CountInv t r :=
  ⟨fun _ => hcount, fun hread => (nomatch hsrc.symm.trans hread)⟩

theorem countInv_of_stored {t : Status} {r : Results} (hsrc : t.src = true) (hout : t.metaOut = .countRead)
    (hmark : t.markFound = true) (hsync : t.syncFound = false) : CountInv t r :=
  ⟨fun hwalked => (nomatch hsrc.symm.trans hwalked), fun _ => ⟨hout, hmark, hsync⟩⟩

/-! ## Steps that complete nothing -/

/-- Registers as reset and acceptance leave them. -/
theorem inv_of_cleared {s : State} {busy haz : Bool} (hwf : s.buffer.wf = true) (hres : s.res = Results.zero)
    (hst : s.status = { Status.zero with busy := busy, haz := haz })
    (hlatch : s.status.busy = true → s.bad = false → (decodeOp s.op).isSome = true) : s.Inv := by
  refine inv_of_groups hwf (fun hb => ⟨hres, ?_⟩) hlatch ?_ ?_ ?_ ?_ ?_
  · rw [hst] at hb ⊢
    cases hb
    rfl
  · rw [hst]
    exact iff_of_false nofun fun h => h rfl
  · rw [hres]
    exact headerInv_of_zero rfl rfl rfl rfl
  all_goals rw [hst, hres]
  · exact markInv_of_cleared rfl rfl rfl
  · exact walkInv_of_cleared rfl rfl rfl rfl
  · exact countInv_of_walked rfl rfl

/-- Settles O45. -/
theorem invariantHoldsAtReset : Obligations.InvariantHoldsAtReset :=
  inv_of_cleared (busy := false) (haz := false) rfl rfl rfl nofun

theorem resetEvent_inv {s : State} (hwf : s.buffer.wf = true) : (resetEvent s).Inv :=
  inv_of_cleared (busy := false) (haz := false) hwf rfl rfl nofun

/-- Acceptance marks every word without a command BAD (20_memory.md R57). -/
theorem accept_inv {s : State} (hwf : s.buffer.wf = true) (w : Word) : (accept w s).Inv := by
  refine inv_of_cleared (busy := true) hwf rfl rfl fun _ hbad => ?_
  have hop : ¬(rsvField w ≠ 0 ∨ decodeOp (opField w) = none) := by
    rw [decodeOp_eq_none, ← badWord_iff]
    exact Bool.eq_false_iff.1 hbad
  exact Option.isSome_iff_ne_none.2 (not_or.1 hop).2

/-- The invariant reads the results, STATUS, the latches and the buffer's form, and of HAZ nothing. -/
theorem State.Inv.congr {s t : State} (h : s.Inv) (hwf : t.buffer.wf = true) (hres : t.res = s.res)
    (hst : t.status = { s.status with haz := t.status.haz }) (hop : t.op = s.op) (hbad : t.bad = s.bad) : t.Inv := by
  generalize t.status.haz = haz at hst
  refine inv_of_groups hwf (fun hb => ?_) ?_ ?_ ?_ ?_ ?_ ?_
  · rw [hst] at hb ⊢
    obtain ⟨hzero, hcleared⟩ := h.busy hb
    exact ⟨hres.trans hzero, by rw [hcleared]⟩
  · rw [hst, hop, hbad]
    exact h.latch
  · rw [hst]
    exact h.result
  · rw [hres]
    exact ⟨h.headerInvalid, h.headerValid, h.fsize⟩
  all_goals rw [hst, hres]
  · exact ⟨h.markId, h.noMark⟩
  · exact ⟨h.noSync, h.cursor, h.hdrCount, h.stop⟩
  · exact ⟨h.count, h.stored⟩

theorem readReg_inv {s : State} (h : s.Inv) (r : Reg) : (readReg r s).Inv := by
  rw [readReg_eq]
  exact h.congr h.buffer rfl rfl rfl rfl

theorem writeReg_inv {s : State} (h : s.Inv) (r : Reg) (v : Word) : (writeReg r v s).Inv := by
  cases hb : s.status.busy with
  | true =>
    rw [writeReg_of_busy hb]
    exact h.congr h.buffer rfl rfl rfl rfl
  | false =>
    rw [writeReg_of_idle hb]
    cases r with
    | cmd => exact accept_inv h.buffer v
    | _ => exact h.congr h.buffer rfl rfl rfl rfl

theorem bufWrite_inv {s t : State} (h : s.Inv) {a : Nat} {b : Byte} (ht : bufWrite a b s = .next t) : t.Inv := by
  unfold bufWrite at ht
  split at ht
  next ha =>
    split at ht
    · nomatch ht
    · cases ht
      exact h.congr (Memory.write_wf h.buffer ha) rfl rfl rfl rfl
  next => nomatch ht

/-! ## Completion -/

/-- WALK keeps the clauses when its fields were cleared, whatever marker was found before it. -/
theorem execWalk_inv {s t : State} (ht : exec .walk s = .next t) (hwf : s.buffer.wf = true) (hcleared : s.WalkCleared)
    (hsrc : s.status.src = false) (hheader : HeaderInv s.res) (hmark : MarkInv s.status s.res) : t.Inv := by
  rcases execWalk_cases s with ⟨-, he⟩ | ⟨i, e, hseek, hrun, he⟩ <;> cases he.symm.trans ht
  · refine inv_ended hwf nofun ⟨hheader.invalid, hheader.valid, hheader.fsize⟩ ⟨hmark.markId, hmark.noMark⟩
      (walkInv_of_cleared hcleared.syncPos hcleared.cursor hcleared.hdrCount hcleared.stop)
      (countInv_of_walked hsrc ?_)
    rw [hcleared.hdrCount]
    rfl
  · have hlt := (seek_eq_some.1 hseek).lt_len
    obtain ⟨hlow, hhigh, hheaders⟩ := hrun.registers_bounds hlt
    have hi : (BitVec.ofNat 32 i).toNat = i := toNat_ofNat_word (by omega)
    have hc : (BitVec.ofNat 32 e.cursor).toNat = e.cursor := toNat_ofNat_word (by omega)
    have hn : (BitVec.ofNat 32 e.headers).toNat = e.headers := toNat_ofNat_word (by omega)
    have hk : (BitVec.ofNat 32 (e.headers - 1)).toNat = e.headers - 1 := toNat_ofNat_word (by omega)
    have hstop : e.stop ≠ .degenerateSize := by rcases hrun.stop_ne with h | h <;> rw [h] <;> nofun
    refine inv_ended hwf nofun ⟨hheader.invalid, hheader.valid, hheader.fsize⟩ ⟨hmark.markId, hmark.noMark⟩
      (walkInv_of_found rfl ?_ ?_ hstop) (countInv_of_walked hsrc ?_)
    · rw [hi, hc]
      exact ⟨hlow, hhigh⟩
    · rw [hn]
      exact hheaders
    · rw [hk, hn]

/-- A decoded header's registers hold the table's values (10_state.md R18 to R20). -/
theorem headerInv_of_decoded {w : Word} {h : Header} (hd : decodeHeader w = some h) {r : Results}
    (hflags : r.hdrFlags = headerFlags w) (hbitrate : r.bitrate = h.bitRateKbps.setWidth 32)
    (hsrate : r.srate = h.samplingRateHz.setWidth 32) (hfsize : r.fsize = BitVec.ofNat 32 h.size) : HeaderInv r := by
  obtain ⟨-, hbr, hsr, -⟩ := decodeHeader_eq_some.1 hd
  obtain ⟨hlow, hhigh⟩ := Header.size_bounds hd
  have hsize : r.fsize.toNat = h.size := by rw [hfsize, toNat_ofNat_word (by omega)]
  refine ⟨fun hvalid => ?_, fun _ => ⟨?_, ?_, by omega, by omega⟩, by omega⟩
  · rw [hflags] at hvalid
    nomatch hvalid
  · rw [hbitrate, BitVec.toNat_setWidth_of_le (by decide)]
    exact List.mem_of_getElem? (bitRate?_eq_some.1 hbr).2
  · rw [hsrate, BitVec.toNat_setWidth_of_le (by decide)]
    exact List.mem_of_getElem? (samplingRate?_eq_some.1 hsr).2

section completion
variable {s t : State} (hwf : s.buffer.wf = true) (hres : s.res = Results.zero)
  {haz : Bool} (hst : s.status = { Status.zero with busy := true, haz := haz })
include hwf hres hst

theorem execDecode_inv (ht : exec .decode s = .next t) : t.Inv := by
  cases hd : decodeHeader s.hdrIn with
  | none =>
    cases (execDecode_of_invalid hd).symm.trans ht
    rw [hres, hst]
    exact inv_ended hwf nofun (headerInv_of_zero rfl rfl rfl rfl) (markInv_of_cleared rfl rfl rfl) (walkInv_of_cleared rfl rfl rfl rfl)
      (countInv_of_walked rfl rfl)
  | some h =>
    cases (execDecode_of_valid hd).symm.trans ht
    rw [hres, hst]
    exact inv_ended hwf nofun (headerInv_of_decoded hd rfl rfl rfl rfl) (markInv_of_cleared rfl rfl rfl)
      (walkInv_of_cleared rfl rfl rfl rfl) (countInv_of_walked rfl rfl)

theorem execFsize_inv (ht : exec .fsize s = .next t) : t.Inv := by
  have hbound := fsInSize_le s.fsIn
  have hexact : (BitVec.ofNat 32 (fsInSize s.fsIn)).toNat = fsInSize s.fsIn := toNat_ofNat_word (by omega)
  cases (execFsize_eq s).symm.trans ht
  rw [hres, hst]
  exact inv_ended hwf (by simp only; split <;> nofun) (headerInv_of_cleared rfl rfl rfl (hexact.trans_le hbound))
    (markInv_of_cleared rfl rfl rfl) (walkInv_of_cleared rfl rfl rfl rfl) (countInv_of_walked rfl rfl)

theorem execSeek_inv (ht : exec .seek s = .next t) : t.Inv := by
  cases hseek : seek s.ctrl.syncMode s.buffer s.len with
  | none =>
    cases (execSeek_of_none hseek).symm.trans ht
    rw [hres, hst]
    exact inv_ended hwf nofun (headerInv_of_zero rfl rfl rfl rfl) (markInv_of_cleared rfl rfl rfl) (walkInv_of_cleared rfl rfl rfl rfl)
      (countInv_of_walked rfl rfl)
  | some i =>
    have hlt := (seek_eq_some.1 hseek).lt_len
    have hlen := s.len_lt
    have hi : (BitVec.ofNat 32 i).toNat = i := toNat_ofNat_word (by omega)
    cases (execSeek_of_some hseek).symm.trans ht
    rw [hres, hst]
    exact inv_ended hwf nofun (headerInv_of_zero rfl rfl rfl rfl) (markInv_of_cleared rfl rfl rfl)
      (walkInv_of_found rfl ⟨Nat.le_refl _, by simp only; omega⟩ (Nat.two_pow_pos 25) nofun) (countInv_of_walked rfl rfl)

theorem execWalk_inv_of_cleared (ht : exec .walk s = .next t) : t.Inv :=
  execWalk_inv ht hwf
    ⟨congrArg Status.syncFound hst, congrArg Status.stop hst, congrArg Results.syncPos hres,
      congrArg Results.cursor hres, congrArg Results.hdrCount hres⟩
    (congrArg Status.src hst)
    (headerInv_of_zero (congrArg Results.hdrFlags hres) (congrArg Results.bitrate hres) (congrArg Results.srate hres)
      (congrArg Results.fsize hres))
    (markInv_of_cleared (congrArg Status.markId hst) (congrArg Status.trunc hst) (congrArg Results.markPos hres))

theorem execStored_inv (ht : exec .stored s = .next t) : t.Inv := by
  rcases storedFrameCount_cases s.buffer s.len with ho | ⟨k, p, hk, -, ⟨trunc, ho⟩ | ho⟩
  · cases (execStored_of_notFound ho).symm.trans ht
    rw [hres, hst]
    exact inv_ended hwf nofun (headerInv_of_zero rfl rfl rfl rfl) (markInv_of_cleared rfl rfl rfl) (walkInv_of_cleared rfl rfl rfl rfl)
      (countInv_of_walked rfl rfl)
  · cases (execStored_of_noCount ho).symm.trans ht
    rw [hres, hst]
    exact inv_ended hwf nofun (headerInv_of_zero rfl rfl rfl rfl) (markInv_of_found hk rfl) (walkInv_of_cleared rfl rfl rfl rfl)
      (countInv_of_walked rfl rfl)
  · cases (execStored_of_ok ho).symm.trans ht
    rw [hres, hst]
    exact inv_ended hwf nofun (headerInv_of_zero rfl rfl rfl rfl) (markInv_of_found hk rfl) (walkInv_of_cleared rfl rfl rfl rfl)
      (countInv_of_stored rfl rfl rfl rfl)

theorem execAuto_inv (ht : exec .auto s = .next t) : t.Inv := by
  have hmarker {k : Marker} {p : Nat} {trunc : Bool}
      (ho : storedFrameCount s.buffer s.len = .noCountStored k p trunc) : k ≠ .vbrii := by
    rcases storedFrameCount_cases s.buffer s.len with h | ⟨l, q, hl, -, ⟨trunc', h⟩ | h⟩ <;> cases h.symm.trans ho
    exact hl
  rcases execAuto_cases s with ⟨_, _, _, -, he⟩ | ⟨-, he⟩ | ⟨-, he⟩ | ⟨k, p, trunc, ho, he⟩ <;> rw [he] at ht
  · exact execStored_inv hwf hres hst ht
  all_goals rw [hres, hst] at ht
  · exact execWalk_inv ht hwf ⟨rfl, rfl, rfl, rfl, rfl⟩ rfl (headerInv_of_zero rfl rfl rfl rfl) (markInv_of_cleared rfl rfl rfl)
  · exact execWalk_inv ht hwf ⟨rfl, rfl, rfl, rfl, rfl⟩ rfl (headerInv_of_zero rfl rfl rfl rfl) (markInv_of_cleared rfl rfl rfl)
  · exact execWalk_inv ht hwf ⟨rfl, rfl, rfl, rfl, rfl⟩ rfl (headerInv_of_zero rfl rfl rfl rfl) (markInv_of_found (hmarker ho) rfl)

theorem completeIllegal_inv : (completeIllegal s).Inv := by
  have he : completeIllegal s = s.ended { s.status with result := .illegalCmd } s.res := rfl
  rw [he, hres, hst]
  exact inv_ended hwf nofun (headerInv_of_zero rfl rfl rfl rfl) (markInv_of_cleared rfl rfl rfl) (walkInv_of_cleared rfl rfl rfl rfl)
    (countInv_of_walked rfl rfl)

end completion

/-- A busy block's results are cleared, so every completion starts from there. -/
theorem blockTurn_inv {s t : State} (h : s.Inv) (ht : blockTurn s = .next t) : t.Inv := by
  rcases blockTurn_cases s with ⟨hb, i, -, he⟩ | ⟨hb, -, he⟩ | ⟨-, he⟩ <;> rw [he] at ht
  · obtain ⟨hres, hst⟩ := h.busy hb
    cases i with
    | decode => exact execDecode_inv h.buffer hres hst ht
    | fsize => exact execFsize_inv h.buffer hres hst ht
    | seek => exact execSeek_inv h.buffer hres hst ht
    | walk => exact execWalk_inv_of_cleared h.buffer hres hst ht
    | stored => exact execStored_inv h.buffer hres hst ht
    | auto => exact execAuto_inv h.buffer hres hst ht
  · obtain ⟨hres, hst⟩ := h.busy hb
    cases ht
    exact completeIllegal_inv h.buffer hres hst
  · cases ht
    exact h

/-- Settles O46: a step of the host or the platform changes no field the invariant reads, or clears them all; a turn of the
block keeps it, idle or busy. -/
theorem stepKeepsInvariant : Obligations.StepKeepsInvariant := by
  intro s t h ht
  have hrest (rest : List Input) : State.Inv { s with inputs := rest } := h.congr h.buffer rfl rfl rfl rfl
  cases hin : s.inputs with
  | nil => exact blockTurn_inv h (step_of_nil hin ▸ ht)
  | cons x rest =>
    cases x with
    | hostRead off bits =>
      rw [step_of_hostRead hin] at ht
      rcases hostRead_cases off bits { s with inputs := rest } with ⟨r, -, he⟩ | ⟨e, -, he⟩ <;> cases he.symm.trans ht
      exact readReg_inv (hrest rest) r
    | hostWrite off bits v =>
      rw [step_of_hostWrite hin] at ht
      rcases hostWrite_cases off bits v { s with inputs := rest } with ⟨r, -, he⟩ | ⟨e, -, he⟩ <;>
        cases he.symm.trans ht
      exact writeReg_inv (hrest rest) r v
    | bufWrite a b =>
      rw [step_of_bufWrite hin] at ht
      exact bufWrite_inv (hrest rest) ht
    | block => exact blockTurn_inv (hrest rest) (step_of_block hin ▸ ht)
    | reset =>
      cases (step_of_reset hin).symm.trans ht
      exact resetEvent_inv h.buffer
    | resetWithAccess => cases (step_of_resetWithAccess hin).symm.trans ht

end Sys2Proof.Machine
end

section
/-! SUPPORT. Single steps: the turn of the block (20_memory.md R58; 60_exceptions.md R188), the steps that stop (R48, R53;
U3, U5, U10), and what becomes of a broken launch premise (70_reset_and_hazards.md R201). -/

namespace Sys2Proof.Machine

/-! ## The turn of the block -/

/-- The block has the turn when it is the oldest input, and when no input is left (log 1). -/
theorem step_of_turn {s : State} {rest : List Input} (h : s.inputs = .block :: rest ∨ (s.inputs = [] ∧ rest = [])) :
    step s = blockTurn { s with inputs := rest } := by
  rcases h with h | ⟨h, rfl⟩
  · exact step_of_block h
  · rw [step_of_nil h, ← h]

theorem blockTurn_of_busy {s : State} (hb : s.status.busy = true) : blockTurn s = blockStep s := if_pos hb

theorem blockTurn_of_idle {s : State} (hb : s.status.busy = false) : blockTurn s = .next s := by
  rw [blockTurn, hb]
  rfl

theorem blockStep_of_command {s : State} {i : Instr} (h : latched s = some i) : blockStep s = exec i s := by
  rw [blockStep, h]

theorem blockStep_of_illegal {s : State} (h : latched s = none) : blockStep s = .next (completeIllegal s) := by
  rw [blockStep, h]

theorem latched_of_bad {s : State} (h : s.bad = true) : latched s = none := if_pos h

/-- What acceptance latches of a command's word is that command. -/
theorem latched_accept (i : Instr) (s : State) : latched (accept (encode i) s) = some i :=
  latched_of_op (badWord_encode i) (eq_encode_iff.1 rfl).2

/-- A turn of a busy block completes its command, whatever it is (20_memory.md R58). -/
theorem blockStep_completes (s : State) :
    ∃ t, blockStep s = .next t ∧ t.status.busy = false ∧ t.status.done = true := by
  cases hl : latched s with
  | none => exact ⟨_, blockStep_of_illegal hl, rfl, rfl⟩
  | some i =>
    obtain ⟨t, ht, hbusy, hdone, -⟩ := everyCommandCompletes i s
    exact ⟨t, (blockStep_of_command hl).trans ht, hbusy, hdone⟩

theorem blockTurn_eq_next (s : State) : ∃ t, blockTurn s = .next t := by
  cases hb : s.status.busy with
  | true =>
    obtain ⟨t, ht, -⟩ := blockStep_completes s
    exact ⟨t, (blockTurn_of_busy hb).trans ht⟩
  | false => exact ⟨s, blockTurn_of_idle hb⟩

/-- Settles O40. -/
theorem illegalWordCompletesWithIllegalCmd : Obligations.IllegalWordCompletesWithIllegalCmd := by
  intro s rest hb hbad hturn
  rw [step_of_turn hturn, blockTurn_of_busy (s := { s with inputs := rest }) hb,
    blockStep_of_illegal (s := { s with inputs := rest }) (latched_of_bad hbad)]
  rfl

/-- Settles O41. -/
theorem stepRunsLatchedCommand : Obligations.StepRunsLatchedCommand := by
  intro s i hb hbad hop
  have hlatched : latched s = some i := latched_of_op hbad (hop.trans (eq_encode_iff.1 rfl).2)
  refine ⟨fun hin => ?_, fun rest hin => ?_⟩
  · rw [step_of_nil hin, blockTurn_of_busy hb, blockStep_of_command hlatched]
  · rw [step_of_block hin, blockTurn_of_busy (s := { s with inputs := rest }) hb,
      blockStep_of_command (s := { s with inputs := rest }) hlatched]

/-- Settles O42. -/
theorem idleBlockHoldsItsState : Obligations.IdleBlockHoldsItsState := fun s hb =>
  ⟨fun hin => (step_of_nil hin).trans (blockTurn_of_idle hb),
    fun rest hin => (step_of_block hin).trans (blockTurn_of_idle (s := { s with inputs := rest }) hb)⟩

/-- The CMD write of a command while idle is its acceptance (20_memory.md R57). -/
theorem step_issue {s : State} {i : Instr} {rest : List Input} (hidle : LP_IDLE_AT_ISSUE s)
    (hin : s.inputs = .hostWrite 0x00 32 (encode i) :: rest) :
    step s = .next (accept (encode i) { s with inputs := rest }) := step_write_idle (r := .cmd) hin hidle

/-- Settles O43: acceptance, then the turn on what it latched; the accepted state still has the turn in its inputs. -/
theorem commandRunsFromItsCmdWrite : Obligations.CommandRunsFromItsCmdWrite := by
  intro s i rest hidle hin
  obtain ⟨t, ht, hbusy, hdone, -⟩ := everyCommandCompletes i (accept (encode i) { s with inputs := rest })
  obtain ⟨st, res, hframe⟩ := exec_eq_next i (accept (encode i) { s with inputs := rest })
  have hturn : step (accept (encode i) { s with inputs := .block :: rest }) = .next t := by
    rw [step_of_block rfl, blockTurn_of_busy rfl]
    exact (blockStep_of_command (latched_accept i _)).trans ht
  refine ⟨t, ?_, ht, hbusy, hdone, ?_⟩
  · rw [run_succ (step_issue hidle hin), run_succ hturn, run_zero]
  · cases ht.symm.trans hframe
    rfl

/-! ## The steps that stop -/

theorem accessWellFormed_iff (off bits : Nat) :
    accessWellFormed off bits = true ↔ bits = 32 ∧ off % 4 = 0 ∧ off < 0x40 := by
  rw [accessWellFormed, Bool.and_eq_true, Bool.and_eq_true, beq_iff_eq, beq_iff_eq, decide_eq_true_eq, and_assoc]

theorem accessReg_of_malformed {off bits : Nat} (h : accessWellFormed off bits = false) :
    ∃ e, accessReg off bits = .error e :=
  accessReg_of_not_window fun hform => Bool.eq_false_iff.1 h ((accessWellFormed_iff off bits).2 hform)

theorem not_isNext_of_refused {o : Host.Outcome State Fault Refusal} {e : Refusal} (h : o = .refused e) :
    ¬∃ t, o = .next t := by
  rintro ⟨t, ht⟩
  cases h.symm.trans ht

theorem hostRead_isNext_iff (off bits : Nat) (s : State) :
    (∃ t, hostRead off bits s = .next t) ↔ accessWellFormed off bits = true := by
  cases hform : accessWellFormed off bits with
  | true =>
    obtain ⟨r, hr⟩ := accessReg_of_wellFormed hform
    exact iff_of_true ⟨_, hostRead_of_ok hr s⟩ rfl
  | false =>
    obtain ⟨e, he⟩ := accessReg_of_malformed hform
    exact iff_of_false (not_isNext_of_refused (hostRead_of_error he s)) Bool.false_ne_true

theorem hostWrite_isNext_iff (off bits : Nat) (v : Word) (s : State) :
    (∃ t, hostWrite off bits v s = .next t) ↔ accessWellFormed off bits = true := by
  cases hform : accessWellFormed off bits with
  | true =>
    obtain ⟨r, hr⟩ := accessReg_of_wellFormed hform
    exact iff_of_true ⟨_, hostWrite_of_ok hr v s⟩ rfl
  | false =>
    obtain ⟨e, he⟩ := accessReg_of_malformed hform
    exact iff_of_false (not_isNext_of_refused (hostWrite_of_error he v s)) Bool.false_ne_true

/-- A buffer write below BUF_LEN while busy is refused (20_memory.md R53; U3). -/
theorem bufWrite_of_unstable {a : Nat} {s : State} (hb : s.status.busy = true) (ha : a < s.len) (b : Byte) :
    bufWrite a b s = .refused (.bufferWriteWhileBusy a) := by
  have hlen := s.len_lt
  have hspace : a < bufSpace := Nat.lt_trans ha hlen
  rw [bufWrite, if_pos hspace, if_pos (by simp [hb, ha])]

theorem bufWrite_isNext_iff (a : Nat) (b : Byte) (s : State) :
    (∃ t, bufWrite a b s = .next t) ↔ a < 2 ^ 31 ∧ ¬(s.status.busy = true ∧ a < s.len) := by
  by_cases ha : a < bufSpace
  · by_cases hunstable : s.status.busy = true ∧ a < s.len
    · exact iff_of_false (not_isNext_of_refused (bufWrite_of_unstable hunstable.1 hunstable.2 b)) fun h => h.2 hunstable
    · have hallowed : s.status.busy = false ∨ s.len ≤ a := by
        rwa [not_and_or, Bool.not_eq_true, Nat.not_lt] at hunstable
      exact iff_of_true ⟨_, bufWrite_of_allowed ha hallowed b⟩ ⟨ha, hunstable⟩
  · rw [bufWrite, if_neg ha]
    exact iff_of_false (by rintro ⟨t, ht⟩; cases ht) fun h => ha h.1

/-- Settles O44, input by input. -/
theorem stepAnswersNextExactlyOnSafeSteps : Obligations.StepAnswersNextExactlyOnSafeSteps := by
  intro s
  rw [State.safeStep]
  cases hin : s.inputs with
  | nil => exact iff_of_true (step_of_nil hin ▸ blockTurn_eq_next s) rfl
  | cons x rest =>
    cases x with
    | hostRead off bits => rw [step_of_hostRead hin]; exact hostRead_isNext_iff off bits _
    | hostWrite off bits v => rw [step_of_hostWrite hin]; exact hostWrite_isNext_iff off bits v _
    | bufWrite a b =>
      have hstable : (!(s.status.busy && decide (a < s.len))) = true ↔ ¬(s.status.busy = true ∧ a < s.len) := by
        rw [Bool.not_eq_true', ← Bool.not_eq_true, Bool.and_eq_true, decide_eq_true_eq]
      rw [step_of_bufWrite hin, bufWrite_isNext_iff, Bool.and_eq_true, hstable]
      exact and_congr_left' decide_eq_true_iff.symm
    | block => exact iff_of_true (step_of_block hin ▸ blockTurn_eq_next _) rfl
    | reset => exact iff_of_true ⟨_, step_of_reset hin⟩ rfl
    | resetWithAccess =>
      exact iff_of_false (not_isNext_of_refused (step_of_resetWithAccess hin)) Bool.false_ne_true

/-! ## Broken launch premises -/

/-- An input that is no word access is a malformed one. -/
theorem malformed_of_not_wordAccess {x : Input} (h : ¬LP_WORD_ACCESS [x]) :
    ∃ off bits, accessWellFormed off bits = false ∧ (x = .hostRead off bits ∨ ∃ v, x = .hostWrite off bits v) := by
  cases x <;> simp_all [LP_WORD_ACCESS]

theorem bufWrite_of_not_stable {len : Nat} {x : Input} (h : ¬LP_BUFFER_STABLE len [x]) :
    ∃ a b, x = .bufWrite a b ∧ a < len := by
  simpa [LP_BUFFER_STABLE, and_comm, eq_comm] using h

/-- Settles O54: each broken premise is one of the refused steps, or a write while busy. -/
theorem brokenLaunchPremisesAreIgnoredOrRefused : Obligations.BrokenLaunchPremisesAreIgnoredOrRefused := by
  intro s x rest hin
  refine ⟨fun w hx hbusy => ?_, fun hword => ?_, fun hb hstable => ?_⟩
  · subst hx
    exact step_write_busy (r := .cmd) hin (Bool.eq_true_of_not_eq_false hbusy)
  · obtain ⟨off, bits, hform, rfl | ⟨v, rfl⟩⟩ := malformed_of_not_wordAccess hword <;>
      obtain ⟨e, he⟩ := accessReg_of_malformed hform
    · exact ⟨e, (step_of_hostRead hin).trans (hostRead_of_error he _)⟩
    · exact ⟨e, (step_of_hostWrite hin).trans (hostWrite_of_error he v _)⟩
  · obtain ⟨a, b, rfl, ha⟩ := bufWrite_of_not_stable hstable
    exact ⟨a, ha, (step_of_bufWrite hin).trans (bufWrite_of_unstable (s := { s with inputs := rest }) hb ha b)⟩

end Sys2Proof.Machine
end

section
/-! SUPPORT. Whole runs under the launch premises (70_reset_and_hazards.md section 2): accesses that arrive while busy leave
what a command reads, so the block's turn, wherever it stands, completes the command as at once. -/

namespace Sys2Proof.Machine

/-! ## What the host can change while busy -/

/-- `t` differs from `s` in what harmless inputs change while busy: the inputs, the answers, the draws, HAZ, and bytes at
or above BUF_LEN of a canonical buffer (20_memory.md R59). -/
structure HostOnly (s t : State) : Prop where
  status : t.status = { s.status with haz := t.status.haz }
  res : t.res = s.res
  ctrl : t.ctrl = s.ctrl
  bufLen : t.bufLen = s.bufLen
  hdrIn : t.hdrIn = s.hdrIn
  fsIn : t.fsIn = s.fsIn
  op : t.op = s.op
  bad : t.bad = s.bad
  buffer : s.buffer.wf = true → t.buffer.wf = true ∧ ∀ a, a < s.len → t.buffer.read a = s.buffer.read a

section hostOnly
variable {s t u : State}

theorem HostOnly.refl (s : State) (inputs : List Input) : HostOnly s { s with inputs := inputs } :=
  ⟨rfl, rfl, rfl, rfl, rfl, rfl, rfl, rfl, fun h => ⟨h, fun _ _ => rfl⟩⟩

theorem HostOnly.len_eq (h : HostOnly s t) : t.len = s.len := congrArg BitVec.toNat h.bufLen

theorem HostOnly.busy_eq (h : HostOnly s t) : t.status.busy = s.status.busy := by rw [h.status]

theorem HostOnly.trans (hst : HostOnly s t) (htu : HostOnly t u) : HostOnly s u where
  status := by
    rw [htu.status, hst.status]
  res := htu.res.trans hst.res
  ctrl := htu.ctrl.trans hst.ctrl
  bufLen := htu.bufLen.trans hst.bufLen
  hdrIn := htu.hdrIn.trans hst.hdrIn
  fsIn := htu.fsIn.trans hst.fsIn
  op := htu.op.trans hst.op
  bad := htu.bad.trans hst.bad
  buffer := fun hwf => by
    obtain ⟨hwft, hbelow⟩ := hst.buffer hwf
    obtain ⟨hwfu, hbelow'⟩ := htu.buffer hwft
    exact ⟨hwfu, fun a ha => (hbelow' a (hst.len_eq ▸ ha)).trans (hbelow a ha)⟩

theorem HostOnly.latched_eq (h : HostOnly s t) : latched t = latched s := by
  rw [latched, latched, h.bad, h.op]

theorem HostOnly.eq_withResults (h : HostOnly s t) : t = t.withResults s :=
  Machine.eq_withResults h.res h.status

theorem HostOnly.given (h : HostOnly s t) (hwf : s.buffer.wf = true) : LP_BUFFER_GIVEN s t :=
  ⟨h.bufLen.symm, fun a ha => ((h.buffer hwf).2 a ha).symm⟩

theorem HostOnly.sameOperands (h : HostOnly s t) (hwf : s.buffer.wf = true) (i : Instr) : sameOperands i s t := by
  have hgiven := h.given hwf
  have hmode : s.ctrl.syncMode = t.ctrl.syncMode := congrArg Ctrl.syncMode h.ctrl.symm
  cases i with
  | decode => exact h.hdrIn.symm
  | fsize => exact h.fsIn.symm
  | seek => exact ⟨hgiven, hmode⟩
  | walk => exact ⟨hgiven, hmode⟩
  | stored => exact hgiven
  | auto => exact ⟨hgiven, h.ctrl.symm⟩

/-- The command completes after the accesses as it would have before them. -/
theorem HostOnly.blockStep (h : HostOnly s t) (hwf : s.buffer.wf = true) (hu : blockStep s = .next u) :
    blockStep t = .next (t.withResults u) := by
  cases hl : latched s with
  | none =>
    cases (blockStep_of_illegal hl).symm.trans hu
    rw [blockStep_of_illegal (h.latched_eq.trans hl)]
    conv_lhs => rw [h.eq_withResults]
    rfl
  | some i =>
    rw [blockStep_of_command hl] at hu
    rw [blockStep_of_command (h.latched_eq.trans hl)]
    conv_lhs => rw [h.eq_withResults]
    exact exec_withResults (h.sameOperands hwf i) hu

end hostOnly

/-! ## Runs of harmless inputs -/

/-- One harmless input while busy (20_memory.md R59). -/
theorem step_hostOnly {s : State} {x : Input} {rest : List Input} (hin : s.inputs = x :: rest)
    (hb : s.status.busy = true) (hx : x.harmless s.len = true) :
    ∃ t, step s = .next t ∧ t.inputs = rest ∧ HostOnly s t ∧
      (t.status.haz = true ↔ s.status.haz = true ∨ ∃ off bits v, x = .hostWrite off bits v) := by
  obtain ⟨haz, buffer, reads, draws, hstep, hhaz, hbuffer⟩ := step_of_harmless hin hb hx
  exact ⟨_, hstep, rfl, ⟨rfl, rfl, rfl, rfl, rfl, rfl, rfl, rfl, hbuffer⟩, hhaz⟩

/-- Any number of them: HAZ tells whether one was a write. -/
theorem run_hostOnly {s : State} {ins rest : List Input} (hin : s.inputs = ins ++ rest) (hb : s.status.busy = true)
    (hins : ∀ x ∈ ins, x.harmless s.len = true) :
    ∃ t, Host.Core.run core ins.length s = .next t ∧ t.inputs = rest ∧ HostOnly s t ∧
      (t.status.haz = true ↔ s.status.haz = true ∨ ∃ off bits v, .hostWrite off bits v ∈ ins) := by
  induction ins generalizing s with
  | nil =>
    have hrest : s = { s with inputs := rest } := by
      rw [List.nil_append] at hin
      rw [← hin]
    exact ⟨s, run_zero s, hin, hrest ▸ HostOnly.refl s rest, by simp⟩
  | cons x ins ih =>
    obtain ⟨hx, hins⟩ := List.forall_mem_cons.1 hins
    obtain ⟨u, hstep, hinu, hu, hhazu⟩ := step_hostOnly hin hb hx
    obtain ⟨t, hrun, hint, ht, hhazt⟩ := ih hinu (hu.busy_eq.trans hb) (hu.len_eq.symm ▸ hins)
    refine ⟨t, (run_succ hstep _).trans hrun, hint, hu.trans ht, ?_⟩
    rw [hhazt, hhazu, or_assoc]
    simp only [List.mem_cons, exists_or, eq_comm (a := x)]

/-- The block stays busy through them. -/
theorem run_busy {s : State} {ins rest : List Input} (hin : s.inputs = ins ++ rest) (hb : s.status.busy = true)
    (hins : ∀ x ∈ ins, x.harmless s.len = true) {k : Nat} (hk : k ≤ ins.length) :
    ∃ t, Host.Core.run core k s = .next t ∧ t.status.busy = true := by
  have hsplit : s.inputs = ins.take k ++ (ins.drop k ++ rest) := by
    rw [← List.append_assoc, List.take_append_drop, hin]
  obtain ⟨t, hrun, -, ht, -⟩ := run_hostOnly hsplit hb fun x hx => hins x (List.mem_of_mem_take hx)
  rw [List.length_take_of_le hk] at hrun
  exact ⟨t, hrun, ht.busy_eq.trans hb⟩

/-- And then the block's turn: the completion `u` of the command at once, in the registers as the host left them. -/
theorem run_to_completion {s u : State} {ins rest : List Input} (hu : blockStep s = .next u)
    (hwf : s.buffer.wf = true) (hin : s.inputs = ins ++ .block :: rest) (hb : s.status.busy = true)
    (hins : ∀ x ∈ ins, x.harmless s.len = true) :
    ∃ t, Host.Core.run core (ins.length + 1) s = .next (t.withResults u) ∧ t.inputs = rest ∧ HostOnly s t ∧
      (t.status.haz = true ↔ s.status.haz = true ∨ ∃ off bits v, .hostWrite off bits v ∈ ins) := by
  obtain ⟨t, hrun, hint, ht, hhaz⟩ := run_hostOnly hin hb hins
  have ht' : HostOnly s { t with inputs := rest } := ht.trans (HostOnly.refl t rest)
  refine ⟨{ t with inputs := rest }, ?_, rfl, ht', hhaz⟩
  have hturn : step t = .next (State.withResults { t with inputs := rest } u) := by
    rw [step_of_block hint, blockTurn_of_busy (ht'.busy_eq.trans hb)]
    exact ht'.blockStep hwf hu
  rw [run_add hrun, run_succ hturn, run_zero]

/-- Settles O48. -/
theorem busyAccessesDoNotDisturbCommand : Obligations.BusyAccessesDoNotDisturbCommand := by
  intro s u ins rest hwf hb hin hblock hword hstable hundisturbed hu
  have hins := (harmless_iff s.len ins).2 ⟨hblock, hword, hstable, hundisturbed⟩
  obtain ⟨t, hrun, hint, ht, hhaz⟩ := run_to_completion hu hwf hin hb hins
  exact ⟨_, hrun, hint, rfl, rfl, hhaz, ht.ctrl, ht.bufLen, ht.hdrIn, ht.fsIn, (ht.buffer hwf).2⟩

/-! ## Completion under fairness -/

/-- The premises hold of fewer inputs. -/
theorem harmless_of_subset {len : Nat} {ins some : List Input} (hword : LP_WORD_ACCESS ins)
    (hstable : LP_BUFFER_STABLE len ins) (hundisturbed : Undisturbed ins) (hsub : some ⊆ ins)
    (hblock : Input.block ∉ some) : ∀ x ∈ some, x.harmless len = true := by
  obtain ⟨hreset, haccess, hspace⟩ := hundisturbed
  refine (harmless_iff len some).2 ⟨hblock, fun off bits h => ?_, fun a b h => hstable a b (hsub h),
    fun h => hreset (hsub h), fun h => haccess (hsub h), fun a b h => hspace a b (hsub h)⟩
  exact hword off bits (h.imp (fun h => hsub h) fun ⟨v, hv⟩ => ⟨v, hsub hv⟩)

/-- A busy block completes after harmless inputs, when it has the turn next or no input is left (20_memory.md R58). -/
theorem run_completes {s : State} {ins rest : List Input} (hb : s.status.busy = true) (hin : s.inputs = ins ++ rest)
    (hins : ∀ x ∈ ins, x.harmless s.len = true) (hturn : (∃ later, rest = .block :: later) ∨ rest = []) :
    ∃ t, Host.Core.run core (ins.length + 1) s = .next t ∧ t.status.busy = false ∧ t.status.done = true := by
  obtain ⟨u, hrun, hinu, hu, -⟩ := run_hostOnly hin hb hins
  obtain ⟨later, hlater⟩ : ∃ later, u.inputs = .block :: later ∨ (u.inputs = [] ∧ later = []) := by
    rcases hturn with ⟨later, rfl⟩ | rfl
    · exact ⟨later, .inl hinu⟩
    · exact ⟨[], .inr ⟨hinu, rfl⟩⟩
  obtain ⟨t, ht, hbusy, hdone⟩ := blockStep_completes { u with inputs := later }
  have hstep : step u = .next t := by
    rw [step_of_turn hlater, blockTurn_of_busy (s := { u with inputs := later }) (hu.busy_eq.trans hb), ht]
  exact ⟨t, by rw [run_add hrun, run_succ hstep, run_zero], hbusy, hdone⟩

/-- Settles O49: the block's first turn is among the inputs, or comes when they are used up. -/
theorem busyBlockCompletes : Obligations.BusyBlockCompletes := by
  intro s ins rest hb hin hword hstable hundisturbed hturn
  by_cases hfair : LP_FAIR_COMPLETION ins
  · obtain ⟨before, after, rfl, hbefore⟩ := List.eq_append_cons_of_mem hfair
    have hins := harmless_of_subset hword hstable hundisturbed (List.subset_append_left _ _) hbefore
    obtain ⟨t, hrun, hbusy, hdone⟩ := run_completes hb (hin.trans (List.append_assoc ..)) hins (.inl ⟨_, rfl⟩)
    have hle : before.length + 1 ≤ (before ++ .block :: after).length := by
      rw [List.length_append, List.length_cons]
      omega
    exact ⟨_, t, Nat.le_succ_of_le hle, fun _ => hle, hrun, hbusy, hdone⟩
  · have hins := harmless_of_subset hword hstable hundisturbed (List.Subset.refl ins) hfair
    obtain ⟨t, hrun, hbusy, hdone⟩ := run_completes hb hin hins (.inr (hturn.resolve_left hfair))
    exact ⟨_, t, Nat.le_refl _, fun h => absurd h hfair, hrun, hbusy, hdone⟩

/-! ## Launched commands -/

theorem sameOperands.refl (i : Instr) (s : State) : sameOperands i s s := by
  cases i <;> simp [sameOperands, LP_BUFFER_GIVEN]

theorem sameOperands.trans {i : Instr} {s t u : State} (hst : sameOperands i s t) (htu : sameOperands i t u) :
    sameOperands i s u := by
  have hgiven (hst : LP_BUFFER_GIVEN s t) (htu : LP_BUFFER_GIVEN t u) : LP_BUFFER_GIVEN s u :=
    ⟨hst.1.trans htu.1, fun a ha => (hst.2 a ha).trans (htu.2 a (hst.len_eq ▸ ha))⟩
  cases i with
  | decode => exact Eq.trans hst htu
  | fsize => exact Eq.trans hst htu
  | seek => exact ⟨hgiven hst.1 htu.1, hst.2.trans htu.2⟩
  | walk => exact ⟨hgiven hst.1 htu.1, hst.2.trans htu.2⟩
  | stored => exact hgiven hst htu
  | auto => exact ⟨hgiven hst.1 htu.1, hst.2.trans htu.2⟩

/-- Acceptance clears the results of every state alike, and leaves the operands (20_memory.md R57). -/
theorem exec_accept_withResults {i : Instr} {s t u : State} (h : sameOperands i s t)
    (hu : exec i (accept (encode i) s) = .next u) :
    exec i (accept (encode i) t) = .next ((accept (encode i) t).withResults u) := by
  have hsame : sameOperands i (accept (encode i) s) (accept (encode i) t) := by cases i <;> exact h
  have he := exec_withResults hsame hu
  rwa [← eq_withResults (u := accept (encode i) t) (s := accept (encode i) s) rfl rfl] at he

theorem exec_completes {i : Instr} {s t : State} (h : exec i s = .next t) :
    t.status.busy = false ∧ t.status.done = true := by
  obtain ⟨u, hu, hbusy, hdone, -⟩ := everyCommandCompletes i s
  cases hu.symm.trans h
  exact ⟨hbusy, hdone⟩

/-- A launched command's run ends with the results that its meaning gives in any state with the same operands. -/
theorem Launch.runEnds {i : Instr} {s r u : State} {ins rest : List Input} (h : Launch i s ins rest)
    (hsame : sameOperands i r s) (hu : exec i (accept (encode i) r) = .next u) :
    ∃ s', RunEnds s s' ∧ s'.status.done = true ∧ s'.res = u.res ∧
      { s'.status with haz := false } = { u.status with haz := false } := by
  obtain ⟨before, after, rfl, hbefore⟩ := List.eq_append_cons_of_mem h.fair
  have hins := harmless_of_subset h.word h.stable h.undisturbed (List.subset_append_left _ _) hbefore
  have hissue := h.issue
  rw [List.append_assoc, List.cons_append] at hissue
  have hstep := step_issue h.idle hissue
  have hsame' : sameOperands i r { s with inputs := before ++ .block :: (after ++ rest) } := by cases i <;> exact hsame
  have hturn := (blockStep_of_command (latched_accept i _)).trans (exec_accept_withResults hsame' hu)
  obtain ⟨t, hrun, -⟩ := run_to_completion hturn h.canonical rfl rfl hins
  obtain ⟨hbusy, hdone⟩ := exec_completes hu
  refine ⟨_, ⟨before.length + 1, (run_succ hstep _).trans hrun, hbusy, fun k hk => ?_⟩, hdone, rfl, rfl⟩
  obtain ⟨v, hv, hvbusy⟩ := run_busy (s := accept (encode i) { s with inputs := before ++ .block :: (after ++ rest) })
    rfl rfl hins (Nat.le_of_lt_succ hk)
  exact ⟨v, (run_succ hstep k).trans hv, hvbusy⟩

/-- Settles O55: both runs end with what the command gives from the first launch's operands. -/
theorem launchedRunsEndWithTheCommandsResults : Obligations.LaunchedRunsEndWithTheCommandsResults := by
  intro i s t insS restS insT restT hs ht hsame
  obtain ⟨u, hu, -⟩ := everyCommandCompletes i (accept (encode i) s)
  obtain ⟨s', hsEnds, hsDone, hsRes, hsStatus⟩ := hs.runEnds (sameOperands.refl i s) hu
  obtain ⟨t', htEnds, htDone, htRes, htStatus⟩ := ht.runEnds hsame hu
  exact ⟨s', t', u, hsEnds, htEnds, hu, hsDone, htDone, hsRes, htRes, hsStatus, htStatus⟩

end Sys2Proof.Machine
end

section
/-! SUPPORT. The finer steps of a command (43_scan_walk.md section 6, rule R154), taken alone: the search and the walk one
step at a time end in the state of the command's meaning, within a number of steps linear in BUF_LEN. -/

namespace Sys2Proof.Machine

/-! ## Reaching the end -/

/-- From `x` the finer steps of `i` end in `t`, after at least one and within `n` of them, and until then BUSY is `b` and
the end is not reached. -/
def EndsWithin (i : Instr) (b : Bool) (n : Nat) (x : State × Fine) (t : State) : Prop :=
  ∃ m, 0 < m ∧ m ≤ n ∧ fineRun i m x = (t, .done) ∧
    ∀ k, k < m → (fineRun i k x).2 ≠ .done ∧ (fineRun i k x).1.status.busy = b

section endsWithin
variable {i : Instr} {b : Bool} {n : Nat} {s t : State}

theorem EndsWithin.mono {n' : Nat} {x : State × Fine} (h : EndsWithin i b n x t) (hn : n ≤ n') : EndsWithin i b n' x t := by
  obtain ⟨m, hpos, hm, hrun, hbefore⟩ := h
  exact ⟨m, hpos, Nat.le_trans hm hn, hrun, hbefore⟩

/-- One step, and then the rest. -/
theorem EndsWithin.step {f : Fine} {y : State × Fine} (hstep : fineStep i s f = y) (hf : f ≠ .done)
    (hb : s.status.busy = b) (h : EndsWithin i b n y t) : EndsWithin i b (n + 1) (s, f) t := by
  obtain ⟨m, -, hm, hrun, hbefore⟩ := h
  subst hstep
  refine ⟨m + 1, Nat.succ_pos m, Nat.succ_le_succ hm, hrun, fun k hk => ?_⟩
  cases k with
  | zero => exact ⟨hf, hb⟩
  | succ k => exact hbefore k (Nat.lt_of_succ_lt_succ hk)

/-- A step that is the last one. -/
theorem EndsWithin.last {f : Fine} (hstep : fineStep i s f = (t, .done)) (hf : f ≠ .done) (hb : s.status.busy = b) :
    EndsWithin i b 1 (s, f) t := by
  refine ⟨1, Nat.one_pos, Nat.le_refl 1, hstep, fun k hk => ?_⟩
  rw [Nat.lt_one_iff.1 hk]
  exact ⟨hf, hb⟩

/-- The final step (43_scan_walk.md R154). -/
theorem endsWithin_last (s : State) (hb : s.status.busy = b) {code : ResultCode} {source : CountSource}
    (ht : complete (finish code (source.write s)) = t) : EndsWithin i b 1 (s, .last code source) t :=
  .last (by rw [fineStep, ht]) nofun hb

/-! ## The walk -/

/-- The walk from the pair it has written, to the end the unbounded walk has. -/
theorem endsWithin_walk {c k : Nat} {e : WalkEnd} (hb : s.status.busy = b) (hrun : WalkRun s.buffer s.len c k e)
    (hn : e.headers - k + 2 ≤ n) :
    EndsWithin i b n (writePair c k s, .walk c k)
      (complete (finish .ok (writeCount (BitVec.ofNat 32 (frameCount e.headers)) (writeWalkEnd e s)))) := by
  have hstop {c k : Nat} {cause : StopCause} (h : walkStep s.buffer s.len c = .stop cause) :
      EndsWithin i b 2 (writePair c k s, .walk c k)
        (complete (finish .ok (writeCount (BitVec.ofNat 32 (frameCount k)) (writeWalkEnd ⟨c, k, cause⟩ s)))) := by
    have hstep : fineStep i (writePair c k s) (.walk c k) =
        (writeStop cause (writePair c k s), .last .ok (.headers k)) := by
      have h' : walkStep (writePair c k s).buffer (writePair c k s).len c = .stop cause := h
      rw [fineStep, h']
    exact .step hstep nofun hb (endsWithin_last (writeStop cause (writePair c k s)) hb rfl)
  refine EndsWithin.mono ?_ hn
  induction hrun with
  | incomplete c k hlen => exact (hstop (walkStep_of_incomplete hlen)).mono (by omega)
  | invalid c k hlen hd => exact (hstop (walkStep_of_invalid hlen hd)).mono (by omega)
  | degenerate c k hdr hlen hd hsize =>
    have hpos := Header.size_pos hd
    omega
  | advance c k hdr e hlen hd hpos hrest ih =>
    obtain ⟨hheaders, -, -⟩ := hrest.cursor_bounds
    have h' : walkStep (writePair c k s).buffer (writePair c k s).len c = .advance hdr.size :=
      walkStep_eq_advance hlen hd
    have hstep : fineStep i (writePair c k s) (.walk c k) =
        (writePair (c + hdr.size) (k + 1) s, .walk (c + hdr.size) (k + 1)) := by
      rw [fineStep, h']
      rfl
    exact (EndsWithin.step hstep nofun hb (ih (by omega))).mono (by omega)

/-! ## The search for a candidate -/

theorem fineStep_sync_of_miss {j : Nat} (h : isSync s.ctrl.syncMode s.buffer j = false) :
    fineStep i s (.sync j) = syncFrom i (j + 1) s := by
  rw [fineStep, if_neg (by simp [h])]

theorem fineStep_sync_of_seek {j : Nat} (hj : j + 1 < s.len) (h : isSync s.ctrl.syncMode s.buffer j = true) :
    fineStep .seek s (.sync j) = (writeCursor j (writeSync j s), .last .ok .none) := by
  rw [fineStep, if_pos (by simp [hj, h]), if_pos rfl]

theorem fineStep_sync_of_walk {j : Nat} (hi : i ≠ .seek) (hj : j + 1 < s.len)
    (h : isSync s.ctrl.syncMode s.buffer j = true) :
    fineStep i s (.sync j) = (writePair j 0 (writeSync j s), .walk j 0) := by
  rw [fineStep, if_pos (by simp [hj, h]), if_neg hi]

/-- The search offset by offset reaches what seek() answers. -/
theorem endsWithin_sync (hb : s.status.busy = b)
    (hfound : ∀ p, seek s.ctrl.syncMode s.buffer s.len = some p → EndsWithin i b n (s, .sync p) t)
    (hnone : seek s.ctrl.syncMode s.buffer s.len = none → ∀ p, s.len ≤ p + 1 → EndsWithin i b n (syncFrom i p s) t)
    {r j : Nat} (hr : s.len - 1 - j = r)
    (hj : seek s.ctrl.syncMode s.buffer s.len = firstOffset (isSync s.ctrl.syncMode s.buffer) r j) :
    EndsWithin i b (r + n) (syncFrom i j s) t := by
  induction r generalizing j with
  | zero => exact (hnone hj j (by omega)).mono (by omega)
  | succ r ih =>
    have hexamined : syncFrom i j s = (s, .sync j) := if_pos (by omega)
    rw [hexamined]
    rw [firstOffset] at hj
    cases hsync : isSync s.ctrl.syncMode s.buffer j with
    | true =>
      rw [hsync] at hj
      exact (hfound j hj).mono (by omega)
    | false =>
      rw [hsync] at hj
      exact (EndsWithin.step (fineStep_sync_of_miss hsync) nofun hb (ih (by omega) hj)).mono (by omega)

theorem endsWithin_seek (hb : s.status.busy = b) (ht : exec .seek s = .next t) :
    EndsWithin .seek b (s.len + 2) (syncFrom .seek 0 s) t := by
  refine (endsWithin_sync hb (n := 2) (fun p hp => ?_) (fun hnone p hp => ?_) rfl rfl).mono (by omega)
  · cases (execSeek_of_some hp).symm.trans ht
    obtain ⟨hlt, hsync⟩ := (isSync_iff s p).2 (seek_eq_some.1 hp).1
    exact .step (fineStep_sync_of_seek hlt hsync) nofun hb (endsWithin_last (writeCursor p (writeSync p s)) hb rfl)
  · cases (execSeek_of_none hnone).symm.trans ht
    have hlast : syncFrom .seek p s = (s, .last .noSync .none) := by
      rw [syncFrom, if_neg (by omega), if_pos rfl]
    rw [hlast]
    exact (endsWithin_last s hb rfl).mono (by decide)

/-- Every header is at most one offset of the buffer. -/
theorem WalkRun.headers_le_len {m : Memory} {len c : Nat} {e : WalkEnd} (h : WalkRun m len c 0 e) : e.headers ≤ len := by
  rcases h.last_header with ⟨hheaders, -⟩ | ⟨last, hlast, hgap, -, -, -⟩ <;> omega

theorem endsWithin_searchWalk (hi : i ≠ .seek) (hb : s.status.busy = b) (ht : exec .walk s = .next t) :
    EndsWithin i b (2 * s.len + 3) (syncFrom i 0 s) t := by
  refine (endsWithin_sync hb (n := s.len + 3) (fun p hp => ?_) (fun hnone p hp => ?_) rfl rfl).mono (by omega)
  · have hrun := walkRun_walk s.buffer s.len (fuel := s.len + 1) (c := p) (by omega) 0
    have hheaders := hrun.headers_le_len
    obtain ⟨hlt, hsync⟩ := (isSync_iff s p).2 (seek_eq_some.1 hp).1
    cases (execWalk_of_some hp hrun).symm.trans ht
    exact .step (fineStep_sync_of_walk hi hlt hsync) nofun hb
      (endsWithin_walk (s := writeSync p s) hb hrun (by omega))
  · cases (execWalk_of_none hnone).symm.trans ht
    have hlast : syncFrom i p s = (s, .last .ok (.headers 0)) := by
      rw [syncFrom, if_neg (by omega), if_neg hi]
    rw [hlast]
    exact (endsWithin_last s hb rfl).mono (by omega)

/-! ## The marker search -/

theorem fineStep_marker_of_hit {k : Marker} {left : List Marker} {p : Nat} (h : occurs s.buffer s.len k p = true) :
    fineStep i s (.marker (k :: left) p) = fineStored i (readRecord s.buffer s.len k p) s := by
  rw [fineStep, if_pos h]

theorem fineStep_marker_of_miss {k : Marker} {left : List Marker} {p : Nat} (h : occurs s.buffer s.len k p = false) :
    fineStep i s (.marker (k :: left) p) =
      if p + 1 + k.bytes.length ≤ s.len then (s, .marker (k :: left) (p + 1)) else markersFrom i s left := by
  rw [fineStep, if_neg (by simp [h])]

/-- The search for one marker offset by offset reaches its record, or goes on to the markers left. -/
theorem endsWithin_marker {k : Marker} {left : List Marker} (hb : s.status.busy = b)
    (hfound : ∀ p, firstMarker s.buffer s.len k = some p →
      EndsWithin i b n (fineStored i (readRecord s.buffer s.len k p) s) t)
    (hnone : firstMarker s.buffer s.len k = none → EndsWithin i b n (markersFrom i s left) t)
    {r p : Nat} (hr : s.len - p - k.bytes.length = r) (hp : p + k.bytes.length ≤ s.len)
    (hfirst : firstMarker s.buffer s.len k = firstOffset (occurs s.buffer s.len k) (r + 1) p) :
    EndsWithin i b (r + 1 + n) (s, .marker (k :: left) p) t := by
  induction r generalizing p with
  | zero =>
    rw [firstOffset] at hfirst
    cases hoccurs : occurs s.buffer s.len k p with
    | true =>
      rw [hoccurs] at hfirst
      exact (EndsWithin.step (fineStep_marker_of_hit hoccurs) nofun hb (hfound p hfirst)).mono (by omega)
    | false =>
      rw [hoccurs] at hfirst
      have hstep := fineStep_marker_of_miss (i := i) (left := left) hoccurs
      rw [if_neg (by omega)] at hstep
      exact (EndsWithin.step hstep nofun hb (hnone hfirst)).mono (by omega)
  | succ r ih =>
    rw [firstOffset] at hfirst
    cases hoccurs : occurs s.buffer s.len k p with
    | true =>
      rw [hoccurs] at hfirst
      exact (EndsWithin.step (fineStep_marker_of_hit hoccurs) nofun hb (hfound p hfirst)).mono (by omega)
    | false =>
      rw [hoccurs] at hfirst
      have hstep := fineStep_marker_of_miss (i := i) (left := left) hoccurs
      rw [if_pos (by omega)] at hstep
      exact (EndsWithin.step hstep nofun hb (ih (by omega) (by omega) hfirst)).mono (by omega)

/-- The search marker by marker reaches the record of what find_marker answers, or gives up. -/
theorem endsWithin_markers {ks : List Marker} (hb : s.status.busy = b)
    (hfound : ∀ k p, findMarkerIn s.buffer s.len ks = some (k, p) →
      EndsWithin i b n (fineStored i (readRecord s.buffer s.len k p) s) t)
    (hnone : findMarkerIn s.buffer s.len ks = none → EndsWithin i b n (fineStored i .notFound s) t) :
    EndsWithin i b (ks.length * s.len + n) (markersFrom i s ks) t := by
  induction ks with
  | nil => exact (hnone rfl).mono (by omega)
  | cons k left ih =>
    have hlength := k.bytes_length_pos
    have hcons : (k :: left).length * s.len = left.length * s.len + s.len := Nat.succ_mul ..
    have hleft (h : firstMarker s.buffer s.len k = none) :
        EndsWithin i b (left.length * s.len + n) (markersFrom i s left) t := by
      rw [findMarkerIn, h] at hfound hnone
      exact ih hfound hnone
    by_cases hroom : k.bytes.length ≤ s.len
    · have hexamined : markersFrom i s (k :: left) = (s, .marker (k :: left) 0) := if_pos hroom
      rw [hexamined]
      have hrecord (p : Nat) (hp : firstMarker s.buffer s.len k = some p) :
          EndsWithin i b (left.length * s.len + n) (fineStored i (readRecord s.buffer s.len k p) s) t :=
        (hfound k p (findMarkerIn_cons_of_some hp left)).mono (by omega)
      have hrange : s.len + 1 - k.bytes.length = s.len - 0 - k.bytes.length + 1 := by omega
      exact (endsWithin_marker hb hrecord hleft rfl (by omega) (by rw [firstMarker, hrange])).mono (by omega)
    · have hskipped : markersFrom i s (k :: left) = markersFrom i s left := if_neg hroom
      rw [hskipped]
      refine (hleft (firstMarker_eq_none.2 fun p => Bool.eq_false_iff.2 fun h => ?_)).mono (by omega)
      have hbound := occurs_bound h
      omega

/-- The search, and then what the shortcut answers. -/
theorem endsWithin_shortcut (hb : s.status.busy = b)
    (h : EndsWithin i b n (fineStored i (storedFrameCount s.buffer s.len) s) t) :
    EndsWithin i b (4 * s.len + n) (markersFrom i s markers) t := by
  exact endsWithin_markers (ks := markers) hb (fun k p hp => storedFrameCount_of_some hp ▸ h)
    fun hnone => storedFrameCount_of_none hnone ▸ h

/-! ## STORED and AUTO -/

/-- With a count stored both commands end in the same step, which reads it (42_metadata_shortcut.md R127). -/
theorem endsWithin_stored_ok (hb : s.status.busy = b) (k : Marker) (p : Nat) :
    EndsWithin i b 1 (fineStored i (.ok k p (memRead4 s.buffer (p + 8))) s) (s.ended
      { s.status with
        result := .ok, markFound := true, markId := k, trunc := false, src := true, metaOut := .countRead }
      { s.res with markPos := BitVec.ofNat 32 p, count := memRead4 s.buffer (p + 8) }) :=
  endsWithin_last (writeSrc true (writeStored (.ok k p (memRead4 s.buffer (p + 8))) s)) hb rfl

theorem endsWithin_stored (hb : s.status.busy = b) (ht : exec .stored s = .next t) :
    EndsWithin .stored b (4 * s.len + 1) (markersFrom .stored s markers) t := by
  refine endsWithin_shortcut hb ?_
  rcases storedFrameCount_cases s.buffer s.len with ho | ⟨k, p, -, -, ⟨trunc, ho⟩ | ho⟩
  · cases (execStored_of_notFound ho).symm.trans ht
    rw [ho]
    exact endsWithin_last (writeStored .notFound s) hb rfl
  · cases (execStored_of_noCount ho).symm.trans ht
    rw [ho]
    exact endsWithin_last (writeStored (.noCountStored k p trunc) s) hb rfl
  · cases (execStored_of_ok ho).symm.trans ht
    rw [ho]
    exact endsWithin_stored_ok hb k p

theorem endsWithin_auto (hmeta : s.ctrl.noMeta = false) (hb : s.status.busy = b) (ht : exec .auto s = .next t) :
    EndsWithin .auto b (6 * s.len + 3) (markersFrom .auto s markers) t := by
  refine (endsWithin_shortcut hb (n := 2 * s.len + 3) ?_).mono (by omega)
  rcases storedFrameCount_cases s.buffer s.len with ho | ⟨k, p, -, -, ⟨trunc, ho⟩ | ho⟩
  · rw [execAuto_of_notFound hmeta ho] at ht
    rw [ho]
    exact endsWithin_searchWalk (s := writeSrc false (writeStored .notFound s)) nofun hb ht
  · rw [execAuto_of_noCount hmeta ho] at ht
    rw [ho]
    exact endsWithin_searchWalk (s := writeSrc false (writeStored (.noCountStored k p trunc) s)) nofun hb ht
  · cases (execAuto_of_ok hmeta ho).symm.trans ht
    rw [ho]
    exact (endsWithin_stored_ok hb k p).mono (by omega)

/-! ## Every command -/

theorem fineStep_whole (ht : exec i s = .next t) : fineStep i s .whole = (t, .done) := by
  rw [fineStep, ht]

/-- From its start a command ends in the state of its meaning. -/
theorem endsWithin_fineStart (hb : s.status.busy = b) (ht : exec i s = .next t) :
    EndsWithin i b (6 * s.len + 16) (fineStart i s) t := by
  have hwhole (h : exec i s = .next t) : EndsWithin i b 1 (s, .whole) t := .last (fineStep_whole h) nofun hb
  cases i with
  | decode => exact (hwhole ht).mono (by omega)
  | fsize => exact (hwhole ht).mono (by omega)
  | seek => exact (endsWithin_seek hb ht).mono (by omega)
  | walk => exact (endsWithin_searchWalk (i := .walk) nofun hb ht).mono (by omega)
  | stored => exact (endsWithin_stored hb ht).mono (by omega)
  | auto =>
    rw [fineStart]
    cases hmeta : s.ctrl.noMeta with
    | true =>
      rw [execAuto_of_noMeta hmeta] at ht
      exact (endsWithin_searchWalk (i := .auto) (s := writeSrc false s) nofun hb ht).mono
        (show 2 * s.len + 3 ≤ 6 * s.len + 16 by omega)
    | false => exact (endsWithin_auto hmeta hb ht).mono (by omega)

end endsWithin

/-- Settles O52: after its end a command takes no more steps, so BUSY is as it was whenever the end is not reached. -/
theorem fineStepsEndWhereAtomicStepEnds : Obligations.FineStepsEndWhereAtomicStepEnds := by
  intro i s
  obtain ⟨t, ht, -⟩ := everyCommandCompletes i s
  obtain ⟨n, -, hn, hrun, hbefore⟩ := endsWithin_fineStart rfl ht
  refine ⟨n, t, hn, hrun, ht, fun k hk => ?_⟩
  rcases Nat.lt_or_ge k n with hkn | hkn
  · exact (hbefore k hkn).2
  · obtain ⟨r, rfl⟩ := Nat.exists_eq_add_of_le hkn
    rw [fineRun_add, hrun, fineRun_done] at hk
    exact absurd rfl hk

end Sys2Proof.Machine
end

section
/-! SUPPORT. The split machine (43_scan_walk.md R154). A finer step reads operands and writes results, so it does the same
in a state that the host's accesses have changed meanwhile; the split run follows the fine one until its end, and the
host's steps are those of the atomic machine beside it. -/

namespace Sys2Proof.Machine

/-! ## A finer step in another state with the same operands -/

/-- The registers that commands read agree, and so does the buffer below BUF_LEN. -/
structure SameInputs (x u : State) : Prop where
  ctrl : x.ctrl = u.ctrl
  hdrIn : x.hdrIn = u.hdrIn
  fsIn : x.fsIn = u.fsIn
  given : LP_BUFFER_GIVEN x u

theorem SameInputs.refl (x : State) : SameInputs x x := ⟨rfl, rfl, rfl, rfl, fun _ _ => rfl⟩

theorem SameInputs.sameOperands {x u : State} (h : SameInputs x u) (i : Instr) : sameOperands i x u := by
  have hmode : x.ctrl.syncMode = u.ctrl.syncMode := congrArg Ctrl.syncMode h.ctrl
  cases i with
  | decode => exact h.hdrIn
  | fsize => exact h.fsIn
  | seek => exact ⟨h.given, hmode⟩
  | walk => exact ⟨h.given, hmode⟩
  | stored => exact h.given
  | auto => exact ⟨h.given, h.ctrl⟩

theorem HostOnly.sameInputs {s t : State} (h : HostOnly s t) (hwf : s.buffer.wf = true) : SameInputs s t :=
  ⟨h.ctrl.symm, h.hdrIn.symm, h.fsIn.symm, h.given hwf⟩

/-- The progress `y` of a command, its results taken over to `u`. -/
def carry (u : State) (y : State × Fine) : State × Fine := (u.withResults y.1, y.2)

section carry
variable {x u : State} {i : Instr}

theorem syncFrom_carry (h : x.len = u.len) (i : Instr) (j : Nat) :
    syncFrom i j (u.withResults x) = carry u (syncFrom i j x) := by
  have hlen : (u.withResults x).len = x.len := h.symm
  rw [syncFrom, syncFrom, hlen]
  split
  · rfl
  · split <;> rfl

theorem fineStored_carry (h : x.len = u.len) (i : Instr) (o : StoredOutcome) :
    fineStored i o (u.withResults x) = carry u (fineStored i o x) := by
  have hwalk (y : State) (hy : y.len = u.len) : fineWalkPath i (u.withResults y) = carry u (fineWalkPath i y) :=
    syncFrom_carry (x := writeSrc false y) hy i 0
  by_cases hi : i = .auto
  · cases o with
    | ok k p c => rfl
    | noCountStored k p trunc =>
      simp only [fineStored, if_pos hi]
      exact hwalk (writeStored (.noCountStored k p trunc) x) h
    | notFound =>
      simp only [fineStored, if_pos hi]
      exact hwalk (writeStored .notFound x) h
  · cases o <;> simp only [fineStored, if_neg hi] <;> rfl

theorem markersFrom_carry (h : x.len = u.len) (i : Instr) (ks : List Marker) :
    markersFrom i (u.withResults x) ks = carry u (markersFrom i x ks) := by
  have hlen : (u.withResults x).len = x.len := h.symm
  induction ks with
  | nil => exact fineStored_carry h i .notFound
  | cons k left ih =>
    rw [markersFrom, markersFrom, hlen, ih]
    split <;> rfl

theorem fineStart_carry (h : SameInputs x u) (i : Instr) : fineStart i (u.withResults x) = carry u (fineStart i x) := by
  have hlen := h.given.len_eq
  cases i with
  | decode => rfl
  | fsize => rfl
  | seek => exact syncFrom_carry hlen .seek 0
  | walk => exact syncFrom_carry hlen .walk 0
  | stored => exact markersFrom_carry hlen .stored markers
  | auto =>
    have hmeta : (u.withResults x).ctrl.noMeta = x.ctrl.noMeta := congrArg Ctrl.noMeta h.ctrl.symm
    rw [fineStart, fineStart, hmeta]
    split
    · exact syncFrom_carry (x := writeSrc false x) hlen .auto 0
    · exact markersFrom_carry hlen .auto markers

/-- A count field that the final step is to read is below BUF_LEN (42_metadata_shortcut.md R125). -/
def Fine.FieldInBounds (len : Nat) : Fine → Prop
  | .last _ (.field p) => p + 12 ≤ len
  | _ => True

theorem fineStep_carry (h : SameInputs x u) {f : Fine} (hf : f.FieldInBounds x.len) :
    fineStep i (u.withResults x) f = carry u (fineStep i x f) := by
  have hlen := h.given.len_eq
  have hlen' : (u.withResults x).len = x.len := hlen.symm
  have hbuffer : (u.withResults x).buffer = u.buffer := rfl
  have hbelow (a : Nat) (ha : a < x.len) : u.buffer.read a = x.buffer.read a := (h.given.2 a ha).symm
  cases f with
  | marker left p =>
    cases left with
    | nil => exact fineStored_carry hlen i .notFound
    | cons k left =>
      rw [fineStep, fineStep, hlen', hbuffer, occurs_congr hbelow, readRecord_congr hbelow]
      split
      · exact fineStored_carry hlen i _
      · split
        · rfl
        · exact markersFrom_carry hlen i left
  | sync j =>
    have hmode : (u.withResults x).ctrl.syncMode = x.ctrl.syncMode := congrArg Ctrl.syncMode h.ctrl.symm
    have hsync : (decide (j + 1 < x.len) && isSync x.ctrl.syncMode u.buffer j) =
        (decide (j + 1 < x.len) && isSync x.ctrl.syncMode x.buffer j) := by
      by_cases hj : j + 1 < x.len
      · rw [isSync_congr hbelow _ hj]
      · simp [hj]
    rw [fineStep, fineStep, hlen', hmode, hbuffer, hsync]
    split
    · split <;> rfl
    · exact syncFrom_carry hlen i (j + 1)
  | walk c n =>
    rw [fineStep, fineStep, hlen', hbuffer, walkStep_congr hbelow]
    cases walkStep x.buffer x.len c <;> rfl
  | last code source =>
    cases source with
    | none => rfl
    | headers n => rfl
    | field p =>
      have hfield : memRead4 (u.withResults x).buffer (p + countOff) = memRead4 x.buffer (p + countOff) :=
        memRead4_congr hbelow hf
      rw [fineStep, fineStep, CountSource.write, CountSource.write, hfield]
      rfl
  | whole =>
    obtain ⟨t, ht, -⟩ := everyCommandCompletes i x
    rw [fineStep_whole ht, fineStep_whole (exec_withResults (h.sameOperands i) ht)]
    rfl
  | done => rfl

/-! ### The bound of the count field -/

theorem readRecord_ok_bound {m : Memory} {len : Nat} {k l : Marker} {p q : Nat} {c : Word}
    (h : readRecord m len k p = .ok l q c) : q + 12 ≤ len := by
  rcases Nat.lt_or_ge (p + 7) len with hlen | hlen
  · cases hflag : (m.read (p + 7)).getLsbD 0 with
    | false => nomatch (readRecord_of_flagClear hlen hflag k).symm.trans h
    | true =>
      rw [readRecord_of_flagSet hlen hflag] at h
      split at h
      · nomatch h
      · cases h
        omega
  · nomatch (readRecord_of_noFlags hlen k).symm.trans h

theorem syncFrom_fieldInBounds (i : Instr) (j : Nat) (x : State) (len : Nat) :
    (syncFrom i j x).2.FieldInBounds len := by
  rcases syncFrom_cases i j x with ⟨-, h⟩ | ⟨-, -, h⟩ | ⟨-, -, h⟩ <;> rw [h] <;> trivial

theorem fineStored_fieldInBounds {o : StoredOutcome} {len : Nat} (ho : ∀ k p c, o = .ok k p c → p + 12 ≤ len)
    (i : Instr) (x : State) : (fineStored i o x).2.FieldInBounds len := by
  cases o with
  | ok k p c => exact ho k p c rfl
  | noCountStored k p trunc =>
    rw [fineStored]
    split
    · exact syncFrom_fieldInBounds ..
    · trivial
  | notFound =>
    rw [fineStored]
    split
    · exact syncFrom_fieldInBounds ..
    · trivial

theorem markersFrom_fieldInBounds (i : Instr) (x : State) (ks : List Marker) (len : Nat) :
    (markersFrom i x ks).2.FieldInBounds len := by
  induction ks with
  | nil => exact fineStored_fieldInBounds (o := .notFound) nofun i x
  | cons k left ih =>
    rw [markersFrom]
    split
    · trivial
    · exact ih

theorem fineStart_fieldInBounds (i : Instr) (x : State) (len : Nat) : (fineStart i x).2.FieldInBounds len := by
  cases i with
  | decode => trivial
  | fsize => trivial
  | seek => exact syncFrom_fieldInBounds ..
  | walk => exact syncFrom_fieldInBounds ..
  | stored => exact markersFrom_fieldInBounds ..
  | auto =>
    rw [fineStart]
    split
    · exact syncFrom_fieldInBounds ..
    · exact markersFrom_fieldInBounds ..

/-- The final step is reached with a count field that the record's bound has passed. -/
theorem fineStep_fieldInBounds (i : Instr) (x : State) (f : Fine) : (fineStep i x f).2.FieldInBounds x.len := by
  cases f with
  | marker left p =>
    cases left with
    | nil => exact fineStored_fieldInBounds (o := .notFound) nofun i x
    | cons k left =>
      rw [fineStep]
      split
      · exact fineStored_fieldInBounds (fun _ _ _ h => readRecord_ok_bound h) i x
      · split
        · trivial
        · exact markersFrom_fieldInBounds ..
  | sync j =>
    rw [fineStep]
    split
    · split <;> trivial
    · exact syncFrom_fieldInBounds ..
  | walk c n =>
    rw [fineStep]
    cases walkStep x.buffer x.len c <;> trivial
  | last code source => trivial
  | whole =>
    obtain ⟨t, ht, -⟩ := everyCommandCompletes i x
    rw [fineStep_whole ht]
    trivial
  | done => trivial

/-! ### What finer steps leave unchanged, and many of them -/

theorem fineStart_view (i : Instr) (x : State) : (fineStart i x).1 = x.withResults (fineStart i x).1 :=
  congrArg Prod.fst (fineStart_carry (SameInputs.refl x) i)

theorem fineStep_view {f : Fine} (hf : f.FieldInBounds x.len) : (fineStep i x f).1 = x.withResults (fineStep i x f).1 :=
  congrArg Prod.fst (fineStep_carry (SameInputs.refl x) hf)

theorem view_trans {y z : State} (hy : y = x.withResults y) (hz : z = y.withResults z) : z = x.withResults z := by
  rw [hy] at hz
  exact hz

theorem SameInputs.of_view {y : State} (h : SameInputs x u) (hy : y = x.withResults y) : SameInputs y u := by
  rw [hy]
  exact ⟨h.ctrl, h.hdrIn, h.fsIn, h.given⟩

theorem len_of_view {y : State} (hy : y = x.withResults y) : y.len = x.len := by
  rw [hy]
  rfl

theorem fineRun_carry (h : SameInputs x u) {f : Fine} (hf : f.FieldInBounds x.len) (k : Nat) :
    fineRun i k (carry u (x, f)) = carry u (fineRun i k (x, f)) := by
  induction k generalizing x f with
  | zero => rfl
  | succ k ih =>
    have hview := fineStep_view (i := i) hf
    have hbound : (fineStep i x f).2.FieldInBounds (fineStep i x f).1.len :=
      len_of_view hview ▸ fineStep_fieldInBounds i x f
    have hrest := ih (h.of_view hview) hbound
    rwa [← fineStep_carry h hf] at hrest

end carry

/-! ## The split run beside the fine one -/

/-- `n` finer steps from where the split block stands the command ends, in the state `t` of its meaning from the host's
view, and not before. -/
structure Progress (i : Instr) (n : Nat) (p : Split) (t : State) : Prop where
  latched : latched p.host = some i
  busy : p.host.status.busy = true
  meaning : exec i p.host = .next t
  view : (p.work i).1 = p.host.withResults (p.work i).1
  field : (p.work i).2.FieldInBounds p.host.len
  ends : fineRun i n (p.work i) = (t, .done)
  before : ∀ k, k < n → (fineRun i k (p.work i)).2 ≠ .done

section progress
variable {i : Instr} {n : Nat} {p q : Split} {t : State}

theorem Progress.start {s : State} (hb : s.status.busy = true) (hl : Machine.latched s = some i)
    (ht : exec i s = .next t) : ∃ n, 1 ≤ n ∧ n ≤ 6 * s.len + 16 ∧ Progress i n ⟨s, none⟩ t := by
  obtain ⟨n, hpos, hn, hrun, hbefore⟩ := endsWithin_fineStart rfl ht
  exact ⟨n, hpos, hn, hl, hb, ht, fineStart_view i s, fineStart_fieldInBounds i s s.len, hrun,
    fun k hk => (hbefore k hk).1⟩

theorem Progress.work_field (h : Progress i n p t) : (p.work i).2.FieldInBounds (p.work i).1.len :=
  len_of_view h.view ▸ h.field

/-- The last step, and it alone, shows the host the results. -/
theorem Progress.turn_last (h : Progress i 1 p t) : splitTurn p = ⟨t, none⟩ := by
  have hstep : fineStep i (p.work i).1 (p.work i).2 = (t, .done) := h.ends
  rw [splitTurn_of_command h.busy h.latched, hstep, if_pos rfl]

/-- Any step before it leaves the host's view, and the working copy is where the fine run is. -/
theorem Progress.turn (h : Progress i (n + 2) p t) :
    ∃ j, splitTurn p = ⟨p.host, some j⟩ ∧ Progress i (n + 1) ⟨p.host, some j⟩ t := by
  obtain ⟨y, hy⟩ : ∃ y, fineStep i (p.work i).1 (p.work i).2 = y := ⟨_, rfl⟩
  have hview : y.1 = p.host.withResults y.1 := hy ▸ view_trans h.view (fineStep_view h.work_field)
  have hwork : Split.work i ⟨p.host, some (Job.of y)⟩ = y := Prod.ext hview.symm rfl
  have hends : fineRun i (n + 1) y = (t, .done) := hy ▸ h.ends
  have hbefore (k : Nat) (hk : k < n + 1) : (fineRun i k y).2 ≠ .done := hy ▸ h.before (k + 1) (by omega)
  have hfield : y.2.FieldInBounds p.host.len := by
    rw [← hy, ← len_of_view h.view]
    exact fineStep_fieldInBounds i _ _
  refine ⟨Job.of y, ?_, h.latched, h.busy, h.meaning, ?_, ?_, ?_, ?_⟩
  · rw [splitTurn_of_command h.busy h.latched, hy]
    exact if_neg (hbefore 0 (Nat.succ_pos n))
  all_goals rw [hwork]
  · exact hview
  · exact hfield
  · exact hends
  · exact hbefore

/-- What the host changes meanwhile, the command takes over to its end. -/
theorem Progress.host (h : Progress i n p t) (hwf : p.host.buffer.wf = true) (hhost : HostOnly p.host q.host)
    (hjob : q.job = p.job) : Progress i n q (q.host.withResults t) := by
  have hsame := hhost.sameInputs hwf
  have hwork : q.work i = carry q.host (p.work i) := by
    rw [Split.work, Split.work, hjob]
    cases p.job with
    | none =>
      conv_lhs => rw [hhost.eq_withResults]
      exact fineStart_carry hsame i
    | some j => rfl
  have hrun (k : Nat) : fineRun i k (carry q.host (p.work i)) = carry q.host (fineRun i k (p.work i)) :=
    fineRun_carry (hsame.of_view h.view) h.work_field k
  refine ⟨hhost.latched_eq.trans h.latched, hhost.busy_eq.trans h.busy, ?_, ?_, ?_, ?_, ?_⟩
  · conv_lhs => rw [hhost.eq_withResults]
    exact exec_withResults (hhost.sameOperands hwf i) h.meaning
  all_goals rw [hwork]
  · rfl
  · rw [hhost.len_eq]
    exact h.field
  · rw [hrun, h.ends]
    rfl
  · intro k hk
    rw [hrun]
    exact h.before k hk

end progress

/-! ## Any word -/

/-- The busy split block needs `n` turns to end in `t`: one for an illegal word, and the finer steps of a command. -/
def TurnsTo (n : Nat) (p : Split) (t : State) : Prop :=
  (p.host.status.busy = true ∧ latched p.host = none ∧ n = 1 ∧ t = completeIllegal p.host) ∨
    ∃ i, 1 ≤ n ∧ Progress i n p t

section turnsTo
variable {n : Nat} {p q : Split} {t : State}

theorem TurnsTo.start {s : State} (hb : s.status.busy = true) : ∃ n t, 1 ≤ n ∧ n ≤ 6 * s.len + 16 ∧ TurnsTo n ⟨s, none⟩ t := by
  cases hl : latched s with
  | none => exact ⟨1, _, Nat.le_refl 1, by omega, .inl ⟨hb, hl, rfl, rfl⟩⟩
  | some i =>
    obtain ⟨t, ht, -⟩ := everyCommandCompletes i s
    obtain ⟨n, hpos, hn, h⟩ := Progress.start hb hl ht
    exact ⟨n, t, hpos, hn, .inr ⟨i, hpos, h⟩⟩

theorem TurnsTo.busy (h : TurnsTo n p t) : p.host.status.busy = true := by
  rcases h with ⟨hb, -⟩ | ⟨i, -, h⟩
  · exact hb
  · exact h.busy

theorem TurnsTo.pos (h : TurnsTo n p t) : 1 ≤ n := by
  rcases h with ⟨-, -, rfl, -⟩ | ⟨i, hpos, -⟩
  · exact Nat.le_refl 1
  · exact hpos

/-- It ends where the atomic block does. -/
theorem TurnsTo.blockStep (h : TurnsTo n p t) : blockStep p.host = .next t := by
  rcases h with ⟨-, hl, -, rfl⟩ | ⟨i, -, h⟩
  · exact blockStep_of_illegal hl
  · exact (blockStep_of_command h.latched).trans h.meaning

theorem TurnsTo.turn_last (h : TurnsTo 1 p t) : splitTurn p = ⟨t, none⟩ := by
  rcases h with ⟨hb, hl, -, rfl⟩ | ⟨i, -, h⟩
  · exact splitTurn_of_illegal hb hl
  · exact h.turn_last

theorem TurnsTo.turn (h : TurnsTo (n + 2) p t) :
    ∃ j, splitTurn p = ⟨p.host, some j⟩ ∧ TurnsTo (n + 1) ⟨p.host, some j⟩ t := by
  rcases h with ⟨-, -, hn, -⟩ | ⟨i, -, h⟩
  · omega
  · obtain ⟨j, hturn, hj⟩ := h.turn
    exact ⟨j, hturn, .inr ⟨i, Nat.succ_pos n, hj⟩⟩

theorem TurnsTo.host (h : TurnsTo n p t) (hwf : p.host.buffer.wf = true) (hhost : HostOnly p.host q.host)
    (hjob : q.job = p.job) : TurnsTo n q (q.host.withResults t) := by
  rcases h with ⟨hb, hl, hn, rfl⟩ | ⟨i, hpos, h⟩
  · refine .inl ⟨hhost.busy_eq.trans hb, hhost.latched_eq.trans hl, hn, ?_⟩
    conv_rhs => rw [hhost.eq_withResults]
    rfl
  · exact .inr ⟨i, hpos, h.host hwf hhost hjob⟩

end turnsTo

/-! ## The statements -/

/-- The split step is the atomic one, with its stop, and keeps the command in progress only while busy. -/
def SplitsAsAtomic (p : Split) : Prop :=
  (∀ t, step p.host = .next t →
      splitStep p = .next ⟨t, if t.status.busy && p.host.status.busy then p.job else none⟩) ∧
    (∀ e, step p.host = .fault e → splitStep p = .fault e) ∧ ∀ e, step p.host = .refused e → splitStep p = .refused e

theorem splitsAsAtomic_of_host {p : Split} {x : Input} {rest : List Input} (hin : p.host.inputs = x :: rest)
    (hx : x ≠ .block) : SplitsAsAtomic p := by
  rw [SplitsAsAtomic, splitStep_of_host hin hx, splitHost]
  refine ⟨fun t h => ?_, fun e h => ?_, fun e h => ?_⟩ <;> rw [h]

/-- An idle block's turn holds its state in both machines (60_exceptions.md R188). -/
theorem splitsAsAtomic_of_idle {p : Split} {u : State} (hb : u.status.busy = false) (hstep : step p.host = .next u)
    (hsplit : splitStep p = .next ⟨u, none⟩) : SplitsAsAtomic p := by
  refine ⟨fun t ht => ?_, fun e he => ?_, fun e he => ?_⟩
  · cases hstep.symm.trans ht
    rw [hsplit, hb]
    rfl
  · cases hstep.symm.trans he
  · cases hstep.symm.trans he

/-- Settles O56: by the oldest input. -/
theorem splitHostStepsAreAtomicOnes : Obligations.SplitHostStepsAreAtomicOnes := by
  intro p hcase
  rcases hcase with hb | ⟨x, rest, hin, hx⟩
  · cases hin : p.host.inputs with
    | nil =>
      exact splitsAsAtomic_of_idle hb ((step_of_nil hin).trans (blockTurn_of_idle hb))
        ((splitStep_of_nil hin).trans (congrArg _ (splitTurn_of_idle hb)))
    | cons x rest =>
      by_cases hx : x = .block
      · subst hx
        exact splitsAsAtomic_of_idle (u := { p.host with inputs := rest }) hb
          ((step_of_block hin).trans (blockTurn_of_idle hb))
          ((splitStep_of_block hin).trans (congrArg _ (splitTurn_of_idle hb)))
      · exact splitsAsAtomic_of_host hin hx
  · exact splitsAsAtomic_of_host hin hx

/-- A split block left alone takes its turns one after the other. -/
theorem TurnsTo.run_alone {n : Nat} {p : Split} {t : State} (h : TurnsTo (n + 1) p t) (hin : p.host.inputs = []) :
    Host.Core.run splitCore (n + 1) p = .next ⟨t, none⟩ ∧
      ∀ k, k < n + 1 → ∃ j, Host.Core.run splitCore k p = .next ⟨p.host, j⟩ := by
  induction n generalizing p with
  | zero =>
    refine ⟨?_, fun k hk => ⟨p.job, ?_⟩⟩
    · rw [splitRun_succ (splitStep_of_nil hin), h.turn_last]
      rfl
    · rw [Nat.lt_one_iff.1 hk]
      rfl
  | succ n ih =>
    obtain ⟨j, hturn, hj⟩ := h.turn
    have hstep : splitStep p = .next ⟨p.host, some j⟩ := (splitStep_of_nil hin).trans (congrArg _ hturn)
    obtain ⟨hrun, hbefore⟩ := ih hj hin
    refine ⟨(splitRun_succ hstep _).trans hrun, fun k hk => ?_⟩
    cases k with
    | zero => exact ⟨p.job, rfl⟩
    | succ k =>
      rw [splitRun_succ hstep]
      exact hbefore k (Nat.lt_of_succ_lt_succ hk)

/-- Settles O57. -/
theorem splitCommandEndsLikeTheAtomicStep : Obligations.SplitCommandEndsLikeTheAtomicStep := by
  intro s hb hin
  obtain ⟨n, t, hpos, hn, h⟩ := TurnsTo.start hb
  obtain ⟨m, rfl⟩ := Nat.exists_eq_add_of_le' hpos
  obtain ⟨hrun, hbefore⟩ := h.run_alone hin
  obtain ⟨u, hu, hbusy, -⟩ := blockStep_completes s
  cases hu.symm.trans h.blockStep
  exact ⟨m + 1, t, hpos, hn, hrun, by rw [step_of_nil hin, blockTurn_of_busy hb, hu], hbusy, hbefore⟩

/-! ## Any interleaving -/

/-- The inputs of a split run: turns of the block, and inputs that are harmless while busy. -/
theorem block_or_harmless {len : Nat} {ins : List Input} (hword : LP_WORD_ACCESS ins)
    (hstable : LP_BUFFER_STABLE len ins) (hundisturbed : Undisturbed ins) :
    ∀ x ∈ ins, x = .block ∨ x.harmless len = true := by
  intro x hx
  by_cases hblock : x = .block
  · exact .inl hblock
  · exact .inr (harmless_of_subset hword hstable hundisturbed (List.cons_subset.2 ⟨hx, List.nil_subset ins⟩)
      (fun h => hblock (List.mem_singleton.1 h).symm) x (List.mem_singleton_self x))

/-- The split block is still busy after `ins`, where the atomic one is that had no turn. -/
def StaysBusy (n : Nat) (p : Split) (ins rest : List Input) : Prop :=
  ∃ q, Host.Core.run splitCore ins.length p = .next q ∧ q.host.status.busy = true ∧ ins.count .block < n ∧
    Host.Core.run core (withoutTurns ins).length { p.host with inputs := withoutTurns ins ++ rest } = .next q.host

/-- The split block completes at one of its turns in `ins`, where the atomic one does that has its turn there. -/
def CompletesAmong (n : Nat) (p : Split) (ins rest : List Input) : Prop :=
  ∃ before after t, ins = before ++ .block :: after ∧ (before ++ [Input.block]).count .block ≤ n ∧
    Host.Core.run splitCore (before.length + 1) p = .next ⟨t, none⟩ ∧ t.status.busy = false ∧
    Host.Core.run core ((withoutTurns before).length + 1)
      { p.host with inputs := withoutTurns before ++ .block :: (after ++ rest) } = .next t

section interleaving
variable {n : Nat} {p q : Split} {x : Input} {ins rest : List Input}

/-- A finer turn that is not the last is no step of the atomic machine. -/
theorem StaysBusy.of_turn (hstep : splitStep p = .next q) (hq : q.host = { p.host with inputs := ins ++ rest })
    (h : StaysBusy n q ins rest) : StaysBusy (n + 1) p (.block :: ins) rest := by
  obtain ⟨r, hrun, hb, hcount, hcore⟩ := h
  rw [hq] at hcore
  refine ⟨r, (splitRun_succ hstep _).trans hrun, hb, ?_, hcore⟩
  rw [List.count_cons_self]
  omega

theorem CompletesAmong.of_turn (hstep : splitStep p = .next q) (hq : q.host = { p.host with inputs := ins ++ rest })
    (h : CompletesAmong n q ins rest) : CompletesAmong (n + 1) p (.block :: ins) rest := by
  obtain ⟨before, after, t, rfl, hcount, hrun, hb, hcore⟩ := h
  rw [hq] at hcore
  refine ⟨.block :: before, after, t, rfl, ?_, (splitRun_succ hstep _).trans hrun, hb, hcore⟩
  rw [List.cons_append, List.count_cons_self]
  omega

/-- A step of the host is one of the atomic machine too, whatever comes after it. -/
theorem run_of_host (hx : x ≠ .block) {s t : State} (hin : s.inputs = x :: rest) (hstep : step s = .next t)
    (other : List Input) (k : Nat) :
    Host.Core.run core (k + 1) { s with inputs := x :: other } = Host.Core.run core k { t with inputs := other } := by
  have heta : { s with inputs := x :: rest } = s := by rw [← hin]
  exact run_succ (step_of_other_rest hx (heta.symm ▸ hstep) other) k

theorem StaysBusy.of_host (hx : x ≠ .block) (hin : p.host.inputs = x :: (ins ++ rest))
    (hstep : step p.host = .next q.host) (hsplit : splitStep p = .next q) (h : StaysBusy n q ins rest) :
    StaysBusy n p (x :: ins) rest := by
  obtain ⟨r, hrun, hb, hcount, hcore⟩ := h
  refine ⟨r, (splitRun_succ hsplit _).trans hrun, hb, ?_, ?_⟩
  · rwa [List.count_cons_of_ne hx]
  · rw [withoutTurns_cons hx]
    exact (run_of_host hx hin hstep _ _).trans hcore

theorem CompletesAmong.of_host (hx : x ≠ .block) (hin : p.host.inputs = x :: (ins ++ rest))
    (hstep : step p.host = .next q.host) (hsplit : splitStep p = .next q) (h : CompletesAmong n q ins rest) :
    CompletesAmong n p (x :: ins) rest := by
  obtain ⟨before, after, t, rfl, hcount, hrun, hb, hcore⟩ := h
  refine ⟨x :: before, after, t, rfl, ?_, (splitRun_succ hsplit _).trans hrun, hb, ?_⟩
  · rwa [List.cons_append, List.count_cons_of_ne hx]
  · rw [withoutTurns_cons hx]
    exact (run_of_host hx hin hstep _ _).trans hcore

/-- The last turn is the atomic machine's one turn. -/
theorem completesAmong_of_last {t : State} (h : TurnsTo 1 ⟨{ p.host with inputs := ins ++ rest }, p.job⟩ t)
    (hin : p.host.inputs = .block :: (ins ++ rest)) : CompletesAmong 1 p (.block :: ins) rest := by
  obtain ⟨u, hu, hbusy, -⟩ := blockStep_completes { p.host with inputs := ins ++ rest }
  cases hu.symm.trans h.blockStep
  have hsplit : splitStep p = .next ⟨t, none⟩ := (splitStep_of_block hin).trans (congrArg _ h.turn_last)
  have hstep : step { p.host with inputs := .block :: (ins ++ rest) } = .next t :=
    (step_of_block rfl).trans ((blockTurn_of_busy h.busy).trans hu)
  exact ⟨[], ins, t, rfl, by simp, splitRun_succ hsplit 0, hbusy, run_succ hstep 0⟩

/-- By the oldest input: the host's is one of both machines, and a turn is the last or leaves the host's view. -/
theorem TurnsTo.run {t : State} (h : TurnsTo n p t) (hwf : p.host.buffer.wf = true) (hin : p.host.inputs = ins ++ rest)
    (hins : ∀ x ∈ ins, x = .block ∨ x.harmless p.host.len = true) :
    StaysBusy n p ins rest ∨ CompletesAmong n p ins rest := by
  induction ins generalizing n p t with
  | nil =>
    have heta : { p.host with inputs := rest } = p.host := by rw [← hin.trans (List.nil_append rest)]
    exact .inl ⟨p, rfl, h.busy, h.pos, congrArg _ heta⟩
  | cons x ins ih =>
    obtain ⟨hx, hrest⟩ := List.forall_mem_cons.1 hins
    by_cases hblock : x = .block
    · subst hblock
      have hhost := HostOnly.refl p.host (ins ++ rest)
      have hnext := h.host (q := ⟨{ p.host with inputs := ins ++ rest }, p.job⟩) hwf hhost rfl
      rcases Nat.lt_or_ge 1 n with hn | hn
      · obtain ⟨m, rfl⟩ := Nat.exists_eq_add_of_le' hn
        obtain ⟨j, hturn, hj⟩ := hnext.turn
        have hsplit := (splitStep_of_block hin).trans (congrArg _ hturn)
        exact (ih hj hwf rfl hrest).imp (.of_turn hsplit rfl) (.of_turn hsplit rfl)
      · obtain rfl : n = 1 := Nat.le_antisymm hn h.pos
        exact .inr (completesAmong_of_last hnext hin)
    · obtain ⟨u, hstep, hinu, hhost, -⟩ := step_hostOnly hin h.busy (hx.resolve_left hblock)
      have hkeep : (if u.status.busy && p.host.status.busy then p.job else none) = p.job := by
        rw [hhost.busy_eq, h.busy]
        rfl
      have hsplit : splitStep p = .next ⟨u, p.job⟩ := by
        rw [splitStep_of_host hin hblock, splitHost_of_next hstep, hkeep]
      have hnext := h.host (q := ⟨u, p.job⟩) hwf hhost rfl
      exact (ih hnext (hhost.buffer hwf).1 hinu (hhost.len_eq.symm ▸ hrest)).imp
        (.of_host hblock hin hstep hsplit) (.of_host hblock hin hstep hsplit)

end interleaving

/-- Settles O58. -/
theorem splitHostSeesTheAtomicMachine : Obligations.SplitHostSeesTheAtomicMachine := by
  intro s ins rest hwf hb hin hword hstable hundisturbed
  obtain ⟨n, t, -, hn, h⟩ := TurnsTo.start hb
  rcases h.run hwf hin (block_or_harmless hword hstable hundisturbed) with
    ⟨q, hrun, hqb, hcount, hcore⟩ | ⟨before, after, u, hsplit, hcount, hrun, hub, hcore⟩
  · exact .inl ⟨q, hrun, hqb, Nat.lt_of_lt_of_le hcount hn, hcore⟩
  · exact .inr ⟨before, after, u, hsplit, Nat.le_trans hcount hn, hrun, hub, hcore⟩

end Sys2Proof.Machine
end
